-- ==== Sys2Proof/Word.lean ====
section
/-! DEFINITION. The word types of HUFF-CORE (spec/20_memory.md R61, spec/00_scope.md R3). -/

namespace Sys2Proof

/-- A word of the host bus, and a command word (R61, R90). -/
abbrev Word := BitVec 32

/-- A byte of a bit buffer or of the output buffer (R13, R45). -/
abbrev Byte := BitVec 8

/-- A symbol: one of the 256 byte values (R3). -/
abbrev Symbol := BitVec 8

end Sys2Proof
end

