-- ==== Sys2Proof/Syntax.lean ====
section
/-! DEFINITION. The commands of HUFF-CORE, one constructor per row of spec/opcode_table.json
(spec/30_encoding.md R92, R95). Operands have the widths of their fields. -/

namespace Sys2Proof

/-- A command with its operands (R92, R93, R95). -/
inductive Instr where
  /-- `NOP`: do nothing (R220). -/
  | nop
  /-- `FRESET`: clear the frequency table (R120). -/
  | freset
  /-- `FACC b`: count one occurrence of byte `b` (R122). -/
  | facc (b : BitVec 8)
  /-- `BUILD`: build the tree from the frequencies (R130). -/
  | build
  /-- `GEN`: generate the code table (R150). -/
  | gen
  /-- `SRESET`: rewind the stream (R172). -/
  | sreset
  /-- `SCLEAR`: empty the stream (R173). -/
  | sclear
  /-- `SWBITS k, v`: append the low `k` bits of `v` (R174). -/
  | swbits (k : BitVec 5) (v : BitVec 16)
  /-- `SRBIT`: read one bit (R176). -/
  | srbit
  /-- `ENC b`: append the code of byte `b` (R190). -/
  | enc (b : BitVec 8)
  /-- `DSYM`: decode one symbol into RESULT (R201). -/
  | dsym
  /-- `DRUN n`: decode `n` symbols into OUTBUF (R203). -/
  | drun (n : BitVec 24)
  /-- `DSENT`: decode into OUTBUF until the sentinel (R205). -/
  | dsent
  /-- `OCLEAR`: empty the output buffer (R207). -/
  | oclear
  /-- `CLRERR`: clear STICKY (R222). -/
  | clrerr
  /-- `SRST`: soft reset (R224). -/
  | srst
deriving DecidableEq, Repr

end Sys2Proof
end

