-- ==== Sys2Proof/WellFormed.lean ====
section
/-! DEFINITION. Which command terms are legal commands: the operand checks of spec/30_encoding.md R94. The
opcode and the must-be-0 bits cannot be wrong in a term; SWBITS's operands can. -/

namespace Sys2Proof

/-- The bit count of SWBITS is 1..16 (R94 item 3). -/
def Instr.bitCountOk : Instr → Bool
  | .swbits k _ => decide (1 ≤ k.toNat) && decide (k.toNat ≤ 16)
  | .nop | .freset | .facc _ | .build | .gen | .sreset | .sclear | .srbit | .enc _ | .dsym | .drun _ | .dsent
  | .oclear | .clrerr | .srst => true

/-- The value of SWBITS fits in its bit count: `v < 2^k` (R94 item 3). -/
def Instr.valueFits : Instr → Bool
  | .swbits k v => decide (v.toNat < 2 ^ k.toNat)
  | .nop | .freset | .facc _ | .build | .gen | .sreset | .sclear | .srbit | .enc _ | .dsym | .drun _ | .dsent
  | .oclear | .clrerr | .srst => true

/-- A legal command (R94). -/
def Instr.wellFormed (i : Instr) : Bool := i.bitCountOk && i.valueFits

end Sys2Proof
end

