-- ==== Sys2Proof/Decode.lean ====
section
/-! DEFINITION. Decoding and encoding of command words (spec/30_encoding.md R90 to R99). Decoding is total on
every 32-bit word and rejects by name; a rejected word is an illegal command (R97), which the machine answers
with ILLEGAL_COMMAND. -/

namespace Sys2Proof

/-- Why a word is no legal command (R94). All four mean ILLEGAL_COMMAND (R97). -/
inductive IllegalWord where
  /-- The opcode is not in the map of R95. -/
  | unlistedOpcode
  /-- A must-be-0 bit of the format is 1. -/
  | operandBitSet
  /-- SWBITS with `k` = 0 or `k` > 16. -/
  | badBitCount
  /-- SWBITS with `v >= 2^k`. -/
  | valueTooWide
deriving DecidableEq, Repr

/-- `op = w[31:24]` (R91). -/
def opField (w : Word) : BitVec 8 := w.extractLsb' 24 8

/-- The operand field `w[23:0]`, and format C's `n` (R91, R93). -/
def operandField (w : Word) : BitVec 24 := w.extractLsb' 0 24

/-- Format B's must-be-0 bits `w[23:8]` (R92). -/
def upperOperandField (w : Word) : BitVec 16 := w.extractLsb' 8 16

/-- Format B's byte `b = w[7:0]` (R93). -/
def byteField (w : Word) : BitVec 8 := w.extractLsb' 0 8

/-- Format K's must-be-0 bits `w[23:21]` (R92). -/
def topOperandField (w : Word) : BitVec 3 := w.extractLsb' 21 3

/-- Format K's bit count `k = w[20:16]` (R93). -/
def countField (w : Word) : BitVec 5 := w.extractLsb' 16 5

/-- Format K's value `v = w[15:0]` (R93). -/
def valueField (w : Word) : BitVec 16 := w.extractLsb' 0 16

/-- A word of format N (R92, R99). -/
def decodeNone (i : Instr) (w : Word) : Except IllegalWord Instr :=
  if operandField w = 0#24 then .ok i else .error .operandBitSet

/-- A word of format B (R92, R99). -/
def decodeByte (f : BitVec 8 → Instr) (w : Word) : Except IllegalWord Instr :=
  if upperOperandField w = 0#16 then .ok (f (byteField w)) else .error .operandBitSet

/-- A word of format K (R92, R94, R99): the checks in the order of R99. -/
def decodeBits (f : BitVec 5 → BitVec 16 → Instr) (w : Word) : Except IllegalWord Instr :=
  if topOperandField w = 0#3 then
    if 1 ≤ (countField w).toNat ∧ (countField w).toNat ≤ 16 then
      if (valueField w).toNat < 2 ^ (countField w).toNat then .ok (f (countField w) (valueField w))
      else .error .valueTooWide
    else .error .badBitCount
  else .error .operandBitSet

/-- The decoding procedure of R99, with the opcode map of R95. -/
def decode (w : Word) : Except IllegalWord Instr :=
  match (opField w).toNat with
  | 0x00 => decodeNone .nop w
  | 0x01 => decodeNone .freset w
  | 0x02 => decodeByte .facc w
  | 0x10 => decodeNone .build w
  | 0x20 => decodeNone .gen w
  | 0x30 => decodeNone .sreset w
  | 0x31 => decodeNone .sclear w
  | 0x32 => decodeBits .swbits w
  | 0x33 => decodeNone .srbit w
  | 0x40 => decodeByte .enc w
  | 0x50 => decodeNone .dsym w
  | 0x51 => .ok (.drun (operandField w))
  | 0x52 => decodeNone .dsent w
  | 0x58 => decodeNone .oclear w
  | 0x70 => decodeNone .clrerr w
  | 0x7F => decodeNone .srst w
  | _ => .error .unlistedOpcode

/-- The word of a command (R92, R95, R100). -/
def encode : Instr → Word
  | .nop => 0x00#8 ++ 0#24
  | .freset => 0x01#8 ++ 0#24
  | .facc b => 0x02#8 ++ 0#16 ++ b
  | .build => 0x10#8 ++ 0#24
  | .gen => 0x20#8 ++ 0#24
  | .sreset => 0x30#8 ++ 0#24
  | .sclear => 0x31#8 ++ 0#24
  | .swbits k v => 0x32#8 ++ 0#3 ++ k ++ v
  | .srbit => 0x33#8 ++ 0#24
  | .enc b => 0x40#8 ++ 0#16 ++ b
  | .dsym => 0x50#8 ++ 0#24
  | .drun n => 0x51#8 ++ n
  | .dsent => 0x52#8 ++ 0#24
  | .oclear => 0x58#8 ++ 0#24
  | .clrerr => 0x70#8 ++ 0#24
  | .srst => 0x7F#8 ++ 0#24

/-- `match` of R95: the word of the row with every operand field 0. -/
def opMatch : Instr → Word
  | .nop => 0x00000000#32
  | .freset => 0x01000000#32
  | .facc _ => 0x02000000#32
  | .build => 0x10000000#32
  | .gen => 0x20000000#32
  | .sreset => 0x30000000#32
  | .sclear => 0x31000000#32
  | .swbits _ _ => 0x32000000#32
  | .srbit => 0x33000000#32
  | .enc _ => 0x40000000#32
  | .dsym => 0x50000000#32
  | .drun _ => 0x51000000#32
  | .dsent => 0x52000000#32
  | .oclear => 0x58000000#32
  | .clrerr => 0x70000000#32
  | .srst => 0x7F000000#32

/-- `mask` of R95: the opcode and the must-be-0 bits of the row. -/
def opMask : Instr → Word
  | .facc _ | .enc _ => 0xFFFFFF00#32
  | .swbits _ _ => 0xFFE00000#32
  | .drun _ => 0xFF000000#32
  | .nop | .freset | .build | .gen | .sreset | .sclear | .srbit | .dsym | .dsent | .oclear | .clrerr | .srst =>
    0xFFFFFFFF#32

/-- The command this decoder reads from the bits `w` of a table row (log 19): every command is one 32-bit word,
and the bits above `nbits` are 0. -/
def decodeTableWord (nbits w : Nat) : Option Instr :=
  match decode (BitVec.ofNat 32 (w % 2 ^ nbits)) with
  | .ok i => some i
  | .error _ => none

end Sys2Proof
end

