-- ==== Sys2Proof/Config.lean ====
section
/-! DEFINITION. What an instance of HUFF-CORE fixes (spec/00_scope.md R9, spec/20_memory.md R73), the
constants every instance shares, and the free values of the BUSY protocol (spec/70_reset_and_hazards.md R266). -/

namespace Sys2Proof.Config

/-- The open parameters of an instance (R9, R73). They stand in `State.params`, so a statement about every
state is a statement about every instance. -/
structure Params where
  /-- `CNT_W`, the width of a frequency counter, 1..24. -/
  cntW : Nat
  /-- `STREAM_BITS`, the capacity of the bit stream in bits, 1..2^23. -/
  streamBits : Nat
  /-- `OUT_BYTES`, the capacity of the output buffer in bytes, 1..2^20. -/
  outBytes : Nat
  /-- `BASE`, the byte address of the block's 16 MiB window, a multiple of 4. -/
  base : Nat
deriving DecidableEq, Repr

/-- The defaults of R9. DESIGN CHOICE (log 10): `BASE` has no default in the spec, 0 here. -/
def Params.standard : Params := { cntW := 24, streamBits := 1048576, outBytes := 65536, base := 0 }

/-- The legal ranges of R9 and R73. -/
abbrev Params.Legal (p : Params) : Prop :=
  1 ≤ p.cntW ∧ p.cntW ≤ 24 ∧ 1 ≤ p.streamBits ∧ p.streamBits ≤ 8388608 ∧
    1 ≤ p.outBytes ∧ p.outBytes ≤ 1048576 ∧ p.base % 4 = 0

/-- `WT_W`, the width of an arena weight (R9, R10). -/
def Params.wtW (p : Params) : Nat := p.cntW + 8

/-- The identification word of R30. -/
def idWord : Word := 0x48554631#32

/-- `CODE_BITS`, the capacity of the code-bit buffer (R9). -/
def codeBits : Nat := 32896

/-- `SENTINEL`, the symbol that ends DSENT (R9). -/
def sentinel : Symbol := 0#8

/-- The number of byte addresses of the block's window (R60). -/
def windowBytes : Nat := 16777216

/-- FREE VALUE (log 5): the BUSY bit the `n`th poll of a pending command draws, "1 or 0, under no law" (R266). -/
opaque busyDraw : Nat → Bool

/-- FREE VALUE (log 6): the other STATUS bits of the `n`th poll when it draws BUSY = 1, "any value" (R266). -/
opaque busyStatus : Nat → Word

/-- The fairness of R266 as a premise (log 7): from any poll on, some draw is 0. -/
abbrev BusyFair : Prop := ∀ n, ∃ m, n ≤ m ∧ busyDraw m = false

end Sys2Proof.Config
end

