-- ==== Sys2Proof/Machine/State.lean ====
section
/-! DEFINITION. The state of HUFF-CORE: every element of spec/10_state.md R21 as plain data, the instance's
parameters, and the host's side of the bus; the reasons a step can stop; and the state after reset
(spec/70_reset_and_hazards.md R260). -/

namespace Sys2Proof.Machine

/-- The result code of a command (60_exceptions.md R230). Codes 8..15 are never written. -/
inductive ResultCode where
  /-- 0: the command did all it describes. -/
  | ok
  /-- 1: bits or bytes do not fit in their buffer. -/
  | capacityExceeded
  /-- 2: the encoder was asked for a byte with no code. -/
  | unknownSymbol
  /-- 3: BUILD with no nonzero frequency. -/
  | degenerateTree
  /-- 4: a read at or past the written length. -/
  | overread
  /-- 5: a counter at its largest value. -/
  | countOverflow
  /-- 6: the tree or code table needed is not valid. -/
  | notReady
  /-- 7: the word is no legal command. -/
  | illegalCommand
deriving DecidableEq, Repr

/-- A byte buffer in canonical form (log 13): addresses strictly rising, no byte equal to `unlistedByte`. -/
abbrev Memory := List Host.Cell

/-- What a byte no command has written reads as: 0, the reset contents of every buffer (R260). -/
def unlistedByte : Byte := 0#8

/-- One arena slot (R24, R25, R26). LEFT and RIGHT are "either both absent (leaf) or both present (internal)"
(R25), so they are one optional pair (log 11). -/
structure Node where
  /-- `WEIGHT[i]`. -/
  weight : Nat
  /-- `LEFT[i]` and `RIGHT[i]`; `none` is `ABSENT` in both. -/
  children : Option (Fin 511 × Fin 511)
  /-- `CONSUMED[i]`. -/
  consumed : Bool
deriving DecidableEq, Repr

/-- `LEFT[i]`; `none` is `ABSENT` (R25). -/
def Node.left (nd : Node) : Option (Fin 511) := nd.children.map Prod.fst

/-- `RIGHT[i]`; `none` is `ABSENT` (R25). -/
def Node.right (nd : Node) : Option (Fin 511) := nd.children.map Prod.snd

/-- A slot that holds no node: weight 0, no children, not consumed (R260). -/
def Node.empty : Node := { weight := 0, children := none, consumed := false }

/-- The tree arena: 511 slots (R9, R24). -/
abbrev Arena := Vector Node 511

/-- One code-table entry (R42). -/
structure CodeEntry where
  /-- `CT_VALID[s]`. -/
  valid : Bool
  /-- `CT_LEN[s]`. -/
  len : Nat
  /-- `CT_OFF[s]`. -/
  off : Nat
deriving DecidableEq, Repr

/-- An absent code-table entry (R42). -/
def CodeEntry.absent : CodeEntry := { valid := false, len := 0, off := 0 }

/-- One access of the host (60_exceptions.md R252). -/
inductive HostAccess where
  /-- `MemRead(addr, size)`, at a byte address of the host bus. -/
  | read (addr : Nat) (size : Nat)
  /-- `MemWrite(addr, size, data)`. -/
  | write (addr : Nat) (size : Nat) (data : Word)
  /-- The hardware reset input (R261). -/
  | reset
deriving DecidableEq, Repr

/-- The host's side of the bus: the MODEL's own fields (log 1, 5, 16). -/
structure HostPort where
  /-- The accesses the host will still make, oldest first. -/
  requests : List HostAccess
  /-- The word the host's last completed read returned. -/
  lastRead : Option Word
  /-- How many BUSY draws have been taken: the index of the next free value. -/
  draws : Nat
deriving DecidableEq, Repr

/-- The state of one instance (R21), with its parameters (R9) and the host's port. -/
structure State where
  /-- The instance's parameters; nothing changes them. -/
  params : Config.Params
  /-- `CMD`, the last command word written (R33). -/
  cmd : Word
  /-- `PENDING`, read as `STATUS.BUSY` (R46). -/
  pending : Bool
  /-- `STATUS.TREE_VALID` (R35). -/
  treeValid : Bool
  /-- `STATUS.CODES_VALID` (R36). -/
  codesValid : Bool
  /-- `STATUS.DEGEN` (R37). -/
  degen : Bool
  /-- `STATUS.LAST` (R39). -/
  last : ResultCode
  /-- `RESULT` (R40). -/
  result : Word
  /-- `STICKY` (R41). -/
  sticky : Word
  /-- `NEXT_FREE` (R27). -/
  nextFree : Nat
  /-- `ROOT`; `none` is `NONE` (R28). -/
  root : Option (Fin 511)
  /-- `CODE_FILL` (R43). -/
  codeFill : Nat
  /-- `S_CUR` (R44). -/
  sCur : Nat
  /-- `S_WLEN` (R44). -/
  sWlen : Nat
  /-- `O_CNT` (R45). -/
  oCnt : Nat
  /-- `FREQ[0..255]` (R23). -/
  freq : Vector Nat 256
  /-- `WEIGHT`, `LEFT`, `RIGHT` and `CONSUMED` (R24 to R26). -/
  arena : Arena
  /-- `CT_VALID`, `CT_LEN` and `CT_OFF` (R42). -/
  codeTable : Vector CodeEntry 256
  /-- `CODEBUF` (R43). -/
  codebuf : Memory
  /-- `STREAM` (R44). -/
  stream : Memory
  /-- `OUTBUF` (R45). -/
  outbuf : Memory
  /-- The host's side of the bus. -/
  port : HostPort
deriving DecidableEq, Repr

/-- Why a bus access is rejected (20_memory.md R63). -/
inductive BusError where
  /-- The address is not a multiple of 4. -/
  | misaligned
  /-- The size is not 4 bytes. -/
  | size
  /-- The address is reserved in R62. -/
  | reserved
  /-- A window word past the instance's capacity. -/
  | pastCapacity
  /-- A write to an address other than CMD. -/
  | notWritable
deriving DecidableEq, Repr

/-- The reasons a step stops. All are SAFE: the model stops where the hardware gives no defined effect. -/
inductive Fault where
  /-- A bus error (R63, R236): raised by a host access the map does not allow. Safe: "A model must treat a bus
  error as a fault of the host program". -/
  | busError (e : BusError)
  /-- The BUSY hazard (R267): raised by any host access but a STATUS word read while PENDING = 1. Safe: "A model
  faults on every such access". -/
  | busyHazard
  /-- A host access outside the block's 16 MiB window at BASE (R60, R73), which is no access to this block.
  Safe (log 9). -/
  | outsideWindow
  /-- Raised by GEN, DSYM, DRUN and DSENT where TREE_VALID = 1 and the arena holds no tree. R29 says no such
  state exists. Safe (log 12). -/
  | arenaNotATree
deriving DecidableEq, Repr

/-- The reasons a step has no meaning. -/
inductive Refusal where
  /-- Raised by an arm of exec whose command has no meaning yet; no arm does. Safe. -/
  | notModelled (mnemonic : String)
deriving DecidableEq, Repr

/-- The host's port before any access (DESIGN CHOICE, log 1, 5, 16). -/
def HostPort.initial : HostPort := { requests := [], lastRead := none, draws := 0 }

/-- The reset state of R21 and R260, for an instance with parameters `p`. -/
def State.resetWith (p : Config.Params) : State :=
  { params := p
    cmd := 0#32
    pending := false
    treeValid := false
    codesValid := false
    degen := false
    last := .ok
    result := 0#32
    sticky := 0#32
    nextFree := 256
    root := none
    codeFill := 0
    sCur := 0
    sWlen := 0
    oCnt := 0
    freq := Vector.replicate 256 0
    arena := Vector.replicate 511 Node.empty
    codeTable := Vector.replicate 256 CodeEntry.absent
    codebuf := []
    stream := []
    outbuf := []
    port := HostPort.initial }

/-- The machine after reset is complete (R260), with the default parameters (R9). -/
def State.reset : State := State.resetWith Config.Params.standard

end Sys2Proof.Machine
end

