-- ==== Sys2Proof/Machine/Flags.lean ====
section
/-! DEFINITION. The status flags, result codes and register words (spec/10_state.md R34 to R41,
spec/60_exceptions.md R230). -/

namespace Sys2Proof.Machine

/-- The number of a result code (R230). -/
def ResultCode.code : ResultCode → Nat
  | .ok => 0
  | .capacityExceeded => 1
  | .unknownSymbol => 2
  | .degenerateTree => 3
  | .overread => 4
  | .countOverflow => 5
  | .notReady => 6
  | .illegalCommand => 7

/-- The STICKY bit of a result code: bit `c` for code `c`, none for OK (R41, R232). -/
def ResultCode.stickyBit (c : ResultCode) : Word :=
  match c with
  | .ok => 0#32
  | .capacityExceeded | .unknownSymbol | .degenerateTree | .overread | .countOverflow | .notReady
  | .illegalCommand => 1#32 <<< c.code

/-- The events that clear TREE_VALID clear CODES_VALID and DEGEN too (R35 to R38). -/
def State.invalidate (s : State) : State :=
  { s with treeValid := false, codesValid := false, degen := false }

/-- The STATUS word (R34): LAST in 11:8, DEGEN, CODES_VALID, TREE_VALID, BUSY in 3:0, the rest 0. -/
def State.statusWord (s : State) : Word :=
  0#20 ++ BitVec.ofNat 4 s.last.code ++ 0#4 ++ BitVec.ofBool s.degen ++ BitVec.ofBool s.codesValid ++
    BitVec.ofBool s.treeValid ++ BitVec.ofBool s.pending

/-- A register field of `w` bits in the low bits of a word, the rest 0 (R62). -/
def fieldWord (w n : Nat) : Word := (BitVec.ofNat w n).setWidth 32

/-- An arena index as its 9-bit field; `none` is `0x1FF`, ABSENT and NONE (R25, R28). -/
def linkBits (i : Option (Fin 511)) : BitVec 9 :=
  match i with
  | none => 0x1FF#9
  | some j => BitVec.ofNat 9 j.val

/-- The CFG word: CNT_W in bits 4:0 (R31). -/
def State.cfgWord (s : State) : Word := fieldWord 5 s.params.cntW

/-- The NODE window word (R65). -/
def nodeWord (nd : Node) : Word :=
  BitVec.ofBool nd.consumed ++ 0#6 ++ linkBits nd.right ++ 0#7 ++ linkBits nd.left

/-- The CT window word (R65). -/
def codeWord (e : CodeEntry) : Word :=
  BitVec.ofBool e.valid ++ 0#7 ++ BitVec.ofNat 8 e.len ++ BitVec.ofNat 16 e.off

end Sys2Proof.Machine
end

