-- ==== Sys2Proof/Machine/Ops.lean ====
section
/-! DEFINITION. The named operations over the buffers, tables and registers, and the end of a command
(spec/00_scope.md R13, R15; spec/43_bitstream.md R170; spec/60_exceptions.md R232, R233). -/

namespace Sys2Proof.Machine

/-- A meaning's answer. -/
abbrev Outcome := Host.Outcome State Fault Refusal

/-! ## Byte buffers -/

/-- The canonical form from address `lo` on: addresses strictly rising and no byte equal to `unlistedByte`. -/
def Memory.wfFrom : Nat → Memory → Bool
  | _, [] => true
  | lo, (a, v) :: rest => decide (lo ≤ a) && decide (v ≠ unlistedByte) && Memory.wfFrom (a + 1) rest

/-- The canonical form of a buffer (log 13). -/
def Memory.wf (m : Memory) : Bool := Memory.wfFrom 0 m

/-- Every listed byte lies below `n`. -/
def Memory.below (n : Nat) (m : Memory) : Bool := m.all fun c => decide (c.1 < n)

/-- Byte `a` of a buffer. -/
def Memory.read : Memory → Nat → Byte
  | [], _ => unlistedByte
  | (x, v) :: rest, a => if a = x then v else Memory.read rest a

/-- Writes byte `a`, keeping the canonical form. -/
def Memory.write : Memory → Nat → Byte → Memory
  | [], a, v => if v = unlistedByte then [] else [(a, v)]
  | (x, u) :: rest, a, v =>
    if a < x then (if v = unlistedByte then (x, u) :: rest else (a, v) :: (x, u) :: rest)
    else if a = x then (if v = unlistedByte then rest else (a, v) :: rest)
    else (x, u) :: Memory.write rest a v

/-- Bit `i` of a byte set to `x`. -/
def setByteBit (v : Byte) (i : Nat) (x : Bool) : Byte :=
  if x then v ||| (1#8 <<< i) else v &&& ~~~(1#8 <<< i)

/-- Position `k` of a bit buffer: bit `7 - (k mod 8)` of byte `k / 8` (R13). -/
def Memory.readBit (m : Memory) (k : Nat) : Bool := (m.read (k / 8)).getLsbD (7 - k % 8)

/-- Writes position `k` of a bit buffer (R13). -/
def Memory.writeBit (m : Memory) (k : Nat) (x : Bool) : Memory :=
  m.write (k / 8) (setByteBit (m.read (k / 8)) (7 - k % 8) x)

/-- Writes bits at positions `k`, `k + 1`, ... in increasing order (R72). -/
def Memory.writeBits : Memory → Nat → List Bool → Memory
  | m, _, [] => m
  | m, k, x :: xs => Memory.writeBits (m.writeBit k x) (k + 1) xs

/-- The bits at positions `k`, ..., `k + n - 1`. -/
def Memory.readBits (m : Memory) (k n : Nat) : List Bool := (List.range n).map fun j => m.readBit (k + j)

/-- Byte `i` of a buffer of `cap` bits as the host sees it: 0 at every position `cap` or more (R68). -/
def Memory.cappedByte (m : Memory) (cap i : Nat) : Byte :=
  if 8 * i + 8 ≤ cap then m.read i
  else if cap ≤ 8 * i then 0#8
  else m.read i &&& (0xFF#8 <<< (8 * i + 8 - cap))

/-- Word `j` of a buffer of `cap` bits: its bytes packed big-endian (R66, R67, R68). -/
def Memory.packedWord (m : Memory) (cap j : Nat) : Word :=
  m.cappedByte cap (4 * j) ++ m.cappedByte cap (4 * j + 1) ++ m.cappedByte cap (4 * j + 2) ++
    m.cappedByte cap (4 * j + 3)

/-! ## Tables -/

/-- `FREQ[b]` (R23). -/
def State.freqAt (s : State) (b : Symbol) : Nat := s.freq[b.toNat]'b.isLt

/-- `FREQ[b] <- n`. -/
def State.setFreq (s : State) (b : Symbol) (n : Nat) : State :=
  { s with freq := s.freq.set b.toNat n b.isLt }

/-- The code-table entry of symbol `b` (R42). -/
def State.codeAt (s : State) (b : Symbol) : CodeEntry := s.codeTable[b.toNat]'b.isLt

/-- The symbol an arena slot represents: a leaf slot 0..255 is its own symbol (R17, R202). -/
def leafSymbol (i : Fin 511) : Option Symbol := if i.val < 256 then some (BitVec.ofNat 8 i.val) else none

/-- Arena index `n`, for `n` in 0..510. -/
def arenaIndex (n : Nat) : Fin 511 := Fin.ofNat 511 n

/-! ## The stream and the output buffer -/

/-- `StreamWrite(x)` (R170). -/
def State.streamWrite (s : State) (x : Bool) : State :=
  { s with
    stream := s.stream.writeBit s.sCur x
    sCur := s.sCur + 1
    sWlen := max s.sWlen (s.sCur + 1) }

/-- `StreamWrite` of each bit in order (R174, R190). -/
def State.streamWriteBits (s : State) (xs : List Bool) : State := xs.foldl State.streamWrite s

/-- The value of `StreamRead()` (R170). -/
def State.streamBit (s : State) : Bool := s.stream.readBit s.sCur

/-- The cursor's move of `StreamRead()` (R170). -/
def State.streamAdvance (s : State) : State := { s with sCur := s.sCur + 1 }

/-- `OUTBUF[O_CNT] <- b; O_CNT <- O_CNT + 1`, after a symbol that moved the cursor to `cur` (R203). -/
def State.emit (s : State) (b : Symbol) (cur : Nat) : State :=
  { s with
    outbuf := s.outbuf.write s.oCnt b
    oCnt := s.oCnt + 1
    sCur := cur }

/-! ## The end of a command -/

/-- Completion bookkeeping: LAST, RESULT and, for an error, the STICKY bit (R232). -/
def State.complete (s : State) (c : ResultCode) (r : Nat) : State :=
  { s with last := c, result := BitVec.ofNat 32 r, sticky := s.sticky ||| c.stickyBit }

/-- `finish(r)` (R15). -/
def finish (s : State) (r : Nat) : Outcome := .next (s.complete .ok r)

/-- `raise E(r)` (R15): the command completes with the error code; there is no trap (R233, R240). -/
def raise (s : State) (c : ResultCode) (r : Nat) : Outcome := .next (s.complete c r)

/-- An illegal command: ILLEGAL_COMMAND and nothing else (R97). -/
def illegalCommand (s : State) : Outcome := raise s .illegalCommand 0

end Sys2Proof.Machine
end

