-- ==== Sys2Proof/Machine/Operands.lean ====
section
/-! DEFINITION. What the operands of the four formats stand for (spec/30_encoding.md R92, R93). -/

namespace Sys2Proof.Machine

/-- The bits SWBITS appends: the low `k` bits of `v`, most significant first (R93, R174). -/
def swbitsBits (k : BitVec 5) (v : BitVec 16) : List Bool :=
  (List.range k.toNat).map fun j => v.getLsbD (k.toNat - 1 - j)

/-- The symbol count of format C (R93). -/
def symbolCount (n : BitVec 24) : Nat := n.toNat

/-- The bits of symbol `b`'s code, in order (R42, R192). -/
def State.codeBitsOf (s : State) (b : Symbol) : List Bool :=
  s.codebuf.readBits (s.codeAt b).off (s.codeAt b).len

end Sys2Proof.Machine
end

