-- ==== Sys2Proof/Machine/Bus.lean ====
section
/-! DEFINITION. The host bus: the address map, bus errors, the BUSY protocol and hazard, and the hardware reset
(spec/20_memory.md R60 to R71; spec/70_reset_and_hazards.md R261 to R267). -/

namespace Sys2Proof.Machine

/-! ## The address map (R62), by offset from BASE -/

/-- The offset of CMD. -/
def cmdOffset : Nat := 0x10

/-- The offset of STATUS. -/
def statusOffset : Nat := 0x14

/-- Word `k` of an array window. -/
def windowWord {α : Type} {n : Nat} (v : Vector α n) (f : α → Word) (k : Nat) : Except BusError Word :=
  match v[k]? with
  | some x => .ok (f x)
  | none => .error .reserved

/-- The registers below 0x38 (R62). -/
def State.registerWord (s : State) (a : Nat) : Except BusError Word :=
  match a with
  | 0x00 => .ok Config.idWord
  | 0x04 => .ok s.cfgWord
  | 0x08 => .ok (BitVec.ofNat 32 s.params.streamBits)
  | 0x0C => .ok (BitVec.ofNat 32 s.params.outBytes)
  | 0x10 => .ok s.cmd
  | 0x14 => .ok s.statusWord
  | 0x18 => .ok s.result
  | 0x1C => .ok s.sticky
  | 0x20 => .ok (fieldWord 10 s.nextFree)
  | 0x24 => .ok ((linkBits s.root).setWidth 32)
  | 0x28 => .ok (fieldWord 16 s.codeFill)
  | 0x2C => .ok (fieldWord 24 s.sCur)
  | 0x30 => .ok (fieldWord 24 s.sWlen)
  | 0x34 => .ok (fieldWord 21 s.oCnt)
  | _ => .error .reserved

/-- Word `j` of the STREAM window; words past the capacity are bus errors (R62, R66). -/
def State.streamWord (s : State) (j : Nat) : Except BusError Word :=
  if j < (s.params.streamBits + 31) / 32 then .ok (s.stream.packedWord s.params.streamBits j)
  else .error .pastCapacity

/-- Word `j` of the OUTBUF window; words past the capacity are bus errors (R62, R67). -/
def State.outWord (s : State) (j : Nat) : Except BusError Word :=
  if j < (s.params.outBytes + 3) / 4 then .ok (s.outbuf.packedWord (8 * s.params.outBytes) j)
  else .error .pastCapacity

/-- The word at offset `a`, a multiple of 4, of the window (R62). -/
def State.mapWord (s : State) (a : Nat) : Except BusError Word :=
  if a < 0x400 then s.registerWord a
  else if a < 0x800 then windowWord s.freq (BitVec.ofNat 32) ((a - 0x400) / 4)
  else if a < 0x1000 then windowWord s.arena (fun nd => BitVec.ofNat 32 nd.weight) ((a - 0x800) / 4)
  else if a < 0x1800 then windowWord s.arena nodeWord ((a - 0x1000) / 4)
  else if a < 0x1C00 then windowWord s.codeTable codeWord ((a - 0x1800) / 4)
  else if a < 0x2000 then .error .reserved
  else if a < 0x3010 then .ok (s.codebuf.packedWord Config.codeBits ((a - 0x2000) / 4))
  else if a < 0x100000 then .error .reserved
  else if a < 0x200000 then s.streamWord ((a - 0x100000) / 4)
  else if a < 0x300000 then s.outWord ((a - 0x200000) / 4)
  else .error .reserved

/-- `MemRead(BASE + a, n)` while no command is pending: the size and alignment checks, then the map (R61, R63). -/
def State.readAt (s : State) (a n : Nat) : Except BusError Word :=
  if n = 4 then (if a % 4 = 0 then s.mapWord a else .error .misaligned) else .error .size

/-! ## What an access does -/

/-- What the bus makes of an access (R63, R252, R266, R267). -/
inductive BusAction where
  /-- A read answered with a word. -/
  | answer (w : Word)
  /-- A STATUS read while a command may be pending (R266). -/
  | poll
  /-- A CMD write: command `w` is issued (R33). -/
  | issue (w : Word)
  /-- The hardware reset (R261). -/
  | reset
  /-- The access is rejected. -/
  | fault (f : Fault)
deriving DecidableEq, Repr

/-- The access is addressed to this block's window (R60, R73). -/
def State.inWindow (s : State) (addr : Nat) : Bool :=
  decide (s.params.base ≤ addr) && decide (addr - s.params.base < Config.windowBytes)

/-- A read: a poll or a hazard while PENDING = 1, else the map (R63, R266, R267; log 8). -/
def State.readAction (s : State) (addr n : Nat) : BusAction :=
  if s.inWindow addr then
    if s.pending then
      if addr - s.params.base = statusOffset ∧ n = 4 then .poll else .fault .busyHazard
    else
      match s.readAt (addr - s.params.base) n with
      | .ok w => .answer w
      | .error e => .fault (.busError e)
  else .fault .outsideWindow

/-- A write: a hazard while PENDING = 1; only CMD is writable (R63, R64, R267; log 8). -/
def State.writeAction (s : State) (addr n : Nat) (d : Word) : BusAction :=
  if s.inWindow addr then
    if s.pending then .fault .busyHazard
    else if n = 4 then
      if (addr - s.params.base) % 4 = 0 then
        if addr - s.params.base = cmdOffset then .issue d else .fault (.busError .notWritable)
      else .fault (.busError .misaligned)
    else .fault (.busError .size)
  else .fault .outsideWindow

/-- What the bus makes of each access. Reset wins over everything (R239). -/
def State.busAction (s : State) : HostAccess → BusAction
  | .read addr n => s.readAction addr n
  | .write addr n d => s.writeAction addr n d
  | .reset => .reset

/-! ## The effects -/

/-- The access at the head of the host's list is taken (log 1). -/
def State.take (s : State) (rest : List HostAccess) : State :=
  { s with port := { s.port with requests := rest } }

/-- A read returns `w` to the host and changes nothing else (R71). -/
def State.answer (s : State) (w : Word) : State := { s with port := { s.port with lastRead := some w } }

/-- A CMD write stores the word and sets PENDING (R33). -/
def State.issue (s : State) (w : Word) : State := { s with cmd := w, pending := true }

/-- A STATUS read while PENDING = 1 (R266): BUSY is drawn; with BUSY = 1 the other bits are any value; the read
that returns BUSY = 0 clears PENDING and shows the completed command. -/
def State.poll (s : State) : State :=
  if Config.busyDraw s.port.draws then
    { s with
      port := { s.port with
        lastRead := some (Config.busyStatus s.port.draws ||| 1#32), draws := s.port.draws + 1 } }
  else
    { s with
      pending := false
      port := { s.port with
        lastRead := some { s with pending := false }.statusWord, draws := s.port.draws + 1 } }

/-- The hardware reset: the state of R260, with the BUSY protocol running as if a command had just been written
(R262, R266; log 2). The host's port is no element of the block. -/
def State.hardwareReset (s : State) : State :=
  { State.resetWith s.params with pending := true, port := s.port }

end Sys2Proof.Machine
end

