-- ==== Sys2Proof/Machine/BitStream.lean ====
section
/-! DEFINITION. The bit-stream commands SRESET, SCLEAR, SWBITS and SRBIT (spec/43_bitstream.md). -/

namespace Sys2Proof.Machine

/-- `SRESET` (R172). -/
def execSreset (s : State) : Outcome := finish { s with sCur := 0 } 0

/-- `SCLEAR` (R173). -/
def execSclear (s : State) : Outcome := finish { s with sCur := 0, sWlen := 0 } 0

/-- `SWBITS k, v` (R174): all `k` bits or none (R175). -/
def execSwbits (k : BitVec 5) (v : BitVec 16) (s : State) : Outcome :=
  if s.sCur + k.toNat > s.params.streamBits then raise s .capacityExceeded 0
  else finish (s.streamWriteBits (swbitsBits k v)) k.toNat

/-- `SRBIT` (R176). -/
def execSrbit (s : State) : Outcome :=
  if s.sCur ≥ s.sWlen then raise s .overread 0
  else finish s.streamAdvance s.streamBit.toNat

end Sys2Proof.Machine
end

