-- ==== Sys2Proof/Machine/CodeTable.lean ====
section
/-! DEFINITION. The code-table generator command GEN (spec/42_code_table.md). -/

namespace Sys2Proof.Machine

/-- What GEN has written so far: the code table, CODEBUF and the running cursor (R150). -/
structure CodeGen where
  table : Vector CodeEntry 256
  buf : Memory
  cur : Nat
deriving DecidableEq, Repr

/-- How GEN's walk ends. -/
inductive GenOutcome where
  /-- The walk came back. -/
  | done (g : CodeGen)
  /-- A code did not fit in CODEBUF (R153, unreachable). -/
  | full (g : CodeGen)
  /-- The arena holds no tree (log 12). -/
  | notATree
deriving DecidableEq, Repr

/-- The entry and bits of a leaf's code (R150, R155). -/
def CodeGen.record (g : CodeGen) (b : Symbol) (path : List Bool) : CodeGen :=
  { table := g.table.set b.toNat { valid := true, len := path.length, off := g.cur } b.isLt
    buf := g.buf.writeBits g.cur path
    cur := g.cur + path.length }

/-- The visit of a leaf: only a leaf with nonzero weight gets a code (R150, R152, R153). -/
def visitLeaf (a : Arena) (i : Fin 511) (path : List Bool) (g : CodeGen) : GenOutcome :=
  match leafSymbol i with
  | none => .notATree
  | some b =>
    if a[i].weight = 0 then .done g
    else if g.cur + path.length > Config.codeBits then .full g
    else .done (g.record b path)

/-- `visit(node, path)`: the left subtree, then the right (R150, R154). The fuel bounds the recursion only: a
child's index is below its parent's (R29, log 15). -/
def visit (a : Arena) : Nat → Fin 511 → List Bool → CodeGen → GenOutcome
  | 0, _, _, _ => .notATree
  | fuel + 1, i, path, g =>
    match a[i].children with
    | none => visitLeaf a i path g
    | some (l, r) =>
      match visit a fuel l (path ++ [false]) g with
      | .done g' => visit a fuel r (path ++ [true]) g'
      | .full g' => .full g'
      | .notATree => .notATree

/-- The code table with every entry cleared (R151). -/
def clearedTable : Vector CodeEntry 256 := Vector.replicate 256 CodeEntry.absent

/-- GEN's walk from ROOT (R150). -/
def State.genWalk (s : State) : GenOutcome :=
  match s.root with
  | none => .notATree
  | some r => visit s.arena 511 r [] { table := clearedTable, buf := s.codebuf, cur := 0 }

/-- `GEN` (R150). -/
def execGen (s : State) : Outcome :=
  if s.treeValid then
    match s.genWalk with
    | .done g =>
      finish { s with codeTable := g.table, codebuf := g.buf, codeFill := g.cur, codesValid := true } g.cur
    | .full g => raise { s with codeTable := g.table, codebuf := g.buf, codesValid := false } .capacityExceeded 0
    | .notATree => .fault .arenaNotATree
  else raise s .notReady 0

end Sys2Proof.Machine
end

