-- ==== Sys2Proof/Machine/Control.lean ====
section
/-! DEFINITION. The control commands NOP, CLRERR and SRST (spec/46_control.md). -/

namespace Sys2Proof.Machine

/-- `NOP` (R220). -/
def execNop (s : State) : Outcome := finish s 0

/-- `CLRERR` (R222). -/
def execClrerr (s : State) : Outcome := finish { s with sticky := 0#32 } 0

/-- `SRST` (R224): every element at its reset value, CMD the SRST word, no finish. PENDING stays for the BUSY
protocol (R225, log 3), and the host's port is no element of the block. -/
def execSrst (s : State) : Outcome :=
  .next { State.resetWith s.params with cmd := encode .srst, pending := s.pending, port := s.port }

end Sys2Proof.Machine
end

