-- ==== Sys2Proof/Machine/Decoder.lean ====
section
/-! DEFINITION. The decoder commands DSYM, DRUN, DSENT and OCLEAR (spec/45_decoder.md). -/

namespace Sys2Proof.Machine

/-- How `DecodeOne` ends (R200). -/
inductive Decoded where
  /-- A whole symbol, with the cursor just past its code. -/
  | symbol (b : Symbol) (cur : Nat)
  /-- The stream ends inside or before the code; the cursor is rolled back (R208). -/
  | overread
  /-- The arena holds no tree (log 12). -/
  | notATree
deriving DecidableEq, Repr

/-- The end of the walk at a leaf: the emitted symbol is the leaf's index (R202). -/
def walkLeaf (i : Fin 511) (cur : Nat) : Decoded :=
  match leafSymbol i with
  | none => .notATree
  | some b => .symbol b cur

/-- The walk of `DecodeOne` from node `i`, with the cursor at `cur` and `avail` written bits left, that is,
`avail = S_WLEN - S_CUR`: one bit per internal node, 1 to RIGHT and 0 to LEFT (R200). -/
def walk (a : Arena) (m : Memory) : Nat → Fin 511 → Nat → Decoded
  | 0, i, cur =>
    match a[i].children with
    | none => walkLeaf i cur
    | some _ => .overread
  | avail + 1, i, cur =>
    match a[i].children with
    | none => walkLeaf i cur
    | some (l, r) => walk a m avail (if m.readBit cur then r else l) (cur + 1)

/-- `DecodeOne()` (R200). ROOT is an internal node while TREE_VALID = 1 (R28). -/
def State.decodeOne (s : State) : Decoded :=
  match s.root with
  | none => .notATree
  | some i =>
    if s.arena[i].children.isNone then .notATree
    else walk s.arena s.stream (s.sWlen - s.sCur) i s.sCur

/-- `DSYM` (R201). -/
def execDsym (s : State) : Outcome :=
  if s.treeValid then
    match s.decodeOne with
    | .symbol b cur => finish { s with sCur := cur } b.toNat
    | .overread => raise s .overread 0
    | .notATree => .fault .arenaNotATree
  else raise s .notReady 0

/-- DRUN's loop, with `n` symbols still to decode and `cnt` decoded (R203). -/
def drunLoop : Nat → Nat → State → Outcome
  | 0, cnt, s => finish s cnt
  | n + 1, cnt, s =>
    if s.oCnt = s.params.outBytes then raise s .capacityExceeded cnt
    else
      match s.decodeOne with
      | .symbol b cur => drunLoop n (cnt + 1) (s.emit b cur)
      | .overread => raise s .overread cnt
      | .notATree => .fault .arenaNotATree

/-- `DRUN n` (R203). -/
def execDrun (n : BitVec 24) (s : State) : Outcome :=
  if s.treeValid then drunLoop (symbolCount n) 0 s else raise s .notReady 0

/-- DSENT's loop, with `cnt` symbols decoded (R205). The fuel bounds the recursion only: each symbol takes at
least one of the bits left (R209, log 15). -/
def dsentLoop : Nat → Nat → State → Outcome
  | 0, _, _ => .fault .arenaNotATree
  | fuel + 1, cnt, s =>
    if s.oCnt = s.params.outBytes then raise s .capacityExceeded cnt
    else
      match s.decodeOne with
      | .symbol b cur =>
        if b = Config.sentinel then finish (s.emit b cur) (cnt + 1) else dsentLoop fuel (cnt + 1) (s.emit b cur)
      | .overread => raise s .overread cnt
      | .notATree => .fault .arenaNotATree

/-- `DSENT` (R205). -/
def execDsent (s : State) : Outcome :=
  if s.treeValid then dsentLoop (s.sWlen - s.sCur + 1) 0 s else raise s .notReady 0

/-- `OCLEAR` (R207). -/
def execOclear (s : State) : Outcome := finish { s with oCnt := 0 } 0

end Sys2Proof.Machine
end

