-- ==== Sys2Proof/Machine/Encoder.lean ====
section
/-! DEFINITION. The encoder command ENC (spec/44_encoder.md). -/

namespace Sys2Proof.Machine

/-- `ENC b` (R190), its checks in the order of R238. -/
def execEnc (b : BitVec 8) (s : State) : Outcome :=
  if s.codesValid then
    if (s.codeAt b).valid then
      if s.sCur + (s.codeAt b).len > s.params.streamBits then raise s .capacityExceeded 0
      else finish (s.streamWriteBits (s.codeBitsOf b)) (s.codeAt b).len
    else raise s .unknownSymbol 0
  else raise s .notReady 0

end Sys2Proof.Machine
end

