-- ==== Sys2Proof/Machine/Frequency.lean ====
section
/-! DEFINITION. The frequency table commands FRESET and FACC (spec/40_frequency.md). -/

namespace Sys2Proof.Machine

/-- `FRESET` (R120). -/
def execFreset (s : State) : Outcome :=
  finish { s with freq := Vector.replicate 256 0 }.invalidate 0

/-- `FACC b` (R122). -/
def execFacc (b : BitVec 8) (s : State) : Outcome :=
  if s.freqAt b = 2 ^ s.params.cntW - 1 then raise s .countOverflow 0
  else finish (s.setFreq b (s.freqAt b + 1)).invalidate (s.freqAt b + 1)

end Sys2Proof.Machine
end

