-- ==== Sys2Proof/Machine/TreeBuilder.lean ====
section
/-! DEFINITION. The tree builder command BUILD (spec/41_tree_builder.md). -/

namespace Sys2Proof.Machine

/-- A leaf slot loaded with its symbol's count (R131). -/
def leafNode (w : Nat) : Node := { weight := w, children := none, consumed := false }

/-- The slots of the fresh arena: 256 leaves, then 255 empty internal slots (R131). -/
def freshSlots (freq : Vector Nat 256) : List Node :=
  freq.toList.map leafNode ++ List.replicate 255 Node.empty

theorem freshSlots_size (freq : Vector Nat 256) : (freshSlots freq).toArray.size = 511 := by
  rw [List.size_toArray, freshSlots, List.length_append, List.length_map, List.length_replicate,
    Vector.length_toList]

/-- The arena BUILD starts from: a copy of FREQ, nothing consumed (R131). -/
def freshArena (freq : Vector Nat 256) : Arena := ⟨(freshSlots freq).toArray, freshSlots_size freq⟩

/-- An active slot, of those below NEXT_FREE: not consumed, weight nonzero (R133). -/
def Node.active (nd : Node) : Bool := !nd.consumed && decide (nd.weight ≠ 0)

/-- One step of scanmin's loop at index `i`: the strict `<` keeps the first minimum found (R133). -/
def scanStep (best : Option (Fin 511 × Nat)) (i : Nat) (nd : Node) : Option (Fin 511 × Nat) :=
  if nd.active then
    match best with
    | none => some (arenaIndex i, nd.weight)
    | some (j, w) => if nd.weight < w then some (arenaIndex i, nd.weight) else some (j, w)
  else best

/-- scanmin's loop over the slots from index `i` on (R133). -/
def scanFrom : List Node → Nat → Option (Fin 511 × Nat) → Option (Fin 511 × Nat)
  | [], _, best => best
  | nd :: rest, i, best => scanFrom rest (i + 1) (scanStep best i nd)

/-- `scanmin()`: the lightest active slot below `n` = NEXT_FREE, the lowest index on a tie (R133). -/
def scanMin (a : Arena) (n : Nat) : Option (Fin 511) := (scanFrom (a.toList.take n) 0 none).map Prod.fst

/-- `CONSUMED[i] <- 1` (R132). -/
def Arena.consume (a : Arena) (i : Fin 511) : Arena :=
  a.set i.val { a[i] with consumed := true } i.isLt

/-- The node that merges `i` and `j` (R134). -/
def Arena.merged (a : Arena) (i j : Fin 511) : Node :=
  { weight := a[i].weight + a[j].weight, children := some (i, j), consumed := false }

/-- The merge loop of R130 and R134. The fuel bounds the recursion only: 256 active leaves take 255 merges and
one last scan (R134, log 15). -/
def mergeLoop : Nat → Arena → Nat → Arena × Nat
  | 0, a, n => (a, n)
  | fuel + 1, a, n =>
    match scanMin a n with
    | none => (a, n)
    | some i =>
      match scanMin (a.consume i) n with
      | none => (a.consume i, n)
      | some j =>
        mergeLoop fuel
          (((a.consume i).consume j).setIfInBounds n (((a.consume i).consume j).merged i j)) (n + 1)

/-- The symbols with a nonzero count, in order, as leaf indices (R130). -/
def nonzeroLeaves (freq : Vector Nat 256) : List (Fin 511) :=
  (freq.toList.zipIdx.filter fun p => decide (p.1 ≠ 0)).map fun p => arenaIndex p.2

/-- The pad leaf of a single symbol: the lowest other symbol (R136). -/
def padLeaf (i : Fin 511) : Fin 511 := if i.val = 0 then 1 else 0

/-- The arena of the single-symbol tree: node 256 over the symbol and the pad leaf, all three consumed (R136). -/
def singleArena (freq : Vector Nat 256) (i : Fin 511) : Arena :=
  (((freshArena freq).consume i).consume (padLeaf i)).set 256
    { weight := (freshArena freq)[i].weight, children := some (i, padLeaf i), consumed := true }

/-- BUILD's initialisation (R130, R131). -/
def State.initBuild (s : State) : State :=
  { s with arena := freshArena s.freq, nextFree := 256, root := none }.invalidate

/-- The single-symbol case of BUILD, before it finishes (R136). -/
def State.buildSingle (s : State) (i : Fin 511) : State :=
  { s.initBuild with
    arena := singleArena s.freq i
    nextFree := 257
    root := some 256
    degen := true
    treeValid := true }

/-- The case of two or more symbols of BUILD, before it finishes (R134, R137). -/
def State.buildMerged (s : State) : State :=
  { s.initBuild with
    arena := (mergeLoop 256 (freshArena s.freq) 256).1
    nextFree := (mergeLoop 256 (freshArena s.freq) 256).2
    root := some (arenaIndex ((mergeLoop 256 (freshArena s.freq) 256).2 - 1))
    treeValid := true }

/-- `BUILD` (R130). -/
def execBuild (s : State) : Outcome :=
  match nonzeroLeaves s.freq with
  | [] => raise s.initBuild .degenerateTree 0
  | [i] => finish (s.buildSingle i) 256
  | _ :: _ :: _ => finish s.buildMerged ((mergeLoop 256 (freshArena s.freq) 256).2 - 1)

end Sys2Proof.Machine
end

