-- ==== Sys2Proof/Machine/Dispatch.lean ====
section
/-! DEFINITION. The meaning of each command, one arm per row of spec/opcode_table.json. -/

namespace Sys2Proof.Machine

/-- The atomic effect of a command (00_scope.md R16). -/
def exec (i : Instr) (s : State) : Host.Outcome State Fault Refusal :=
  match i with
  | .nop => Sys2Proof.Machine.execNop s
  | .freset => Sys2Proof.Machine.execFreset s
  | .facc b => Sys2Proof.Machine.execFacc b s
  | .build => Sys2Proof.Machine.execBuild s
  | .gen => Sys2Proof.Machine.execGen s
  | .sreset => Sys2Proof.Machine.execSreset s
  | .sclear => Sys2Proof.Machine.execSclear s
  | .swbits k v => Sys2Proof.Machine.execSwbits k v s
  | .srbit => Sys2Proof.Machine.execSrbit s
  | .enc b => Sys2Proof.Machine.execEnc b s
  | .dsym => Sys2Proof.Machine.execDsym s
  | .drun n => Sys2Proof.Machine.execDrun n s
  | .dsent => Sys2Proof.Machine.execDsent s
  | .oclear => Sys2Proof.Machine.execOclear s
  | .clrerr => Sys2Proof.Machine.execClrerr s
  | .srst => Sys2Proof.Machine.execSrst s

end Sys2Proof.Machine
end

