-- ==== Sys2Proof/Machine/Step.lean ====
section
/-! DEFINITION. One step: the host's next access, in full (spec/60_exceptions.md R252). With no access left the
block does nothing (R247, R252). -/

namespace Sys2Proof.Machine

/-- The effect of an issued command word: the command's, or ILLEGAL_COMMAND (R97, R99). -/
def runCommand (w : Word) (s : State) : Host.Outcome State Fault Refusal :=
  match decode w with
  | .ok i => exec i s
  | .error _ => illegalCommand s

/-- The effect of a bus action. -/
def perform (s : State) : BusAction → Host.Outcome State Fault Refusal
  | .answer w => .next (s.answer w)
  | .poll => .next s.poll
  | .issue w => runCommand w (s.issue w)
  | .reset => .next s.hardwareReset
  | .fault f => .fault f

/-- One step: the oldest access of the host, if there is one (log 1). -/
def step (s : State) : Host.Outcome State Fault Refusal :=
  match s.port.requests with
  | [] => .next s
  | a :: rest => perform (s.take rest) (s.busAction a)

/-- `s` with the command word `w` placed as the host's next access: a CMD write, with no command pending (log 1). -/
def State.withFetchWord (s : State) (nbits w : Nat) : State :=
  { s with
    pending := false
    port := { s.port with
      requests :=
        .write (s.params.base + cmdOffset) 4 (BitVec.ofNat 32 (w % 2 ^ nbits)) :: s.port.requests } }

end Sys2Proof.Machine
end

