-- ==== Sys2Proof/Machine/Run.lean ====
section
/-! DEFINITION. A run of a host program: the host's accesses one after another, when the run has ended, and its
outcome (spec/60_exceptions.md R253; log 22). -/

namespace Sys2Proof.Machine

/-- The outcome of a run (R253). -/
structure RunOutcome where
  /-- The state when no more access is taken. -/
  block : State
  /-- The faults recorded, oldest first. -/
  faults : List Fault
deriving DecidableEq, Repr

/-- The host program's last access has completed, and BUSY has been read as 0 after its last command (R253). The
read that returns BUSY = 0 is what clears PENDING (R266). -/
def RunOutcome.ended (o : RunOutcome) : Bool := o.block.port.requests.isEmpty && !o.block.pending

/-- The block's state as the host windows show it: the word at offset `a` of the map (R62, R253). -/
def RunOutcome.window (o : RunOutcome) (a : Nat) : Except BusError Word := o.block.readAt a 4

/-- `f` was recorded before the faults of `o`. -/
def RunOutcome.record (f : Fault) (o : RunOutcome) : RunOutcome := { o with faults := f :: o.faults }

/-- The access at the head of the host's list was rejected: it changed no state of the block, and a read's data is
not defined (R63). -/
def State.rejected (s : State) : State :=
  { s with port := { s.port with requests := s.port.requests.tail, lastRead := none } }

/-- At most `n` accesses. A bus error is recorded, and the run goes on without the rejected access, whose state
effect is none (R63, R236); any other fault stops the run before its access (log 22). -/
def runSteps : Nat → State → RunOutcome
  | 0, s => { block := s, faults := [] }
  | n + 1, s =>
    match step s with
    | .next t => runSteps n t
    | .fault (.busError e) => (runSteps n s.rejected).record (.busError e)
    | .fault f => { block := s, faults := [f] }
    | .refused _ => { block := s, faults := [] }

/-- The run of all the accesses the host makes (R253). -/
def State.run (s : State) : RunOutcome := runSteps s.port.requests.length s

end Sys2Proof.Machine
end

