-- ==== Sys2Proof/Safety.lean ====
section
/-! DEFINITION. The terms claims are stated in: paths of the tree, what the stream holds, runs of commands, and
the invariants of the machine (spec/10_state.md R29, R38, R44; spec/42_code_table.md R157). -/

namespace Sys2Proof.Machine

/-! ## Paths of the tree -/

/-- The leaf slot of symbol `b` (R17). -/
def symbolLeaf (b : Symbol) : Fin 511 := ⟨b.toNat, by have := b.isLt; omega⟩

/-- The node reached from `i` by branch bits, 0 to LEFT and 1 to RIGHT (R157, R200). -/
def Arena.follow (a : Arena) : Fin 511 → List Bool → Option (Fin 511)
  | i, [] => some i
  | i, x :: xs =>
    match a[i].children with
    | none => none
    | some (l, r) => Arena.follow a (if x then r else l) xs

/-- The node reached from ROOT by branch bits. -/
def State.followRoot (s : State) (xs : List Bool) : Option (Fin 511) :=
  s.root.bind fun r => s.arena.follow r xs

/-- The branch bits `xs` lead from ROOT to the leaf of symbol `b`. -/
abbrev State.leadsTo (s : State) (xs : List Bool) (b : Symbol) : Prop :=
  s.followRoot xs = some (symbolLeaf b) ∧ s.arena[symbolLeaf b].children = none

/-- The branch bits `xs` part from `ys` to the left, so a left-first walk comes to the leaf of `xs` first (R154). -/
def leftOf : List Bool → List Bool → Bool
  | x :: xs, y :: ys => if x = y then leftOf xs ys else !x
  | [], _ => false
  | _ :: _, [] => false

/-! ## What the stream holds -/

/-- The written stream holds the branch bits of `bs`, one symbol after another, from position `cur` to `e`. -/
def State.holdsSymbols (s : State) : Nat → List Symbol → Nat → Prop
  | cur, [], e => cur = e
  | cur, b :: bs, e =>
    ∃ xs, xs ≠ [] ∧ s.leadsTo xs b ∧ s.stream.readBits cur xs.length = xs ∧ cur + xs.length ≤ s.sWlen ∧
      s.holdsSymbols (cur + xs.length) bs e

/-- The written stream ends inside or before the code that starts at `cur`: all the bits left lead from ROOT to
an internal node (R200, R208). -/
def State.endsInsideCode (s : State) (cur : Nat) : Bool :=
  match s.followRoot (s.stream.readBits cur (s.sWlen - cur)) with
  | none => false
  | some i => s.arena[i].children.isSome

/-! ## Runs of commands -/

/-- Commands one after another, each of which must answer a next state with LAST = OK. -/
def runOk : List Instr → State → Option State
  | [], s => some s
  | i :: is, s =>
    match exec i s with
    | .next t => if t.last = .ok then runOk is t else none
    | .fault _ => none
    | .refused _ => none

/-- Commands one after another, whatever their result codes but COUNT_OVERFLOW. -/
def runNoOverflow : List Instr → State → Option State
  | [], s => some s
  | i :: is, s =>
    match exec i s with
    | .next t => if t.last = .countOverflow then none else runNoOverflow is t
    | .fault _ => none
    | .refused _ => none

/-! ## Host reads -/

/-- With no command pending, the host's word read at `BASE + o` returns `w` and changes nothing else (R70, R71). -/
def State.Reads (s : State) (o : Nat) (w : Word) : Prop :=
  ∀ rest : List HostAccess,
    step { s with
        pending := false
        port := { s.port with requests := .read (s.params.base + o) 4 :: rest } } =
      .next { s with pending := false, port := { s.port with requests := rest, lastRead := some w } }

/-- The fields of a STATUS word with BUSY = 0 (R34). -/
structure State.StatusShows (s : State) (w : Word) : Prop where
  busy : w.getLsbD 0 = false
  treeValid : w.getLsbD 1 = s.treeValid
  codesValid : w.getLsbD 2 = s.codesValid
  degen : w.getLsbD 3 = s.degen
  reservedLow : w.extractLsb' 4 4 = 0#4
  last : w.extractLsb' 8 4 = BitVec.ofNat 4 s.last.code
  reservedHigh : w.extractLsb' 12 20 = 0#20

/-- The offsets R62 reserves, and those past the capacities `streamBits` and `outBytes`. -/
abbrev reservedOffset (streamBits outBytes o : Nat) : Prop :=
  (0x38 ≤ o ∧ o < 0x400) ∨ o = 0xFFC ∨ o = 0x17FC ∨ (0x1C00 ≤ o ∧ o < 0x2000) ∨
    (0x3010 ≤ o ∧ o < 0x100000) ∨ (0x100000 + 4 * ((streamBits + 31) / 32) ≤ o ∧ o < 0x200000) ∨
    (0x200000 + 4 * ((outBytes + 3) / 4) ≤ o ∧ o < 0x300000) ∨ (0x300000 ≤ o ∧ o < 0x1000000)

/-- The result codes a command may end with (R230, R238). -/
def mayEndWith : Instr → ResultCode → Bool
  | _, .ok => true
  | .facc _, c => decide (c = .countOverflow)
  | .build, c => decide (c = .degenerateTree)
  | .gen, c => decide (c = .notReady ∨ c = .capacityExceeded)
  | .swbits _ _, c => decide (c = .capacityExceeded)
  | .srbit, c => decide (c = .overread)
  | .enc _, c => decide (c = .notReady ∨ c = .unknownSymbol ∨ c = .capacityExceeded)
  | .dsym, c => decide (c = .notReady ∨ c = .overread)
  | .drun _, c | .dsent, c => decide (c = .notReady ∨ c = .capacityExceeded ∨ c = .overread)
  | .nop, _ | .freset, _ | .sreset, _ | .sclear, _ | .oclear, _ | .clrerr, _ | .srst, _ => false

/-! ## Invariants -/

/-- The sum of all counts (R29 item 5, R142). -/
def State.totalFreq (s : State) : Nat := s.freq.toList.sum

/-- The number of distinct symbols counted (R138). -/
def State.distinctSymbols (s : State) : Nat := (s.freq.toList.filter fun n => decide (n ≠ 0)).length

/-- `c` is a child of node `i`. -/
def Arena.childOf (a : Arena) (c i : Fin 511) : Prop := a[i].left = some c ∨ a[i].right = some c

/-- Node `j` was active when BUILD created node `k`: it existed, had a weight, and no node below `k` had taken it
(R132, R133). -/
def Arena.activeBefore (a : Arena) (k j : Fin 511) : Prop :=
  j < k ∧ a[j].weight ≠ 0 ∧ ∀ i : Fin 511, i < k → ¬a.childOf j i

/-- Node `i` comes before `j` in scanmin's order, or is `j`: the lighter, and on equal weight the lower index (R133). -/
def Arena.notAfter (a : Arena) (i j : Fin 511) : Prop :=
  a[i].weight < a[j].weight ∨ (a[i].weight = a[j].weight ∧ i ≤ j)

/-- Node `k` has the first active node in scanmin's order as its left child and the second as its right (R134). -/
def Arena.takesLightest (a : Arena) (k : Fin 511) : Prop :=
  ∃ l r, a[k].children = some (l, r) ∧ r ≠ l ∧ a.activeBefore k l ∧ a.activeBefore k r ∧
    (∀ j, a.activeBefore k j → a.notAfter l j) ∧ ∀ j, a.activeBefore k j → j ≠ l → a.notAfter r j

/-- R38. -/
structure State.FlagsOk (s : State) : Prop where
  codes : s.codesValid = true → s.treeValid = true
  degen : s.degen = true → s.treeValid = true

/-- R44 and R45: cursors and fill counts inside their buffers. -/
structure State.CursorsOk (s : State) : Prop where
  cursor : s.sCur ≤ s.sWlen
  written : s.sWlen ≤ s.params.streamBits
  output : s.oCnt ≤ s.params.outBytes

/-- The buffers are in canonical form and hold nothing past their capacity (log 13). -/
structure State.BuffersOk (s : State) : Prop where
  codebuf : s.codebuf.wf = true
  stream : s.stream.wf = true
  outbuf : s.outbuf.wf = true
  codebufSize : s.codebuf.below (Config.codeBits / 8) = true
  streamSize : s.stream.below ((s.params.streamBits + 7) / 8) = true
  outbufSize : s.outbuf.below s.params.outBytes = true

/-- Counters and weights fit in their widths (R10, R23, R24). -/
structure State.CountersOk (s : State) : Prop where
  freq : ∀ b, s.freqAt b < 2 ^ s.params.cntW
  weight : ∀ i : Fin 511, s.arena[i].weight < 2 ^ s.params.wtW

/-- Registers hold the values R21, R27, R28, R41, R42 and R43 allow. -/
structure State.RegistersOk (s : State) : Prop where
  nextFreeLow : 256 ≤ s.nextFree
  nextFreeHigh : s.nextFree ≤ 511
  root : ∀ r, s.root = some r → 256 ≤ r.val
  codeFill : s.codeFill ≤ Config.codeBits
  sticky : s.sticky &&& 0xFFFFFF01#32 = 0#32
  codeLen : ∀ b, (s.codeAt b).len ≤ 255
  codeOff : ∀ b, (s.codeAt b).off ≤ 32895
  absent : ∀ b, (s.codeAt b).valid = false → s.codeAt b = CodeEntry.absent

/-- The tree of a successful BUILD (R24, R28, R29, R137). -/
structure State.TreeOk (s : State) : Prop where
  /-- ROOT is the node created last (R28, R137). -/
  root : ∃ r : Fin 511, s.root = some r ∧ 256 ≤ r.val ∧ r.val + 1 = s.nextFree
  /-- R29 item 1. -/
  internal : ∀ i : Fin 511, s.arena[i].children.isSome = true ↔ 256 ≤ i.val ∧ i.val < s.nextFree
  /-- R29 item 2. -/
  merged : ∀ i l r : Fin 511, s.arena[i].children = some (l, r) →
    l < i ∧ r < i ∧ l ≠ r ∧ s.arena[i].weight = s.arena[l].weight + s.arena[r].weight
  /-- R29 item 3. -/
  oneParent : ∀ c i j : Fin 511, s.arena.childOf c i → s.arena.childOf c j → i = j
  /-- R24. -/
  leaves : ∀ b, s.arena[symbolLeaf b].weight = s.freqAt b
  /-- R29 item 5. -/
  total : ∀ r, s.root = some r → s.arena[r].weight = s.totalFreq
  /-- R29 item 6. -/
  depth : ∀ xs b, s.leadsTo xs b → 1 ≤ xs.length ∧ xs.length ≤ 255
  /-- Every counted symbol is a leaf of the tree (R133, R151). -/
  reach : ∀ b, s.freqAt b ≠ 0 → ∃ xs, s.leadsTo xs b

/-- The code table of a successful GEN (R151, R157). -/
structure State.CodesOk (s : State) : Prop where
  valid : ∀ b, (s.codeAt b).valid = true ↔ s.freqAt b ≠ 0
  inside : ∀ b, (s.codeAt b).valid = true → (s.codeAt b).off + (s.codeAt b).len ≤ s.codeFill
  path : ∀ b, (s.codeAt b).valid = true → s.leadsTo (s.codeBitsOf b) b

/-- The invariant that does not speak of the tree. -/
structure State.BasicInv (s : State) : Prop where
  params : s.params.Legal
  flags : s.FlagsOk
  cursors : s.CursorsOk
  buffers : s.BuffersOk
  counters : s.CountersOk
  registers : s.RegistersOk

/-- The machine's invariant: the basic one, and the tree and the codes while their flags are set. -/
structure State.Inv (s : State) : Prop where
  basic : s.BasicInv
  tree : s.treeValid = true → s.TreeOk
  codes : s.codesValid = true → s.CodesOk

end Sys2Proof.Machine
end

