-- ==== Sys2Proof/Certificates/Slice0/Obligations.lean ====
section
/-! DEFINITION. The statements for the provers, from the numbered rules of spec/. A statement with a result is
written as the whole next state, so it states the command's frame too. -/

open Sys2Proof Sys2Proof.Machine

/-! ## Encoding -/

/-- R92, R94, R99: a legal command's word decodes to it, with every operand at every value. -/
def Obligations.DecodeEncode : Prop := ∀ i : Instr, i.wellFormed = true → decode (encode i) = .ok i

/-- R94, R99: only a legal command's own word decodes to it, so no bit of a word is ignored. -/
def Obligations.DecodedWordIsEncoding : Prop :=
  ∀ (w : Word) (i : Instr), decode w = .ok i → i.wellFormed = true ∧ encode i = w

/-- R94, R95: a word selects a row exactly when `(w AND mask) = match`, and for SWBITS the operand check holds. -/
def Obligations.WordSelectsRow : Prop :=
  ∀ (w : Word) (j : Instr),
    (∃ i, decode w = .ok i ∧ opMatch i = opMatch j) ↔
      w &&& opMask j = opMatch j ∧
        (opMatch j = 0x32000000#32 →
          1 ≤ (w.extractLsb' 16 5).toNat ∧ (w.extractLsb' 16 5).toNat ≤ 16 ∧
            (w.extractLsb' 0 16).toNat < 2 ^ (w.extractLsb' 16 5).toNat)

/-- Words of spec/95_test_vectors.md and 30_encoding.md, of each format and of each illegal kind. -/
def Obligations.SampleWordsDecode : Prop :=
  decode 0x02000061#32 = .ok (.facc 0x61#8) ∧ decode 0x10000000#32 = .ok .build ∧
    decode 0x32030006#32 = .ok (.swbits 3#5 6#16) ∧ decode 0x51000004#32 = .ok (.drun 4#24) ∧
    decode 0x4000007A#32 = .ok (.enc 0x7A#8) ∧ decode 0x52000000#32 = .ok .dsent ∧
    decode 0x7F000001#32 = .error .operandBitSet ∧ decode 0x32110000#32 = .error .badBitCount ∧
    decode 0x32010002#32 = .error .valueTooWide ∧ decode 0x80000000#32 = .error .unlistedOpcode

/-! ## The step and the host bus -/

/-- R16, R33, R75: a CMD write of a legal command's word, with no command pending, stores the word, sets PENDING
and runs the command whole. That the effect lands at the write is the model's choice (log 4). -/
def Obligations.StepRunsDecodedCommand : Prop :=
  ∀ (s : State) (w : Word) (i : Instr) (rest : List HostAccess),
    s.pending = false → decode w = .ok i →
    s.port.requests = .write (s.params.base + 0x10) 4 w :: rest →
    step s = exec i { s with cmd := w, pending := true, port := { s.port with requests := rest } }

/-- R97: a CMD write of any other word ends with ILLEGAL_COMMAND and changes nothing else. That the effect lands at
the write is the model's choice (log 4). -/
def Obligations.IllegalWordOnlyRaises : Prop :=
  ∀ (s : State) (w : Word) (e : IllegalWord) (rest : List HostAccess),
    s.pending = false → decode w = .error e →
    s.port.requests = .write (s.params.base + 0x10) 4 w :: rest →
    step s = .next { s with
      cmd := w
      pending := true
      last := .illegalCommand
      result := 0#32
      sticky := s.sticky ||| 0x80#32
      port := { s.port with requests := rest } }

/-- R252: the block never changes state without an access of the host. -/
def Obligations.NoAccessNoChange : Prop := ∀ s : State, s.port.requests = [] → step s = .next s

/-- R267: while PENDING = 1 every access of the host to the block but a STATUS word read faults. That the fault is
the hazard's where the map would reject the access too is the model's choice (log 8). -/
def Obligations.BusyHazardFaults : Prop :=
  (∀ (s : State) (a n : Nat) (rest : List HostAccess),
      s.pending = true → s.params.base ≤ a → a < s.params.base + 0x1000000 →
      ¬(a = s.params.base + 0x14 ∧ n = 4) → s.port.requests = .read a n :: rest →
      step s = .fault .busyHazard) ∧
    ∀ (s : State) (a n : Nat) (d : Word) (rest : List HostAccess),
      s.pending = true → s.params.base ≤ a → a < s.params.base + 0x1000000 →
      s.port.requests = .write a n d :: rest → step s = .fault .busyHazard

/-- R62, R63: the accesses the host bus rejects, with no command pending; each is a fault. -/
def Obligations.BusErrorsFault : Prop :=
  (∀ (s : State) (a n : Nat) (rest : List HostAccess),
      s.pending = false → s.params.base ≤ a → a < s.params.base + 0x1000000 →
      (n ≠ 4 ∨ (a - s.params.base) % 4 ≠ 0 ∨
        reservedOffset s.params.streamBits s.params.outBytes (a - s.params.base)) →
      s.port.requests = .read a n :: rest → ∃ e, step s = .fault (.busError e)) ∧
    ∀ (s : State) (a n : Nat) (d : Word) (rest : List HostAccess),
      s.pending = false → s.params.base ≤ a → a < s.params.base + 0x1000000 →
      (n ≠ 4 ∨ (a - s.params.base) % 4 ≠ 0 ∨ a - s.params.base ≠ 0x10) →
      s.port.requests = .write a n d :: rest → ∃ e, step s = .fault (.busError e)

/-- R71: a read answered with no command pending changes nothing of the block, and the same read again returns the
same word. The word the host got stands in the model's own field `lastRead` (log 16). -/
def Obligations.ReadsHaveNoSideEffect : Prop :=
  ∀ (s t : State) (a n : Nat) (rest : List HostAccess),
    s.pending = false → s.port.requests = .read a n :: .read a n :: rest → step s = .next t →
    ∃ w,
      t = { s with port := { s.port with requests := .read a n :: rest, lastRead := some w } } ∧
        step t = .next { s with port := { s.port with requests := rest, lastRead := some w } }

/-- R30 to R33, R40, R41, R62: the register words the host reads. -/
def Obligations.RegisterWords : Prop :=
  ∀ s : State, s.params.Legal → s.CursorsOk → s.RegistersOk →
    s.Reads 0x00 0x48554631#32 ∧ s.Reads 0x04 (BitVec.ofNat 32 s.params.cntW) ∧
      s.Reads 0x08 (BitVec.ofNat 32 s.params.streamBits) ∧ s.Reads 0x0C (BitVec.ofNat 32 s.params.outBytes) ∧
      s.Reads 0x10 s.cmd ∧ s.Reads 0x18 s.result ∧ s.Reads 0x1C s.sticky ∧
      s.Reads 0x20 (BitVec.ofNat 32 s.nextFree) ∧
      (s.root = none → s.Reads 0x24 0x1FF#32) ∧ (∀ r, s.root = some r → s.Reads 0x24 (BitVec.ofNat 32 r.val)) ∧
      s.Reads 0x28 (BitVec.ofNat 32 s.codeFill) ∧ s.Reads 0x2C (BitVec.ofNat 32 s.sCur) ∧
      s.Reads 0x30 (BitVec.ofNat 32 s.sWlen) ∧ s.Reads 0x34 (BitVec.ofNat 32 s.oCnt)

/-- R34: the STATUS word the host reads with no command pending. -/
def Obligations.StatusFields : Prop := ∀ s : State, ∃ w, s.Reads 0x14 w ∧ s.StatusShows w

/-- R65: the words of the FREQ, WEIGHT, NODE and CT windows. -/
def Obligations.ArrayWindowWords : Prop :=
  ∀ s : State,
    (∀ b : Symbol, s.Reads (0x400 + 4 * b.toNat) (BitVec.ofNat 32 (s.freqAt b))) ∧
      (∀ i : Fin 511, s.Reads (0x800 + 4 * i.val) (BitVec.ofNat 32 s.arena[i].weight)) ∧
      (∀ i : Fin 511, ∃ w, s.Reads (0x1000 + 4 * i.val) w ∧
        w.getLsbD 31 = s.arena[i].consumed ∧ w.extractLsb' 25 6 = 0#6 ∧
        w.extractLsb' 16 9 = linkBits s.arena[i].right ∧ w.extractLsb' 9 7 = 0#7 ∧
        w.extractLsb' 0 9 = linkBits s.arena[i].left) ∧
      ∀ b : Symbol, ∃ w, s.Reads (0x1800 + 4 * b.toNat) w ∧
        w.getLsbD 31 = (s.codeAt b).valid ∧ w.extractLsb' 24 7 = 0#7 ∧
        w.extractLsb' 16 8 = BitVec.ofNat 8 (s.codeAt b).len ∧
        w.extractLsb' 0 16 = BitVec.ofNat 16 (s.codeAt b).off

/-- R66, R68: position `k` of STREAM and of CODEBUF is bit `31 - (k mod 32)` of word `k / 32`, and 0 past the
capacity. -/
def Obligations.BitWindowWords : Prop :=
  ∀ s : State, s.params.Legal →
    (∀ j, j < (s.params.streamBits + 31) / 32 → ∃ w, s.Reads (0x100000 + 4 * j) w ∧
      ∀ i, i < 32 →
        w.getLsbD (31 - i) = (decide (32 * j + i < s.params.streamBits) && s.stream.readBit (32 * j + i))) ∧
      ∀ j, j < 1028 → ∃ w, s.Reads (0x2000 + 4 * j) w ∧
        ∀ i, i < 32 → w.getLsbD (31 - i) = s.codebuf.readBit (32 * j + i)

/-- R67, R68: byte `m` of OUTBUF word `j` is OUTBUF[4j + m], and 0 past the capacity. -/
def Obligations.OutbufWindowWords : Prop :=
  ∀ s : State, s.params.Legal → ∀ j, j < (s.params.outBytes + 3) / 4 →
    ∃ w, s.Reads (0x200000 + 4 * j) w ∧
      ∀ m, m < 4 →
        w.extractLsb' (24 - 8 * m) 8 =
          if 4 * j + m < s.params.outBytes then s.outbuf.read (4 * j + m) else 0#8

/-- R266: a STATUS read while PENDING = 1 draws BUSY; with 1 it changes nothing of the block, with 0 it clears
PENDING and returns the completed command's STATUS. -/
def Obligations.PollDrawsBusy : Prop :=
  ∀ (s : State) (rest : List HostAccess),
    s.pending = true → s.port.requests = .read (s.params.base + 0x14) 4 :: rest →
    if Config.busyDraw s.port.draws then
      ∃ w, w.getLsbD 0 = true ∧
        step s = .next { s with
          port := { requests := rest, lastRead := some w, draws := s.port.draws + 1 } }
    else
      ∃ w, s.StatusShows w ∧
        step s = .next { s with
          pending := false
          port := { requests := rest, lastRead := some w, draws := s.port.draws + 1 } }

/-- R253, R266 with R102: a host program that only polls after its last command has a run that ends, with no fault
and with the block as the command left it, unless the draws break the spec's fairness (log 7, 22). -/
def Obligations.PollingEndsUnderFairness : Prop :=
  ∀ s : State, s.pending = true →
    (∃ n o,
      State.run { s with
          port := { s.port with requests := List.replicate n (.read (s.params.base + 0x14) 4) } } = o ∧
        o.ended = true ∧ o.faults = [] ∧ o.block = { s with pending := false, port := o.block.port }) ∨
      ¬Config.BusyFair

/-- R260: the reset state. -/
def Obligations.ResetStateValues : Prop :=
  ∀ p : Config.Params, ∀ s : State, s = State.resetWith p →
    s.cmd = 0#32 ∧ s.pending = false ∧ s.treeValid = false ∧ s.codesValid = false ∧ s.degen = false ∧
      s.last = .ok ∧ s.result = 0#32 ∧ s.sticky = 0#32 ∧ s.nextFree = 256 ∧ s.root = none ∧ s.codeFill = 0 ∧
      s.sCur = 0 ∧ s.sWlen = 0 ∧ s.oCnt = 0 ∧ (∀ b, s.freqAt b = 0) ∧
      (∀ i : Fin 511, s.arena[i].weight = 0 ∧ s.arena[i].left = none ∧ s.arena[i].right = none ∧
        s.arena[i].consumed = false) ∧
      (∀ b, (s.codeAt b).valid = false ∧ (s.codeAt b).len = 0 ∧ (s.codeAt b).off = 0) ∧
      (∀ k, s.codebuf.readBit k = false) ∧ (∀ k, s.stream.readBit k = false) ∧ ∀ k, s.outbuf.read k = 0#8

/-! ## Resets, and commands that only write registers -/

/-- R224, R225, R239, R261, R262: SRST gives the reset state, with CMD the SRST word; the hardware reset, at any
time, gives it with CMD 0 and PENDING = 1 until it is polled. What PENDING holds after each is the model's reading
(log 2, 3). -/
def Obligations.ResetsGiveResetState : Prop :=
  (∀ s : State, exec .srst s =
      .next { State.resetWith s.params with cmd := 0x7F000000#32, pending := s.pending, port := s.port }) ∧
    ∀ (s : State) (rest : List HostAccess), s.port.requests = .reset :: rest →
      step s = .next { State.resetWith s.params with
        pending := true
        port := { s.port with requests := rest } }

/-- R172, R173, R207, R220, R222: NOP, CLRERR, SRESET, SCLEAR and OCLEAR; contents are kept. -/
def Obligations.SimpleCommandsComplete : Prop :=
  ∀ s : State,
    exec .nop s = .next { s with last := .ok, result := 0#32 } ∧
      exec .clrerr s = .next { s with sticky := 0#32, last := .ok, result := 0#32 } ∧
      exec .sreset s = .next { s with sCur := 0, last := .ok, result := 0#32 } ∧
      exec .sclear s = .next { s with sCur := 0, sWlen := 0, last := .ok, result := 0#32 } ∧
      exec .oclear s = .next { s with oCnt := 0, last := .ok, result := 0#32 }

/-! ## Frequency table -/

/-- R120: FRESET. -/
def Obligations.FresetClears : Prop :=
  ∀ s : State, ∃ t, exec .freset s = .next t ∧ (∀ b, t.freqAt b = 0) ∧
    t = { s with
      freq := t.freq
      treeValid := false
      codesValid := false
      degen := false
      last := .ok
      result := 0#32 }

/-- R122, R125: FACC counts one occurrence, and at the largest count raises COUNT_OVERFLOW and keeps it. -/
def Obligations.FaccCountsOrOverflows : Prop :=
  ∀ (s : State) (b : Symbol),
    (s.freqAt b < 2 ^ s.params.cntW - 1 → ∃ t, exec (.facc b) s = .next t ∧
      t.freqAt b = s.freqAt b + 1 ∧ (∀ c, c ≠ b → t.freqAt c = s.freqAt c) ∧
      t = { s with
        freq := t.freq
        treeValid := false
        codesValid := false
        degen := false
        last := .ok
        result := BitVec.ofNat 32 (s.freqAt b + 1) }) ∧
      (s.freqAt b = 2 ^ s.params.cntW - 1 → exec (.facc b) s =
        .next { s with last := .countOverflow, result := 0#32, sticky := s.sticky ||| 0x20#32 })

/-- R123: after a FRESET, an SRST or a hardware reset, each count is the number of its FACCs, whatever other commands ran among them, in
a run no command of which ended with COUNT_OVERFLOW. -/
def Obligations.AccumulationCounts : Prop :=
  ∀ (is : List Instr) (t : State), (∀ i ∈ is, i ≠ .freset ∧ i ≠ .srst) →
    (∀ (s : State) (i₀ : Instr), i₀ = .freset ∨ i₀ = .srst → runNoOverflow (i₀ :: is) s = some t →
      ∀ b, t.freqAt b = is.count (.facc b)) ∧
      ∀ (p : Config.Params) (pending : Bool) (port : HostPort),
        runNoOverflow is { State.resetWith p with pending := pending, port := port } = some t →
          ∀ b, t.freqAt b = is.count (.facc b)

/-! ## Tree builder -/

/-- R133: scanmin returns the lightest active node, the lowest index on a tie, or none. -/
def Obligations.ScanMinPicksLightest : Prop :=
  ∀ (a : Arena) (n : Nat), n ≤ 511 →
    (scanMin a n = none ↔ ∀ i : Fin 511, i.val < n → ¬(a[i].consumed = false ∧ a[i].weight ≠ 0)) ∧
      ∀ i : Fin 511, scanMin a n = some i ↔
        (i.val < n ∧ a[i].consumed = false ∧ a[i].weight ≠ 0) ∧
          ∀ j : Fin 511, j.val < n → a[j].consumed = false → a[j].weight ≠ 0 →
            a[i].weight < a[j].weight ∨ (a[i].weight = a[j].weight ∧ i ≤ j)

/-- R135: BUILD with no counted symbol. -/
def Obligations.BuildDegenerate : Prop :=
  ∀ s : State, (∀ b, s.freqAt b = 0) → ∃ t, exec .build s = .next t ∧
    (∀ i : Fin 511, t.arena[i] = Node.empty) ∧
    t = { s with
      arena := t.arena
      nextFree := 256
      root := none
      treeValid := false
      codesValid := false
      degen := false
      last := .degenerateTree
      result := 0#32
      sticky := s.sticky ||| 0x08#32 }

/-- R136: BUILD with one counted symbol `b`; the pad leaf is symbol 1 if `b` = 0, else symbol 0. -/
def Obligations.BuildSingleSymbol : Prop :=
  ∀ (s : State) (b p : Symbol), s.freqAt b ≠ 0 → (∀ c, c ≠ b → s.freqAt c = 0) →
    p = (if b = 0#8 then 1#8 else 0#8) → ∃ t, exec .build s = .next t ∧
    t.arena[(256 : Fin 511)] =
      { weight := s.freqAt b, children := some (symbolLeaf b, symbolLeaf p), consumed := true } ∧
    t.arena[symbolLeaf b] = { weight := s.freqAt b, children := none, consumed := true } ∧
    t.arena[symbolLeaf p] = { weight := 0, children := none, consumed := true } ∧
    (∀ i : Fin 511, i ≠ 256 → i ≠ symbolLeaf b → i ≠ symbolLeaf p → t.arena[i] = Node.empty) ∧
    t = { s with
      arena := t.arena
      nextFree := 257
      root := some 256
      treeValid := true
      codesValid := false
      degen := true
      last := .ok
      result := 256#32 }

/-- R137, R138: BUILD with `n` >= 2 counted symbols ends with ROOT = 254 + n and NEXT_FREE = 255 + n; the nodes of
the tree, and no others, are consumed. -/
def Obligations.BuildMergesSymbols : Prop :=
  ∀ s : State, 2 ≤ s.distinctSymbols → ∃ t, exec .build s = .next t ∧
    (∀ b, t.arena[symbolLeaf b] =
      { weight := s.freqAt b, children := none, consumed := decide (s.freqAt b ≠ 0) }) ∧
    (∀ i : Fin 511, 256 ≤ i.val → i.val < t.nextFree →
      t.arena[i].consumed = true ∧ t.arena[i].children ≠ none) ∧
    (∀ i : Fin 511, t.nextFree ≤ i.val → t.arena[i] = Node.empty) ∧
    t = { s with
      arena := t.arena
      nextFree := 255 + s.distinctSymbols
      root := some (Fin.ofNat 511 (254 + s.distinctSymbols))
      treeValid := true
      codesValid := false
      degen := false
      last := .ok
      result := BitVec.ofNat 32 (254 + s.distinctSymbols) }

/-- R134: the lighter child, or on equal weight the one of lower index, is the left child. -/
def Obligations.LeftChildIsLighter : Prop :=
  ∀ s t : State, exec .build s = .next t → t.treeValid = true → t.degen = false →
    ∀ k l r : Fin 511, t.arena[k].children = some (l, r) →
      t.arena[l].weight < t.arena[r].weight ∨ (t.arena[l].weight = t.arena[r].weight ∧ l < r)

/-- R133, R134: every node BUILD creates takes the two lightest nodes active at that moment, ties going to the lowest
index, the first of them as its left child. -/
def Obligations.MergesTakeLightest : Prop :=
  ∀ s t : State, 2 ≤ s.distinctSymbols → exec .build s = .next t →
    ∀ k : Fin 511, 256 ≤ k.val → k.val < t.nextFree → t.arena.takesLightest k

/-- R142: weight conservation. -/
def Obligations.WeightConservation : Prop :=
  ∀ s t : State, exec .build s = .next t → t.last = .ok →
    (∀ k : Fin 511, 256 ≤ k.val → k.val < t.nextFree → ∃ l r, t.arena[k].children = some (l, r) ∧
      t.arena[k].weight = t.arena[l].weight + t.arena[r].weight) ∧
      ∃ r, t.root = some r ∧ t.arena[r].weight = s.totalFreq

/-- R140: BUILD is a function of FREQ alone. -/
def Obligations.BuildIsFunctionOfFreq : Prop :=
  ∀ s s' : State, s.freq = s'.freq → ∃ t t', exec .build s = .next t ∧ exec .build s' = .next t' ∧
    t.arena = t'.arena ∧ t.nextFree = t'.nextFree ∧ t.root = t'.root ∧ t.degen = t'.degen ∧
    t.freq = s.freq ∧ t'.freq = s'.freq

/-! ## Code-table generator -/

/-- R150 to R154, R157: on a tree GEN always completes (its capacity check never fires), and every counted symbol,
and no other, has the branch bits from ROOT to its leaf as its code; the codes lie in left-first order, the first at
offset 0. -/
def Obligations.GenCompletesOnTree : Prop :=
  ∀ s : State, s.treeValid = true → s.TreeOk → s.codebuf.wf = true → ∃ t, exec .gen s = .next t ∧ t.CodesOk ∧
    (∀ b, (t.codeAt b).valid = false → t.codeAt b = CodeEntry.absent) ∧ t.codeFill ≤ 32895 ∧
    (∀ b c, (t.codeAt b).valid = true → (t.codeAt c).valid = true →
      leftOf (t.codeBitsOf b) (t.codeBitsOf c) = true → (t.codeAt b).off + (t.codeAt b).len ≤ (t.codeAt c).off) ∧
    (∀ c, (t.codeAt c).valid = true →
      (∀ b, (t.codeAt b).valid = true → leftOf (t.codeBitsOf b) (t.codeBitsOf c) = false) → (t.codeAt c).off = 0) ∧
    t = { s with
      codeTable := t.codeTable
      codebuf := t.codebuf
      codeFill := t.codeFill
      codesValid := true
      last := .ok
      result := BitVec.ofNat 32 t.codeFill }

/-- R43: CODE_FILL is the sum of CT_LEN. -/
def Obligations.CodeFillIsSumOfLengths : Prop :=
  ∀ s t : State, s.TreeOk → s.codebuf.wf = true → exec .gen s = .next t → t.last = .ok →
    t.codeFill = (t.codeTable.toList.map CodeEntry.len).sum

/-- R162: GEN does not write the positions at or above the new CODE_FILL. -/
def Obligations.GenKeepsBitsAboveFill : Prop :=
  ∀ s t : State, s.codebuf.wf = true → exec .gen s = .next t → t.last = .ok →
    ∀ k, t.codeFill ≤ k → t.codebuf.readBit k = s.codebuf.readBit k

/-- R161: GEN is a function of ROOT, LEFT, RIGHT and the leaves' weights; and GEN again, with no BUILD in between,
writes the same entries, bits and fill. -/
def Obligations.GenIsFunctionOfTree : Prop :=
  (∀ s s' t : State, s.codebuf.wf = true → s'.codebuf.wf = true → s'.treeValid = s.treeValid →
      s'.root = s.root → (∀ i : Fin 511, s'.arena[i].children = s.arena[i].children) →
      (∀ b, s'.arena[symbolLeaf b].weight = s.arena[symbolLeaf b].weight) →
      exec .gen s = .next t → t.last = .ok → ∃ t', exec .gen s' = .next t' ∧ t'.last = .ok ∧
        t'.codeTable = t.codeTable ∧ t'.codeFill = t.codeFill ∧
        ∀ k, k < t.codeFill → t'.codebuf.readBit k = t.codebuf.readBit k) ∧
    ∀ s t : State, s.codebuf.wf = true → exec .gen s = .next t → t.last = .ok → ∃ u, exec .gen t = .next u ∧
      u.last = .ok ∧ u.codeTable = t.codeTable ∧ u.codeFill = t.codeFill ∧
      ∀ k, k < t.codeFill → u.codebuf.readBit k = t.codebuf.readBit k

/-- R159: of two symbols with codes, the one counted more often has no longer a code. -/
def Obligations.LengthsAreMonotonic : Prop :=
  ∀ s t u : State, exec .build s = .next t → exec .gen t = .next u → u.last = .ok →
    ∀ b c : Symbol, (u.codeAt b).valid = true → (u.codeAt c).valid = true → u.freqAt c < u.freqAt b →
      (u.codeAt b).len ≤ (u.codeAt c).len

/-- R158: no valid code is a prefix of another. -/
def Obligations.CodesArePrefixFree : Prop :=
  ∀ s : State, s.TreeOk → s.CodesOk → ∀ b c : Symbol, b ≠ c → (s.codeAt b).valid = true →
    (s.codeAt c).valid = true → ¬ s.codeBitsOf b <+: s.codeBitsOf c

/-! ## Bit stream and encoder -/

/-- R174: SWBITS appends the low `k` bits of `v`, most significant first, and changes no other bit. -/
def Obligations.SwbitsAppends : Prop :=
  ∀ (s : State) (k : BitVec 5) (v : BitVec 16), (Instr.swbits k v).wellFormed = true → s.stream.wf = true →
    s.sCur + k.toNat ≤ s.params.streamBits → ∃ t, exec (.swbits k v) s = .next t ∧
    (∀ j, j < k.toNat → t.stream.readBit (s.sCur + j) = v.getLsbD (k.toNat - 1 - j)) ∧
    (∀ p, p < s.sCur ∨ s.sCur + k.toNat ≤ p → t.stream.readBit p = s.stream.readBit p) ∧
    t = { s with
      stream := t.stream
      sCur := s.sCur + k.toNat
      sWlen := max s.sWlen (s.sCur + k.toNat)
      last := .ok
      result := BitVec.ofNat 32 k.toNat }

/-- R175: a SWBITS or ENC whose bits do not all fit writes none. -/
def Obligations.CapacityIsAllOrNothing : Prop :=
  ∀ s : State,
    (∀ (k : BitVec 5) (v : BitVec 16), s.params.streamBits < s.sCur + k.toNat →
      exec (.swbits k v) s =
        .next { s with last := .capacityExceeded, result := 0#32, sticky := s.sticky ||| 0x02#32 }) ∧
      ∀ b : Symbol, s.codesValid = true → (s.codeAt b).valid = true →
        s.params.streamBits < s.sCur + (s.codeAt b).len →
        exec (.enc b) s =
          .next { s with last := .capacityExceeded, result := 0#32, sticky := s.sticky ||| 0x02#32 }

/-- R176, R177: SRBIT inside the written length, and at or past it. -/
def Obligations.SrbitReads : Prop :=
  ∀ s : State,
    (s.sCur < s.sWlen → exec .srbit s =
      .next { s with
        sCur := s.sCur + 1
        last := .ok
        result := if s.stream.readBit s.sCur then 1#32 else 0#32 }) ∧
      (s.sWlen ≤ s.sCur → exec .srbit s =
        .next { s with last := .overread, result := 0#32, sticky := s.sticky ||| 0x10#32 })

/-- R190, R192: ENC appends the code's bits in order and changes no other bit. -/
def Obligations.EncAppendsCode : Prop :=
  ∀ (s : State) (b : Symbol), s.codesValid = true → (s.codeAt b).valid = true → s.stream.wf = true →
    s.sCur ≤ s.sWlen → s.sCur + (s.codeAt b).len ≤ s.params.streamBits → ∃ t, exec (.enc b) s = .next t ∧
    (∀ j, j < (s.codeAt b).len →
      t.stream.readBit (s.sCur + j) = s.codebuf.readBit ((s.codeAt b).off + j)) ∧
    (∀ p, p < s.sCur ∨ s.sCur + (s.codeAt b).len ≤ p → t.stream.readBit p = s.stream.readBit p) ∧
    t = { s with
      stream := t.stream
      sCur := s.sCur + (s.codeAt b).len
      sWlen := max s.sWlen (s.sCur + (s.codeAt b).len)
      last := .ok
      result := BitVec.ofNat 32 (s.codeAt b).len }

/-- R190, R191, R238: ENC checks CODES_VALID first, then the entry. -/
def Obligations.EncErrors : Prop :=
  ∀ (s : State) (b : Symbol),
    (s.codesValid = false → exec (.enc b) s =
      .next { s with last := .notReady, result := 0#32, sticky := s.sticky ||| 0x40#32 }) ∧
      (s.codesValid = true → (s.codeAt b).valid = false → exec (.enc b) s =
        .next { s with last := .unknownSymbol, result := 0#32, sticky := s.sticky ||| 0x04#32 })

/-! ## Decoder -/

/-- R150, R201, R203, R205, R238: GEN and the decode commands need TREE_VALID. -/
def Obligations.NotReadyWithoutTree : Prop :=
  ∀ (s : State) (n : BitVec 24) (i : Instr), s.treeValid = false →
    (i = .gen ∨ i = .dsym ∨ i = .drun n ∨ i = .dsent) →
    exec i s = .next { s with last := .notReady, result := 0#32, sticky := s.sticky ||| 0x40#32 }

/-- R200, R201, R202, R208: DSYM returns the symbol whose branch bits the stream holds and moves past its code; on
a stream that ends inside the code it changes no data and no cursor. -/
def Obligations.DsymDecodesOrRollsBack : Prop :=
  ∀ s : State, s.treeValid = true →
    (∀ (b : Symbol) (xs : List Bool), s.leadsTo xs b → xs ≠ [] →
      s.stream.readBits s.sCur xs.length = xs → s.sCur + xs.length ≤ s.sWlen →
      exec .dsym s =
        .next { s with sCur := s.sCur + xs.length, last := .ok, result := BitVec.ofNat 32 b.toNat }) ∧
      (s.endsInsideCode s.sCur = true → exec .dsym s =
        .next { s with last := .overread, result := 0#32, sticky := s.sticky ||| 0x10#32 })

/-- R203: DRUN decodes `n` symbols into OUTBUF; a sentinel does not stop it. -/
def Obligations.DrunDecodes : Prop :=
  ∀ (s : State) (n : BitVec 24) (bs : List Symbol) (e : Nat), s.treeValid = true → s.outbuf.wf = true →
    s.holdsSymbols s.sCur bs e → bs.length = n.toNat → s.oCnt + bs.length ≤ s.params.outBytes →
    ∃ t, exec (.drun n) s = .next t ∧
      (∀ j, (h : j < bs.length) → t.outbuf.read (s.oCnt + j) = bs[j]) ∧
      (∀ a, a < s.oCnt ∨ s.oCnt + bs.length ≤ a → t.outbuf.read a = s.outbuf.read a) ∧
      t = { s with
        outbuf := t.outbuf
        oCnt := s.oCnt + bs.length
        sCur := e
        last := .ok
        result := BitVec.ofNat 32 bs.length }

/-- R203, R208, R238: DRUN stopped after the symbols `bs`, by a full OUTBUF first, else by the end of the stream. -/
def Obligations.DrunStopsEarly : Prop :=
  ∀ (s : State) (n : BitVec 24) (bs : List Symbol) (e : Nat) (c : ResultCode), s.treeValid = true →
    s.outbuf.wf = true → s.holdsSymbols s.sCur bs e → bs.length < n.toNat →
    (s.oCnt + bs.length = s.params.outBytes ∧ c = .capacityExceeded ∨
      s.oCnt + bs.length < s.params.outBytes ∧ s.endsInsideCode e = true ∧ c = .overread) →
    ∃ t, exec (.drun n) s = .next t ∧
      (∀ j, (h : j < bs.length) → t.outbuf.read (s.oCnt + j) = bs[j]) ∧
      (∀ a, a < s.oCnt ∨ s.oCnt + bs.length ≤ a → t.outbuf.read a = s.outbuf.read a) ∧
      t = { s with
        outbuf := t.outbuf
        oCnt := s.oCnt + bs.length
        sCur := e
        last := c
        result := BitVec.ofNat 32 bs.length
        sticky := s.sticky ||| (if c = .overread then 0x10#32 else 0x02#32) }

/-- R205, R206: DSENT decodes up to and including the first 0, which it stores and counts. -/
def Obligations.DsentDecodes : Prop :=
  ∀ (s : State) (bs : List Symbol) (e : Nat), s.treeValid = true → s.outbuf.wf = true → 0#8 ∉ bs →
    s.holdsSymbols s.sCur (bs ++ [0#8]) e → s.oCnt + bs.length + 1 ≤ s.params.outBytes →
    ∃ t, exec .dsent s = .next t ∧
      (∀ j, (h : j < bs.length) → t.outbuf.read (s.oCnt + j) = bs[j]) ∧
      t.outbuf.read (s.oCnt + bs.length) = 0#8 ∧
      (∀ a, a < s.oCnt ∨ s.oCnt + bs.length + 1 ≤ a → t.outbuf.read a = s.outbuf.read a) ∧
      t = { s with
        outbuf := t.outbuf
        oCnt := s.oCnt + bs.length + 1
        sCur := e
        last := .ok
        result := BitVec.ofNat 32 (bs.length + 1) }

/-- R205, R208, R238: DSENT stopped after symbols with no 0 among them. -/
def Obligations.DsentStopsEarly : Prop :=
  ∀ (s : State) (bs : List Symbol) (e : Nat) (c : ResultCode), s.treeValid = true →
    s.outbuf.wf = true → 0#8 ∉ bs → s.holdsSymbols s.sCur bs e →
    (s.oCnt + bs.length = s.params.outBytes ∧ c = .capacityExceeded ∨
      s.oCnt + bs.length < s.params.outBytes ∧ s.endsInsideCode e = true ∧ c = .overread) →
    ∃ t, exec .dsent s = .next t ∧
      (∀ j, (h : j < bs.length) → t.outbuf.read (s.oCnt + j) = bs[j]) ∧
      (∀ a, a < s.oCnt ∨ s.oCnt + bs.length ≤ a → t.outbuf.read a = s.outbuf.read a) ∧
      t = { s with
        outbuf := t.outbuf
        oCnt := s.oCnt + bs.length
        sCur := e
        last := c
        result := BitVec.ofNat 32 bs.length
        sticky := s.sticky ||| (if c = .overread then 0x10#32 else 0x02#32) }

/-! ## Errors -/

/-- R232: a command's end writes LAST and sets the STICKY bit of an error; CLRERR alone clears STICKY, and SRST ends
with the reset values. -/
def Obligations.CompletionBookkeeping : Prop :=
  ∀ (i : Instr) (s t : State), i ≠ .srst → exec i s = .next t →
    t.sticky = (if i = .clrerr then 0#32 else s.sticky) |||
      (if t.last.code = 0 then 0#32 else 1#32 <<< t.last.code)

/-- R230, R238: the result codes each command may end with. -/
def Obligations.ResultCodesOfCommands : Prop :=
  ∀ (i : Instr) (s t : State), exec i s = .next t → mayEndWith i t.last = true

/-- R234: what a raising command has changed. BUILD's initialisation stays (R135). DRUN and DSENT, on
CAPACITY_EXCEEDED and OVERREAD, keep the symbols they completed, with O_CNT and S_CUR just past them and their number
as RESULT. Every other error, NOT_READY among them, changes no data. What GEN's capacity failure leaves, which no tree
reaches, is the model's reading (log 14). -/
def Obligations.ErrorsChangeNothingElse : Prop :=
  ∀ (i : Instr) (s t : State), s.CursorsOk → s.outbuf.wf = true → exec i s = .next t → t.last ≠ .ok →
    (i = .build ∧ (∀ j : Fin 511, t.arena[j] = Node.empty) ∧ t = { s with
        arena := t.arena
        nextFree := 256
        root := none
        treeValid := false
        codesValid := false
        degen := false
        last := .degenerateTree
        result := 0#32
        sticky := s.sticky ||| 0x08#32 }) ∨
      (((∃ n, i = .drun n) ∨ i = .dsent) ∧ (t.last = .capacityExceeded ∨ t.last = .overread) ∧
        ∃ bs : List Symbol, s.holdsSymbols s.sCur bs t.sCur ∧ s.oCnt + bs.length ≤ s.params.outBytes ∧
          (∀ j, (h : j < bs.length) → t.outbuf.read (s.oCnt + j) = bs[j]) ∧
          (∀ a, a < s.oCnt ∨ s.oCnt + bs.length ≤ a → t.outbuf.read a = s.outbuf.read a) ∧
          t = { s with
            outbuf := t.outbuf
            oCnt := s.oCnt + bs.length
            sCur := t.sCur
            last := t.last
            result := BitVec.ofNat 32 bs.length
            sticky := s.sticky ||| 1#32 <<< t.last.code }) ∨
      (i = .gen ∧ t = { s with
        codeTable := t.codeTable
        codebuf := t.codebuf
        codesValid := false
        last := .capacityExceeded
        result := 0#32
        sticky := s.sticky ||| 0x02#32 }) ∨
      t = { s with last := t.last, result := 0#32, sticky := s.sticky ||| 1#32 <<< t.last.code }

/-! ## Invariants -/

/-- R9, R38, R44, R260: the reset state of every legal instance meets the invariant. -/
def Obligations.ResetMeetsInv : Prop := ∀ p : Config.Params, p.Legal → (State.resetWith p).Inv

/-- R21: nothing changes the instance's parameters, so ID, CFG, CAP_STREAM and CAP_OUT are constants. -/
def Obligations.ParametersAreConstant : Prop := ∀ s t : State, step s = .next t → t.params = s.params

/-- R38: CODES_VALID and DEGEN imply TREE_VALID, after every step from such a state. -/
def Obligations.StepKeepsFlags : Prop := ∀ s t : State, s.FlagsOk → step s = .next t → t.FlagsOk

/-- R10, R21 and log 13, 18: the buffers keep their canonical form, and every register, counter and weight fits in
its width, in every state the machine's invariant allows. -/
def Obligations.StepKeepsBasicInv : Prop := ∀ s t : State, s.Inv → step s = .next t → t.BasicInv

/-- R29: while TREE_VALID = 1 the arena holds the tree of the current FREQ. -/
def Obligations.StepKeepsTree : Prop :=
  ∀ s t : State, (s.treeValid = true → s.TreeOk) → step s = .next t → t.treeValid = true → t.TreeOk

/-- R36, R157, R194: while CODES_VALID = 1 the code table holds the codes of the current tree. -/
def Obligations.StepKeepsCodes : Prop :=
  ∀ s t : State, s.Inv → step s = .next t → t.codesValid = true → t.CodesOk

/-- R233, R234: in every state of the invariant every command completes; none stops the machine. -/
def Obligations.EveryCommandCompletes : Prop := ∀ (s : State) (i : Instr), s.Inv → ∃ t, exec i s = .next t

/-! ## Round trips -/

/-- R157, R192, R200: a symbol just encoded is decoded again from where its code starts. -/
def Obligations.SymbolRoundTrip : Prop :=
  ∀ (s t : State) (b : Symbol), s.Inv → exec (.enc b) s = .next t → t.last = .ok →
    ∃ u, exec .dsym { t with sCur := s.sCur } = .next u ∧ u.last = .ok ∧
      u.result = BitVec.ofNat 32 b.toNat ∧ u.sCur = t.sCur

/-- R210: the round trip with counted decoding, and with the sentinel where the only 0 is the last symbol. -/
def Obligations.RoundTrip : Prop :=
  ∀ (s t : State) (bs : List Symbol), bs ≠ [] → bs.length < 2 ^ 24 → s.BuffersOk →
    runOk (.freset :: bs.map .facc ++ [.build, .gen, .sclear] ++ bs.map .enc ++ [.sreset]) s = some t →
    t.oCnt = 0 → bs.length ≤ t.params.outBytes →
    (∃ u, exec (.drun (BitVec.ofNat 24 bs.length)) t = .next u ∧ u.last = .ok ∧
      ∀ j, (h : j < bs.length) → u.outbuf.read j = bs[j]) ∧
      (∀ cs, bs = cs ++ [0#8] → 0#8 ∉ cs → ∃ u, exec .dsent t = .next u ∧ u.last = .ok ∧
        ∀ j, (h : j < bs.length) → u.outbuf.read j = bs[j])
end

