-- ==== Sys2Proof/Laws/Scan.lean ====
section
/-! SUPPORT. What scanmin returns (R133). -/

namespace Sys2Proof.Machine

theorem Node.active_iff (nd : Node) : nd.active = true ↔ nd.consumed = false ∧ nd.weight ≠ 0 := by
  simp [Node.active]

/-- `best` is the lightest active slot of a list of slots whose first has index `i`, the first of them on a tie,
with its weight. -/
def IsScanned (l : List Node) (best : Option (Nat × Nat)) : Prop :=
  match best with
  | none => ∀ k, (h : k < l.length) → l[k].active = false
  | some (j, w) =>
    (∃ h : j < l.length, l[j].active = true ∧ l[j].weight = w) ∧
      ∀ k, (h : k < l.length) → l[k].active = true → w < l[k].weight ∨ (w = l[k].weight ∧ j ≤ k)

theorem IsScanned.append {l : List Node} {best : Option (Nat × Nat)} (nd : Node) (h : IsScanned l best) :
    IsScanned (l ++ [nd])
      (if nd.active then
        match best with
        | none => some (l.length, nd.weight)
        | some (j, w) => if nd.weight < w then some (l.length, nd.weight) else some (j, w)
      else best) := by
  have get : ∀ k, (hk : k < (l ++ [nd]).length) → (hl : k < l.length) → (l ++ [nd])[k] = l[k] :=
    fun k _ hl => List.getElem_append_left hl
  have last : ∀ hk : l.length < (l ++ [nd]).length, (l ++ [nd])[l.length] = nd := by simp
  have cases_lt : ∀ k, k < (l ++ [nd]).length → k < l.length ∨ k = l.length := by
    intro k hk; rw [List.length_append] at hk; simp at hk; omega
  by_cases ha : nd.active = true
  · rw [if_pos ha]
    cases best with
    | none =>
      refine ⟨⟨by simp, by simpa using ha, by simp⟩, fun k hk hka => ?_⟩
      rcases cases_lt k hk with hl | rfl
      · rw [get k hk hl, h k hl] at hka; exact absurd hka (by simp)
      · simp
    | some p =>
      obtain ⟨j, w⟩ := p
      obtain ⟨⟨hj, hja, hjw⟩, hmin⟩ := h
      simp only
      split
      · rename_i hw
        refine ⟨⟨by simp, by simpa using ha, by simp⟩, fun k hk hka => ?_⟩
        rcases cases_lt k hk with hl | rfl
        · rw [get k hk hl] at hka ⊢
          have := hmin k hl hka
          omega
        · simp
      · rename_i hw
        refine ⟨⟨by simp; omega, by rw [get j _ hj]; exact hja, by rw [get j _ hj]; exact hjw⟩, fun k hk hka => ?_⟩
        rcases cases_lt k hk with hl | rfl
        · rw [get k hk hl] at hka ⊢
          exact hmin k hl hka
        · rw [last]; omega
  · rw [if_neg ha]
    simp only [Bool.not_eq_true] at ha
    cases best with
    | none =>
      intro k hk
      rcases cases_lt k hk with hl | rfl
      · rw [get k hk hl]; exact h k hl
      · rw [last]; exact ha
    | some p =>
      obtain ⟨j, w⟩ := p
      obtain ⟨⟨hj, hja, hjw⟩, hmin⟩ := h
      refine ⟨⟨by simp; omega, by rw [get j _ hj]; exact hja, by rw [get j _ hj]; exact hjw⟩, fun k hk hka => ?_⟩
      rcases cases_lt k hk with hl | rfl
      · rw [get k hk hl] at hka ⊢
        exact hmin k hl hka
      · rw [last, ha] at hka; exact absurd hka (by simp)

theorem scanFrom_spec (l done : List Node) (best : Option (Nat × Nat)) (h : IsScanned done best) :
    ∃ best', IsScanned (done ++ l) best' ∧
      scanFrom l done.length (best.map fun p => (arenaIndex p.1, p.2)) =
        best'.map fun p => (arenaIndex p.1, p.2) := by
  induction l generalizing done best with
  | nil => exact ⟨best, by simpa using h, rfl⟩
  | cons nd rest ih =>
    obtain ⟨best', h', e⟩ := ih (done ++ [nd]) _ (h.append nd)
    refine ⟨best', by simpa using h', ?_⟩
    rw [← e, scanFrom, List.length_append]
    congr 1
    unfold scanStep
    cases best with
    | none => by_cases ha : nd.active = true <;> simp [ha]
    | some p =>
      obtain ⟨j, w⟩ := p
      by_cases ha : nd.active = true <;> by_cases hw : nd.weight < w <;> simp [ha, hw]

theorem scanMin_isScanned (a : Arena) (n : Nat) :
    ∃ best, IsScanned (a.toList.take n) best ∧ scanMin a n = best.map fun p => arenaIndex p.1 := by
  obtain ⟨best, h, e⟩ := scanFrom_spec (a.toList.take n) [] none (by intro k hk; simp at hk)
  refine ⟨best, by simpa using h, ?_⟩
  have e' : scanFrom (a.toList.take n) 0 none = best.map fun p => (arenaIndex p.1, p.2) := by simpa using e
  rw [scanMin, e', Option.map_map]
  rfl

theorem getElem_take_arena (a : Arena) (n k : Nat) (h : k < (a.toList.take n).length) :
    (a.toList.take n)[k] = a[k]'(by simp at h; omega) := by simp

/-- scanmin finds nothing only where no slot below `n` is active. -/
theorem scanMin_none {a : Arena} {n : Nat} (h : scanMin a n = none) (i : Fin 511) (hi : i.val < n) :
    a[i].active = false := by
  obtain ⟨best, hs, e⟩ := scanMin_isScanned a n
  rw [h] at e
  cases best with
  | some p => simp at e
  | none =>
    have hk : i.val < (a.toList.take n).length := by simp; omega
    have := hs i.val hk
    rwa [getElem_take_arena] at this

/-- scanmin's slot is active, below `n`, lightest, and the lowest on a tie. -/
theorem scanMin_some {a : Arena} {n : Nat} {i : Fin 511} (h : scanMin a n = some i) :
    i.val < n ∧ a[i].active = true ∧
      ∀ j : Fin 511, j.val < n → a[j].active = true →
        a[i].weight < a[j].weight ∨ (a[i].weight = a[j].weight ∧ i ≤ j) := by
  obtain ⟨best, hs, e⟩ := scanMin_isScanned a n
  rw [h] at e
  cases best with
  | none => simp at e
  | some p =>
    obtain ⟨j, w⟩ := p
    obtain ⟨⟨hj, hja, hjw⟩, hmin⟩ := hs
    have hj' : j < n ∧ j < 511 := by simpa using hj
    have hi : i.val = j := by
      have : i = arenaIndex j := by simpa using e
      rw [this, arenaIndex, Fin.val_ofNat, Nat.mod_eq_of_lt hj'.2]
    subst hi
    rw [getElem_take_arena] at hja hjw
    refine ⟨hj'.1, hja, fun k hk hka => ?_⟩
    have hk' : k.val < (a.toList.take n).length := by simp; omega
    have := hmin k.val hk' (by rw [getElem_take_arena]; exact hka)
    rw [getElem_take_arena, ← hjw] at this
    exact this

/-- The lightest active slot, the lowest on a tie, is the one scanmin returns. -/
theorem scanMin_eq_some {a : Arena} {n : Nat} {i : Fin 511} (hi : i.val < n) (ha : a[i].active = true)
    (hmin : ∀ j : Fin 511, j.val < n → a[j].active = true →
      a[i].weight < a[j].weight ∨ (a[i].weight = a[j].weight ∧ i ≤ j)) : scanMin a n = some i := by
  cases h : scanMin a n with
  | none => rw [scanMin_none h i hi] at ha; exact absurd ha (by simp)
  | some j =>
    obtain ⟨hj, hja, hjmin⟩ := scanMin_some h
    have h₁ := hmin j hj hja
    have h₂ := hjmin i hi ha
    congr 1
    apply Fin.ext
    rw [Fin.le_def] at h₁ h₂
    omega

end Sys2Proof.Machine
end

