-- ==== Sys2Proof/Laws/Memory.lean ====
section
/-! SUPPORT. The laws of the byte buffers: every write keeps the canonical form, a read after a write to the same
place gives what was written, a write leaves every other place alone; the same for bits (R13, R170). -/

namespace Sys2Proof.Machine

/-! ## Canonical form -/

theorem Memory.wfFrom_mono {m : Memory} {lo lo' : Nat} (h : lo' ≤ lo) (hm : m.wfFrom lo = true) :
    m.wfFrom lo' = true := by
  cases m with
  | nil => rfl
  | cons c rest =>
    obtain ⟨x, u⟩ := c
    simp only [Memory.wfFrom, Bool.and_eq_true, decide_eq_true_eq] at hm ⊢
    exact ⟨⟨h.trans hm.1.1, hm.1.2⟩, hm.2⟩

theorem Memory.wfFrom_write {m : Memory} {lo a : Nat} (v : Byte) (ha : lo ≤ a) (hm : m.wfFrom lo = true) :
    (m.write a v).wfFrom lo = true := by
  induction m generalizing lo with
  | nil => by_cases hv : v = unlistedByte <;> simp [Memory.write, Memory.wfFrom, hv, ha]
  | cons c rest ih =>
    obtain ⟨x, u⟩ := c
    simp only [Memory.wfFrom, Bool.and_eq_true, decide_eq_true_eq] at hm
    obtain ⟨⟨hx, hu⟩, hr⟩ := hm
    rcases Nat.lt_trichotomy a x with h | h | h
    · by_cases hv : v = unlistedByte <;>
        simp [Memory.write, Memory.wfFrom, h, hv, ha, hu, hr, hx]
    · subst h
      by_cases hv : v = unlistedByte
      · simpa [Memory.write, hv] using Memory.wfFrom_mono (by omega) hr
      · simp [Memory.write, Memory.wfFrom, hv, ha, hr]
    · simp [Memory.write, Memory.wfFrom, hx, hu, ih h hr, show ¬ a < x by omega, show a ≠ x by omega]

/-- A write keeps the canonical form. -/
theorem Memory.wf_write {m : Memory} (a : Nat) (v : Byte) (hm : m.wf = true) : (m.write a v).wf = true :=
  Memory.wfFrom_write v (Nat.zero_le a) hm

theorem Memory.below_write {m : Memory} {n a : Nat} (v : Byte) (ha : a < n) (hm : m.below n = true) :
    (m.write a v).below n = true := by
  induction m with
  | nil => by_cases hv : v = unlistedByte <;> simp [Memory.write, Memory.below, hv, ha]
  | cons c rest ih =>
    obtain ⟨x, u⟩ := c
    simp only [Memory.below, List.all_cons, Bool.and_eq_true, decide_eq_true_eq] at hm ih
    have hr := ih hm.2
    unfold Memory.write
    split
    · split <;> simp [Memory.below, hm, ha]
    · split
      · split <;> simp [Memory.below, hm, ha]
      · simp only [Memory.below, List.all_cons, Bool.and_eq_true, decide_eq_true_eq]
        exact ⟨hm.1, hr⟩

/-! ## Reads after writes -/

theorem Memory.read_of_lt {m : Memory} {lo a : Nat} (h : a < lo) (hm : m.wfFrom lo = true) :
    m.read a = unlistedByte := by
  induction m generalizing lo with
  | nil => rfl
  | cons c rest ih =>
    obtain ⟨x, u⟩ := c
    simp only [Memory.wfFrom, Bool.and_eq_true, decide_eq_true_eq] at hm
    rw [Memory.read, if_neg (by omega), ih (by omega) hm.2]

theorem Memory.read_write_from {m : Memory} {lo : Nat} (a a' : Nat) (v : Byte) (hm : m.wfFrom lo = true) :
    (m.write a v).read a' = if a' = a then v else m.read a' := by
  induction m generalizing lo with
  | nil => by_cases hv : v = unlistedByte <;> simp [Memory.write, Memory.read, hv]
  | cons c rest ih =>
    obtain ⟨x, u⟩ := c
    simp only [Memory.wfFrom, Bool.and_eq_true, decide_eq_true_eq] at hm
    obtain ⟨⟨hx, hu⟩, hr⟩ := hm
    rcases Nat.lt_trichotomy a x with h | h | h
    · by_cases hv : v = unlistedByte
      · simp only [Memory.write, h, hv, if_true, Memory.read]
        by_cases h' : a' = a
        · rw [if_pos h', if_neg (by omega), Memory.read_of_lt (lo := x + 1) (by omega) hr]
        · rw [if_neg h']
      · simp [Memory.write, h, hv, Memory.read]
    · subst h
      by_cases hv : v = unlistedByte
      · simp only [Memory.write, hv, lt_irrefl, if_false, if_true, Memory.read]
        split
        · subst a'; exact Memory.read_of_lt (Nat.lt_succ_self _) hr
        · rfl
      · simp only [Memory.write, hv, lt_irrefl, if_false, if_true, Memory.read]
        split <;> rfl
    · simp only [Memory.write, show ¬ a < x by omega, show a ≠ x by omega, if_false, Memory.read]
      rw [ih hr]
      by_cases h' : a' = x
      · simp [h', show x ≠ a by omega]
      · simp [h']

/-- What a byte reads as after a write. -/
theorem Memory.read_write {m : Memory} (a a' : Nat) (v : Byte) (hm : m.wf = true) :
    (m.write a v).read a' = if a' = a then v else m.read a' := Memory.read_write_from a a' v hm

/-! ## Bits -/

theorem setByteBit_getLsbD (v : Byte) (i j : Nat) (x : Bool) (hj : j < 8) :
    (setByteBit v i x).getLsbD j = if j = i then x else v.getLsbD j := by
  unfold setByteBit
  cases x <;> by_cases h : j = i
  · simp [h]
  · by_cases h' : j < i
    · simp [h, h', hj]
    · simp [h, h', hj, show ¬ (j - i = 0) by omega]
  · subst h; simp [hj]
  · by_cases h' : j < i
    · simp [h, h']
    · simp [h, show ¬ (j - i = 0) by omega]

/-- What a bit position reads as after a write. -/
theorem Memory.readBit_writeBit {m : Memory} (k k' : Nat) (x : Bool) (hm : m.wf = true) :
    (m.writeBit k x).readBit k' = if k' = k then x else m.readBit k' := by
  rw [Memory.readBit, Memory.writeBit, Memory.read_write _ _ _ hm]
  by_cases hb : k' / 8 = k / 8
  · rw [if_pos hb, setByteBit_getLsbD _ _ _ _ (by omega)]
    by_cases h : k' = k
    · simp [h]
    · rw [if_neg h, if_neg (by omega), Memory.readBit, hb]
  · rw [if_neg hb, if_neg (by rintro rfl; exact hb rfl), Memory.readBit]

theorem Memory.wf_writeBit {m : Memory} (k : Nat) (x : Bool) (hm : m.wf = true) : (m.writeBit k x).wf = true :=
  Memory.wf_write _ _ hm

theorem Memory.below_writeBit {m : Memory} {n k : Nat} (x : Bool) (hk : k < 8 * n) (hm : m.below n = true) :
    (m.writeBit k x).below n = true := Memory.below_write _ (by omega) hm

theorem Memory.wf_writeBits {m : Memory} (k : Nat) (xs : List Bool) (hm : m.wf = true) :
    (m.writeBits k xs).wf = true := by
  induction xs generalizing m k with
  | nil => exact hm
  | cons x xs ih => exact ih _ (Memory.wf_writeBit k x hm)

theorem Memory.below_writeBits {m : Memory} {n k : Nat} (xs : List Bool) (hk : k + xs.length ≤ 8 * n)
    (hm : m.below n = true) : (m.writeBits k xs).below n = true := by
  induction xs generalizing m k with
  | nil => exact hm
  | cons x xs ih =>
    rw [List.length_cons] at hk
    exact ih (by omega) (Memory.below_writeBit x (by omega) hm)

/-- A bit position outside the bits written keeps its bit. -/
theorem Memory.readBit_writeBits_of_outside {m : Memory} (k p : Nat) (xs : List Bool) (hm : m.wf = true)
    (hp : p < k ∨ k + xs.length ≤ p) : (m.writeBits k xs).readBit p = m.readBit p := by
  induction xs generalizing m k with
  | nil => rfl
  | cons x xs ih =>
    rw [List.length_cons] at hp
    rw [Memory.writeBits, ih (k + 1) (Memory.wf_writeBit k x hm) (by omega), Memory.readBit_writeBit _ _ _ hm,
      if_neg (by omega)]

/-- The bits written are read back. -/
theorem Memory.readBit_writeBits {m : Memory} (k j : Nat) (xs : List Bool) (hm : m.wf = true)
    (hj : j < xs.length) : (m.writeBits k xs).readBit (k + j) = xs[j] := by
  induction xs generalizing m k j with
  | nil => simp at hj
  | cons x xs ih =>
    rw [Memory.writeBits]
    cases j with
    | zero =>
      rw [Memory.readBit_writeBits_of_outside _ _ _ (Memory.wf_writeBit k x hm) (by omega)]
      simp [Memory.readBit_writeBit _ _ _ hm]
    | succ j =>
      rw [List.length_cons] at hj
      rw [show k + (j + 1) = k + 1 + j by omega, ih (k + 1) j (Memory.wf_writeBit k x hm) (by omega)]
      rfl

/-! ## Ranges of bits -/

@[simp] theorem Memory.length_readBits (m : Memory) (k n : Nat) : (m.readBits k n).length = n := by
  simp [Memory.readBits]

theorem Memory.getElem_readBits (m : Memory) (k n j : Nat) (h : j < (m.readBits k n).length) :
    (m.readBits k n)[j] = m.readBit (k + j) := by simp [Memory.readBits]

@[simp] theorem Memory.readBits_zero (m : Memory) (k : Nat) : m.readBits k 0 = [] := rfl

theorem Memory.readBits_succ (m : Memory) (k n : Nat) :
    m.readBits k (n + 1) = m.readBit k :: m.readBits (k + 1) n := by
  apply List.ext_getElem (by simp)
  intro j h₁ h₂
  cases j with
  | zero => simp [Memory.readBits]
  | succ j => simp [Memory.readBits, Nat.add_assoc, Nat.add_comm 1 j]

/-- A range of bits equals `xs` exactly when each of its bits does. -/
theorem Memory.readBits_eq_iff (m : Memory) (k : Nat) (xs : List Bool) :
    m.readBits k xs.length = xs ↔ ∀ j, (h : j < xs.length) → m.readBit (k + j) = xs[j] := by
  constructor
  · intro h j hj
    have := Memory.getElem_readBits m k xs.length j (by simpa using hj)
    rw [← this]
    simp only [h]
  · intro h
    apply List.ext_getElem (by simp)
    intro j _ h₂
    rw [Memory.getElem_readBits, h j h₂]

theorem Memory.readBits_writeBits {m : Memory} (k : Nat) (xs : List Bool) (hm : m.wf = true) :
    (m.writeBits k xs).readBits k xs.length = xs :=
  (Memory.readBits_eq_iff _ _ _).2 fun j hj => Memory.readBit_writeBits k j xs hm hj

theorem Memory.readBits_congr {m m' : Memory} {k n : Nat} (h : ∀ j, j < n → m.readBit (k + j) = m'.readBit (k + j)) :
    m.readBits k n = m'.readBits k n := by
  apply List.map_congr_left
  intro j hj
  exact h j (List.mem_range.1 hj)

theorem Memory.readBits_writeBits_of_outside {m : Memory} (k p n : Nat) (xs : List Bool) (hm : m.wf = true)
    (hp : p + n ≤ k ∨ k + xs.length ≤ p) : (m.writeBits k xs).readBits p n = m.readBits p n :=
  Memory.readBits_congr fun _ _ => Memory.readBit_writeBits_of_outside k _ xs hm (by omega)

end Sys2Proof.Machine
end

