-- ==== Sys2Proof/Laws/State.lean ====
section
/-! SUPPORT. One lemma per field per named update of State, each true by rfl, so that no proof unfolds a record
update. -/

namespace Sys2Proof.Machine

@[simp] theorem State.complete_params (s : State) (c : ResultCode) (r : Nat) :
    (s.complete c r).params = s.params := rfl
@[simp] theorem State.complete_cmd (s : State) (c : ResultCode) (r : Nat) : (s.complete c r).cmd = s.cmd := rfl
@[simp] theorem State.complete_pending (s : State) (c : ResultCode) (r : Nat) :
    (s.complete c r).pending = s.pending := rfl
@[simp] theorem State.complete_treeValid (s : State) (c : ResultCode) (r : Nat) :
    (s.complete c r).treeValid = s.treeValid := rfl
@[simp] theorem State.complete_codesValid (s : State) (c : ResultCode) (r : Nat) :
    (s.complete c r).codesValid = s.codesValid := rfl
@[simp] theorem State.complete_degen (s : State) (c : ResultCode) (r : Nat) :
    (s.complete c r).degen = s.degen := rfl
@[simp] theorem State.complete_last (s : State) (c : ResultCode) (r : Nat) : (s.complete c r).last = c := rfl
@[simp] theorem State.complete_result (s : State) (c : ResultCode) (r : Nat) :
    (s.complete c r).result = BitVec.ofNat 32 r := rfl
@[simp] theorem State.complete_sticky (s : State) (c : ResultCode) (r : Nat) :
    (s.complete c r).sticky = s.sticky ||| c.stickyBit := rfl
@[simp] theorem State.complete_nextFree (s : State) (c : ResultCode) (r : Nat) :
    (s.complete c r).nextFree = s.nextFree := rfl
@[simp] theorem State.complete_root (s : State) (c : ResultCode) (r : Nat) : (s.complete c r).root = s.root := rfl
@[simp] theorem State.complete_codeFill (s : State) (c : ResultCode) (r : Nat) :
    (s.complete c r).codeFill = s.codeFill := rfl
@[simp] theorem State.complete_sCur (s : State) (c : ResultCode) (r : Nat) : (s.complete c r).sCur = s.sCur := rfl
@[simp] theorem State.complete_sWlen (s : State) (c : ResultCode) (r : Nat) :
    (s.complete c r).sWlen = s.sWlen := rfl
@[simp] theorem State.complete_oCnt (s : State) (c : ResultCode) (r : Nat) : (s.complete c r).oCnt = s.oCnt := rfl
@[simp] theorem State.complete_freq (s : State) (c : ResultCode) (r : Nat) : (s.complete c r).freq = s.freq := rfl
@[simp] theorem State.complete_arena (s : State) (c : ResultCode) (r : Nat) :
    (s.complete c r).arena = s.arena := rfl
@[simp] theorem State.complete_codeTable (s : State) (c : ResultCode) (r : Nat) :
    (s.complete c r).codeTable = s.codeTable := rfl
@[simp] theorem State.complete_codebuf (s : State) (c : ResultCode) (r : Nat) :
    (s.complete c r).codebuf = s.codebuf := rfl
@[simp] theorem State.complete_stream (s : State) (c : ResultCode) (r : Nat) :
    (s.complete c r).stream = s.stream := rfl
@[simp] theorem State.complete_outbuf (s : State) (c : ResultCode) (r : Nat) :
    (s.complete c r).outbuf = s.outbuf := rfl
@[simp] theorem State.complete_port (s : State) (c : ResultCode) (r : Nat) : (s.complete c r).port = s.port := rfl

@[simp] theorem State.invalidate_params (s : State) : (s.invalidate).params = s.params := rfl
@[simp] theorem State.invalidate_cmd (s : State) : (s.invalidate).cmd = s.cmd := rfl
@[simp] theorem State.invalidate_pending (s : State) : (s.invalidate).pending = s.pending := rfl
@[simp] theorem State.invalidate_treeValid (s : State) : (s.invalidate).treeValid = false := rfl
@[simp] theorem State.invalidate_codesValid (s : State) : (s.invalidate).codesValid = false := rfl
@[simp] theorem State.invalidate_degen (s : State) : (s.invalidate).degen = false := rfl
@[simp] theorem State.invalidate_last (s : State) : (s.invalidate).last = s.last := rfl
@[simp] theorem State.invalidate_result (s : State) : (s.invalidate).result = s.result := rfl
@[simp] theorem State.invalidate_sticky (s : State) : (s.invalidate).sticky = s.sticky := rfl
@[simp] theorem State.invalidate_nextFree (s : State) : (s.invalidate).nextFree = s.nextFree := rfl
@[simp] theorem State.invalidate_root (s : State) : (s.invalidate).root = s.root := rfl
@[simp] theorem State.invalidate_codeFill (s : State) : (s.invalidate).codeFill = s.codeFill := rfl
@[simp] theorem State.invalidate_sCur (s : State) : (s.invalidate).sCur = s.sCur := rfl
@[simp] theorem State.invalidate_sWlen (s : State) : (s.invalidate).sWlen = s.sWlen := rfl
@[simp] theorem State.invalidate_oCnt (s : State) : (s.invalidate).oCnt = s.oCnt := rfl
@[simp] theorem State.invalidate_freq (s : State) : (s.invalidate).freq = s.freq := rfl
@[simp] theorem State.invalidate_arena (s : State) : (s.invalidate).arena = s.arena := rfl
@[simp] theorem State.invalidate_codeTable (s : State) : (s.invalidate).codeTable = s.codeTable := rfl
@[simp] theorem State.invalidate_codebuf (s : State) : (s.invalidate).codebuf = s.codebuf := rfl
@[simp] theorem State.invalidate_stream (s : State) : (s.invalidate).stream = s.stream := rfl
@[simp] theorem State.invalidate_outbuf (s : State) : (s.invalidate).outbuf = s.outbuf := rfl
@[simp] theorem State.invalidate_port (s : State) : (s.invalidate).port = s.port := rfl

@[simp] theorem State.setFreq_params (s : State) (b : Symbol) (n : Nat) : (s.setFreq b n).params = s.params := rfl
@[simp] theorem State.setFreq_cmd (s : State) (b : Symbol) (n : Nat) : (s.setFreq b n).cmd = s.cmd := rfl
@[simp] theorem State.setFreq_pending (s : State) (b : Symbol) (n : Nat) :
    (s.setFreq b n).pending = s.pending := rfl
@[simp] theorem State.setFreq_treeValid (s : State) (b : Symbol) (n : Nat) :
    (s.setFreq b n).treeValid = s.treeValid := rfl
@[simp] theorem State.setFreq_codesValid (s : State) (b : Symbol) (n : Nat) :
    (s.setFreq b n).codesValid = s.codesValid := rfl
@[simp] theorem State.setFreq_degen (s : State) (b : Symbol) (n : Nat) : (s.setFreq b n).degen = s.degen := rfl
@[simp] theorem State.setFreq_last (s : State) (b : Symbol) (n : Nat) : (s.setFreq b n).last = s.last := rfl
@[simp] theorem State.setFreq_result (s : State) (b : Symbol) (n : Nat) : (s.setFreq b n).result = s.result := rfl
@[simp] theorem State.setFreq_sticky (s : State) (b : Symbol) (n : Nat) : (s.setFreq b n).sticky = s.sticky := rfl
@[simp] theorem State.setFreq_nextFree (s : State) (b : Symbol) (n : Nat) :
    (s.setFreq b n).nextFree = s.nextFree := rfl
@[simp] theorem State.setFreq_root (s : State) (b : Symbol) (n : Nat) : (s.setFreq b n).root = s.root := rfl
@[simp] theorem State.setFreq_codeFill (s : State) (b : Symbol) (n : Nat) :
    (s.setFreq b n).codeFill = s.codeFill := rfl
@[simp] theorem State.setFreq_sCur (s : State) (b : Symbol) (n : Nat) : (s.setFreq b n).sCur = s.sCur := rfl
@[simp] theorem State.setFreq_sWlen (s : State) (b : Symbol) (n : Nat) : (s.setFreq b n).sWlen = s.sWlen := rfl
@[simp] theorem State.setFreq_oCnt (s : State) (b : Symbol) (n : Nat) : (s.setFreq b n).oCnt = s.oCnt := rfl
@[simp] theorem State.setFreq_freq (s : State) (b : Symbol) (n : Nat) :
    (s.setFreq b n).freq = s.freq.set b.toNat n b.isLt := rfl
@[simp] theorem State.setFreq_arena (s : State) (b : Symbol) (n : Nat) : (s.setFreq b n).arena = s.arena := rfl
@[simp] theorem State.setFreq_codeTable (s : State) (b : Symbol) (n : Nat) :
    (s.setFreq b n).codeTable = s.codeTable := rfl
@[simp] theorem State.setFreq_codebuf (s : State) (b : Symbol) (n : Nat) :
    (s.setFreq b n).codebuf = s.codebuf := rfl
@[simp] theorem State.setFreq_stream (s : State) (b : Symbol) (n : Nat) : (s.setFreq b n).stream = s.stream := rfl
@[simp] theorem State.setFreq_outbuf (s : State) (b : Symbol) (n : Nat) : (s.setFreq b n).outbuf = s.outbuf := rfl
@[simp] theorem State.setFreq_port (s : State) (b : Symbol) (n : Nat) : (s.setFreq b n).port = s.port := rfl

@[simp] theorem State.emit_params (s : State) (b : Symbol) (cur : Nat) : (s.emit b cur).params = s.params := rfl
@[simp] theorem State.emit_cmd (s : State) (b : Symbol) (cur : Nat) : (s.emit b cur).cmd = s.cmd := rfl
@[simp] theorem State.emit_pending (s : State) (b : Symbol) (cur : Nat) :
    (s.emit b cur).pending = s.pending := rfl
@[simp] theorem State.emit_treeValid (s : State) (b : Symbol) (cur : Nat) :
    (s.emit b cur).treeValid = s.treeValid := rfl
@[simp] theorem State.emit_codesValid (s : State) (b : Symbol) (cur : Nat) :
    (s.emit b cur).codesValid = s.codesValid := rfl
@[simp] theorem State.emit_degen (s : State) (b : Symbol) (cur : Nat) : (s.emit b cur).degen = s.degen := rfl
@[simp] theorem State.emit_last (s : State) (b : Symbol) (cur : Nat) : (s.emit b cur).last = s.last := rfl
@[simp] theorem State.emit_result (s : State) (b : Symbol) (cur : Nat) : (s.emit b cur).result = s.result := rfl
@[simp] theorem State.emit_sticky (s : State) (b : Symbol) (cur : Nat) : (s.emit b cur).sticky = s.sticky := rfl
@[simp] theorem State.emit_nextFree (s : State) (b : Symbol) (cur : Nat) :
    (s.emit b cur).nextFree = s.nextFree := rfl
@[simp] theorem State.emit_root (s : State) (b : Symbol) (cur : Nat) : (s.emit b cur).root = s.root := rfl
@[simp] theorem State.emit_codeFill (s : State) (b : Symbol) (cur : Nat) :
    (s.emit b cur).codeFill = s.codeFill := rfl
@[simp] theorem State.emit_sCur (s : State) (b : Symbol) (cur : Nat) : (s.emit b cur).sCur = cur := rfl
@[simp] theorem State.emit_sWlen (s : State) (b : Symbol) (cur : Nat) : (s.emit b cur).sWlen = s.sWlen := rfl
@[simp] theorem State.emit_oCnt (s : State) (b : Symbol) (cur : Nat) : (s.emit b cur).oCnt = s.oCnt + 1 := rfl
@[simp] theorem State.emit_freq (s : State) (b : Symbol) (cur : Nat) : (s.emit b cur).freq = s.freq := rfl
@[simp] theorem State.emit_arena (s : State) (b : Symbol) (cur : Nat) : (s.emit b cur).arena = s.arena := rfl
@[simp] theorem State.emit_codeTable (s : State) (b : Symbol) (cur : Nat) :
    (s.emit b cur).codeTable = s.codeTable := rfl
@[simp] theorem State.emit_codebuf (s : State) (b : Symbol) (cur : Nat) :
    (s.emit b cur).codebuf = s.codebuf := rfl
@[simp] theorem State.emit_stream (s : State) (b : Symbol) (cur : Nat) : (s.emit b cur).stream = s.stream := rfl
@[simp] theorem State.emit_outbuf (s : State) (b : Symbol) (cur : Nat) :
    (s.emit b cur).outbuf = s.outbuf.write s.oCnt b := rfl
@[simp] theorem State.emit_port (s : State) (b : Symbol) (cur : Nat) : (s.emit b cur).port = s.port := rfl

@[simp] theorem State.streamWrite_params (s : State) (x : Bool) : (s.streamWrite x).params = s.params := rfl
@[simp] theorem State.streamWrite_cmd (s : State) (x : Bool) : (s.streamWrite x).cmd = s.cmd := rfl
@[simp] theorem State.streamWrite_pending (s : State) (x : Bool) : (s.streamWrite x).pending = s.pending := rfl
@[simp] theorem State.streamWrite_treeValid (s : State) (x : Bool) :
    (s.streamWrite x).treeValid = s.treeValid := rfl
@[simp] theorem State.streamWrite_codesValid (s : State) (x : Bool) :
    (s.streamWrite x).codesValid = s.codesValid := rfl
@[simp] theorem State.streamWrite_degen (s : State) (x : Bool) : (s.streamWrite x).degen = s.degen := rfl
@[simp] theorem State.streamWrite_last (s : State) (x : Bool) : (s.streamWrite x).last = s.last := rfl
@[simp] theorem State.streamWrite_result (s : State) (x : Bool) : (s.streamWrite x).result = s.result := rfl
@[simp] theorem State.streamWrite_sticky (s : State) (x : Bool) : (s.streamWrite x).sticky = s.sticky := rfl
@[simp] theorem State.streamWrite_nextFree (s : State) (x : Bool) : (s.streamWrite x).nextFree = s.nextFree := rfl
@[simp] theorem State.streamWrite_root (s : State) (x : Bool) : (s.streamWrite x).root = s.root := rfl
@[simp] theorem State.streamWrite_codeFill (s : State) (x : Bool) : (s.streamWrite x).codeFill = s.codeFill := rfl
@[simp] theorem State.streamWrite_sCur (s : State) (x : Bool) : (s.streamWrite x).sCur = s.sCur + 1 := rfl
@[simp] theorem State.streamWrite_sWlen (s : State) (x : Bool) :
    (s.streamWrite x).sWlen = max s.sWlen (s.sCur + 1) := rfl
@[simp] theorem State.streamWrite_oCnt (s : State) (x : Bool) : (s.streamWrite x).oCnt = s.oCnt := rfl
@[simp] theorem State.streamWrite_freq (s : State) (x : Bool) : (s.streamWrite x).freq = s.freq := rfl
@[simp] theorem State.streamWrite_arena (s : State) (x : Bool) : (s.streamWrite x).arena = s.arena := rfl
@[simp] theorem State.streamWrite_codeTable (s : State) (x : Bool) :
    (s.streamWrite x).codeTable = s.codeTable := rfl
@[simp] theorem State.streamWrite_codebuf (s : State) (x : Bool) : (s.streamWrite x).codebuf = s.codebuf := rfl
@[simp] theorem State.streamWrite_stream (s : State) (x : Bool) :
    (s.streamWrite x).stream = s.stream.writeBit s.sCur x := rfl
@[simp] theorem State.streamWrite_outbuf (s : State) (x : Bool) : (s.streamWrite x).outbuf = s.outbuf := rfl
@[simp] theorem State.streamWrite_port (s : State) (x : Bool) : (s.streamWrite x).port = s.port := rfl

@[simp] theorem State.streamAdvance_params (s : State) : (s.streamAdvance).params = s.params := rfl
@[simp] theorem State.streamAdvance_cmd (s : State) : (s.streamAdvance).cmd = s.cmd := rfl
@[simp] theorem State.streamAdvance_pending (s : State) : (s.streamAdvance).pending = s.pending := rfl
@[simp] theorem State.streamAdvance_treeValid (s : State) : (s.streamAdvance).treeValid = s.treeValid := rfl
@[simp] theorem State.streamAdvance_codesValid (s : State) : (s.streamAdvance).codesValid = s.codesValid := rfl
@[simp] theorem State.streamAdvance_degen (s : State) : (s.streamAdvance).degen = s.degen := rfl
@[simp] theorem State.streamAdvance_last (s : State) : (s.streamAdvance).last = s.last := rfl
@[simp] theorem State.streamAdvance_result (s : State) : (s.streamAdvance).result = s.result := rfl
@[simp] theorem State.streamAdvance_sticky (s : State) : (s.streamAdvance).sticky = s.sticky := rfl
@[simp] theorem State.streamAdvance_nextFree (s : State) : (s.streamAdvance).nextFree = s.nextFree := rfl
@[simp] theorem State.streamAdvance_root (s : State) : (s.streamAdvance).root = s.root := rfl
@[simp] theorem State.streamAdvance_codeFill (s : State) : (s.streamAdvance).codeFill = s.codeFill := rfl
@[simp] theorem State.streamAdvance_sCur (s : State) : (s.streamAdvance).sCur = s.sCur + 1 := rfl
@[simp] theorem State.streamAdvance_sWlen (s : State) : (s.streamAdvance).sWlen = s.sWlen := rfl
@[simp] theorem State.streamAdvance_oCnt (s : State) : (s.streamAdvance).oCnt = s.oCnt := rfl
@[simp] theorem State.streamAdvance_freq (s : State) : (s.streamAdvance).freq = s.freq := rfl
@[simp] theorem State.streamAdvance_arena (s : State) : (s.streamAdvance).arena = s.arena := rfl
@[simp] theorem State.streamAdvance_codeTable (s : State) : (s.streamAdvance).codeTable = s.codeTable := rfl
@[simp] theorem State.streamAdvance_codebuf (s : State) : (s.streamAdvance).codebuf = s.codebuf := rfl
@[simp] theorem State.streamAdvance_stream (s : State) : (s.streamAdvance).stream = s.stream := rfl
@[simp] theorem State.streamAdvance_outbuf (s : State) : (s.streamAdvance).outbuf = s.outbuf := rfl
@[simp] theorem State.streamAdvance_port (s : State) : (s.streamAdvance).port = s.port := rfl

@[simp] theorem State.initBuild_params (s : State) : (s.initBuild).params = s.params := rfl
@[simp] theorem State.initBuild_cmd (s : State) : (s.initBuild).cmd = s.cmd := rfl
@[simp] theorem State.initBuild_pending (s : State) : (s.initBuild).pending = s.pending := rfl
@[simp] theorem State.initBuild_treeValid (s : State) : (s.initBuild).treeValid = false := rfl
@[simp] theorem State.initBuild_codesValid (s : State) : (s.initBuild).codesValid = false := rfl
@[simp] theorem State.initBuild_degen (s : State) : (s.initBuild).degen = false := rfl
@[simp] theorem State.initBuild_last (s : State) : (s.initBuild).last = s.last := rfl
@[simp] theorem State.initBuild_result (s : State) : (s.initBuild).result = s.result := rfl
@[simp] theorem State.initBuild_sticky (s : State) : (s.initBuild).sticky = s.sticky := rfl
@[simp] theorem State.initBuild_nextFree (s : State) : (s.initBuild).nextFree = 256 := rfl
@[simp] theorem State.initBuild_root (s : State) : (s.initBuild).root = none := rfl
@[simp] theorem State.initBuild_codeFill (s : State) : (s.initBuild).codeFill = s.codeFill := rfl
@[simp] theorem State.initBuild_sCur (s : State) : (s.initBuild).sCur = s.sCur := rfl
@[simp] theorem State.initBuild_sWlen (s : State) : (s.initBuild).sWlen = s.sWlen := rfl
@[simp] theorem State.initBuild_oCnt (s : State) : (s.initBuild).oCnt = s.oCnt := rfl
@[simp] theorem State.initBuild_freq (s : State) : (s.initBuild).freq = s.freq := rfl
@[simp] theorem State.initBuild_arena (s : State) : (s.initBuild).arena = freshArena s.freq := rfl
@[simp] theorem State.initBuild_codeTable (s : State) : (s.initBuild).codeTable = s.codeTable := rfl
@[simp] theorem State.initBuild_codebuf (s : State) : (s.initBuild).codebuf = s.codebuf := rfl
@[simp] theorem State.initBuild_stream (s : State) : (s.initBuild).stream = s.stream := rfl
@[simp] theorem State.initBuild_outbuf (s : State) : (s.initBuild).outbuf = s.outbuf := rfl
@[simp] theorem State.initBuild_port (s : State) : (s.initBuild).port = s.port := rfl

@[simp] theorem State.take_params (s : State) (rest : List HostAccess) : (s.take rest).params = s.params := rfl
@[simp] theorem State.take_cmd (s : State) (rest : List HostAccess) : (s.take rest).cmd = s.cmd := rfl
@[simp] theorem State.take_pending (s : State) (rest : List HostAccess) : (s.take rest).pending = s.pending := rfl
@[simp] theorem State.take_treeValid (s : State) (rest : List HostAccess) :
    (s.take rest).treeValid = s.treeValid := rfl
@[simp] theorem State.take_codesValid (s : State) (rest : List HostAccess) :
    (s.take rest).codesValid = s.codesValid := rfl
@[simp] theorem State.take_degen (s : State) (rest : List HostAccess) : (s.take rest).degen = s.degen := rfl
@[simp] theorem State.take_last (s : State) (rest : List HostAccess) : (s.take rest).last = s.last := rfl
@[simp] theorem State.take_result (s : State) (rest : List HostAccess) : (s.take rest).result = s.result := rfl
@[simp] theorem State.take_sticky (s : State) (rest : List HostAccess) : (s.take rest).sticky = s.sticky := rfl
@[simp] theorem State.take_nextFree (s : State) (rest : List HostAccess) :
    (s.take rest).nextFree = s.nextFree := rfl
@[simp] theorem State.take_root (s : State) (rest : List HostAccess) : (s.take rest).root = s.root := rfl
@[simp] theorem State.take_codeFill (s : State) (rest : List HostAccess) :
    (s.take rest).codeFill = s.codeFill := rfl
@[simp] theorem State.take_sCur (s : State) (rest : List HostAccess) : (s.take rest).sCur = s.sCur := rfl
@[simp] theorem State.take_sWlen (s : State) (rest : List HostAccess) : (s.take rest).sWlen = s.sWlen := rfl
@[simp] theorem State.take_oCnt (s : State) (rest : List HostAccess) : (s.take rest).oCnt = s.oCnt := rfl
@[simp] theorem State.take_freq (s : State) (rest : List HostAccess) : (s.take rest).freq = s.freq := rfl
@[simp] theorem State.take_arena (s : State) (rest : List HostAccess) : (s.take rest).arena = s.arena := rfl
@[simp] theorem State.take_codeTable (s : State) (rest : List HostAccess) :
    (s.take rest).codeTable = s.codeTable := rfl
@[simp] theorem State.take_codebuf (s : State) (rest : List HostAccess) : (s.take rest).codebuf = s.codebuf := rfl
@[simp] theorem State.take_stream (s : State) (rest : List HostAccess) : (s.take rest).stream = s.stream := rfl
@[simp] theorem State.take_outbuf (s : State) (rest : List HostAccess) : (s.take rest).outbuf = s.outbuf := rfl
@[simp] theorem State.take_port (s : State) (rest : List HostAccess) :
    (s.take rest).port = { s.port with requests := rest } := rfl

@[simp] theorem State.answer_params (s : State) (w : Word) : (s.answer w).params = s.params := rfl
@[simp] theorem State.answer_cmd (s : State) (w : Word) : (s.answer w).cmd = s.cmd := rfl
@[simp] theorem State.answer_pending (s : State) (w : Word) : (s.answer w).pending = s.pending := rfl
@[simp] theorem State.answer_treeValid (s : State) (w : Word) : (s.answer w).treeValid = s.treeValid := rfl
@[simp] theorem State.answer_codesValid (s : State) (w : Word) : (s.answer w).codesValid = s.codesValid := rfl
@[simp] theorem State.answer_degen (s : State) (w : Word) : (s.answer w).degen = s.degen := rfl
@[simp] theorem State.answer_last (s : State) (w : Word) : (s.answer w).last = s.last := rfl
@[simp] theorem State.answer_result (s : State) (w : Word) : (s.answer w).result = s.result := rfl
@[simp] theorem State.answer_sticky (s : State) (w : Word) : (s.answer w).sticky = s.sticky := rfl
@[simp] theorem State.answer_nextFree (s : State) (w : Word) : (s.answer w).nextFree = s.nextFree := rfl
@[simp] theorem State.answer_root (s : State) (w : Word) : (s.answer w).root = s.root := rfl
@[simp] theorem State.answer_codeFill (s : State) (w : Word) : (s.answer w).codeFill = s.codeFill := rfl
@[simp] theorem State.answer_sCur (s : State) (w : Word) : (s.answer w).sCur = s.sCur := rfl
@[simp] theorem State.answer_sWlen (s : State) (w : Word) : (s.answer w).sWlen = s.sWlen := rfl
@[simp] theorem State.answer_oCnt (s : State) (w : Word) : (s.answer w).oCnt = s.oCnt := rfl
@[simp] theorem State.answer_freq (s : State) (w : Word) : (s.answer w).freq = s.freq := rfl
@[simp] theorem State.answer_arena (s : State) (w : Word) : (s.answer w).arena = s.arena := rfl
@[simp] theorem State.answer_codeTable (s : State) (w : Word) : (s.answer w).codeTable = s.codeTable := rfl
@[simp] theorem State.answer_codebuf (s : State) (w : Word) : (s.answer w).codebuf = s.codebuf := rfl
@[simp] theorem State.answer_stream (s : State) (w : Word) : (s.answer w).stream = s.stream := rfl
@[simp] theorem State.answer_outbuf (s : State) (w : Word) : (s.answer w).outbuf = s.outbuf := rfl
@[simp] theorem State.answer_port (s : State) (w : Word) :
    (s.answer w).port = { s.port with lastRead := some w } := rfl

@[simp] theorem State.issue_params (s : State) (w : Word) : (s.issue w).params = s.params := rfl
@[simp] theorem State.issue_cmd (s : State) (w : Word) : (s.issue w).cmd = w := rfl
@[simp] theorem State.issue_pending (s : State) (w : Word) : (s.issue w).pending = true := rfl
@[simp] theorem State.issue_treeValid (s : State) (w : Word) : (s.issue w).treeValid = s.treeValid := rfl
@[simp] theorem State.issue_codesValid (s : State) (w : Word) : (s.issue w).codesValid = s.codesValid := rfl
@[simp] theorem State.issue_degen (s : State) (w : Word) : (s.issue w).degen = s.degen := rfl
@[simp] theorem State.issue_last (s : State) (w : Word) : (s.issue w).last = s.last := rfl
@[simp] theorem State.issue_result (s : State) (w : Word) : (s.issue w).result = s.result := rfl
@[simp] theorem State.issue_sticky (s : State) (w : Word) : (s.issue w).sticky = s.sticky := rfl
@[simp] theorem State.issue_nextFree (s : State) (w : Word) : (s.issue w).nextFree = s.nextFree := rfl
@[simp] theorem State.issue_root (s : State) (w : Word) : (s.issue w).root = s.root := rfl
@[simp] theorem State.issue_codeFill (s : State) (w : Word) : (s.issue w).codeFill = s.codeFill := rfl
@[simp] theorem State.issue_sCur (s : State) (w : Word) : (s.issue w).sCur = s.sCur := rfl
@[simp] theorem State.issue_sWlen (s : State) (w : Word) : (s.issue w).sWlen = s.sWlen := rfl
@[simp] theorem State.issue_oCnt (s : State) (w : Word) : (s.issue w).oCnt = s.oCnt := rfl
@[simp] theorem State.issue_freq (s : State) (w : Word) : (s.issue w).freq = s.freq := rfl
@[simp] theorem State.issue_arena (s : State) (w : Word) : (s.issue w).arena = s.arena := rfl
@[simp] theorem State.issue_codeTable (s : State) (w : Word) : (s.issue w).codeTable = s.codeTable := rfl
@[simp] theorem State.issue_codebuf (s : State) (w : Word) : (s.issue w).codebuf = s.codebuf := rfl
@[simp] theorem State.issue_stream (s : State) (w : Word) : (s.issue w).stream = s.stream := rfl
@[simp] theorem State.issue_outbuf (s : State) (w : Word) : (s.issue w).outbuf = s.outbuf := rfl
@[simp] theorem State.issue_port (s : State) (w : Word) : (s.issue w).port = s.port := rfl

end Sys2Proof.Machine
end

