-- ==== Sys2Proof/Laws/Stream.lean ====
section
/-! SUPPORT. Everything the stream primitives, the tables' accessors and the end of a command can do (R15, R23, R170,
R232). -/

namespace Sys2Proof.Machine

/-! ## Appending bits -/

theorem State.streamWriteBits_nil (s : State) : s.streamWriteBits [] = s := rfl

theorem State.streamWriteBits_cons (s : State) (x : Bool) (xs : List Bool) :
    s.streamWriteBits (x :: xs) = (s.streamWrite x).streamWriteBits xs := rfl

/-- Appending bits writes them from the cursor on, moves the cursor past them and raises the high-water mark. -/
theorem State.streamWriteBits_eq (s : State) (xs : List Bool) (h : xs ≠ [] ∨ s.sCur ≤ s.sWlen) :
    s.streamWriteBits xs = { s with
      stream := s.stream.writeBits s.sCur xs
      sCur := s.sCur + xs.length
      sWlen := max s.sWlen (s.sCur + xs.length) } := by
  induction xs generalizing s with
  | nil =>
    have h : s.sCur ≤ s.sWlen := by simpa using h
    simp [State.streamWriteBits_nil, Memory.writeBits, Nat.max_eq_left h]
  | cons x xs ih =>
    rw [State.streamWriteBits_cons, ih _ (by simp)]
    simp only [State.streamWrite, Memory.writeBits, List.length_cons]
    congr 1
    · omega
    · omega

@[simp] theorem length_swbitsBits (k : BitVec 5) (v : BitVec 16) : (swbitsBits k v).length = k.toNat := by
  simp [swbitsBits]

theorem getElem_swbitsBits (k : BitVec 5) (v : BitVec 16) (j : Nat) (h : j < (swbitsBits k v).length) :
    (swbitsBits k v)[j] = v.getLsbD (k.toNat - 1 - j) := by simp [swbitsBits]

@[simp] theorem State.length_codeBitsOf (s : State) (b : Symbol) : (s.codeBitsOf b).length = (s.codeAt b).len := by
  simp [State.codeBitsOf]

/-! ## Tables -/

theorem State.freqAt_setFreq (s : State) (b c : Symbol) (n : Nat) :
    (s.setFreq b n).freqAt c = if c = b then n else s.freqAt c := by
  simp only [State.freqAt, State.setFreq, Vector.getElem_set]
  by_cases h : c = b
  · simp [h]
  · have : b.toNat ≠ c.toNat := fun e => h (BitVec.eq_of_toNat_eq e.symm)
    simp [h, this]

theorem State.freqAt_congr {s t : State} (h : t.freq = s.freq) (b : Symbol) : t.freqAt b = s.freqAt b := by
  simp only [State.freqAt, h]

theorem State.codeAt_congr {s t : State} (h : t.codeTable = s.codeTable) (b : Symbol) : t.codeAt b = s.codeAt b := by
  simp only [State.codeAt, h]

@[simp] theorem symbolLeaf_val (b : Symbol) : (symbolLeaf b).val = b.toNat := rfl

theorem symbolLeaf_inj {b c : Symbol} (h : symbolLeaf b = symbolLeaf c) : b = c :=
  BitVec.eq_of_toNat_eq (show (symbolLeaf b).val = (symbolLeaf c).val by rw [h])

theorem leafSymbol_symbolLeaf (b : Symbol) : leafSymbol (symbolLeaf b) = some b := by
  have := b.isLt
  rw [leafSymbol, if_pos (by simp; omega)]
  simp

theorem leafSymbol_eq_some {i : Fin 511} {b : Symbol} : leafSymbol i = some b ↔ i = symbolLeaf b := by
  constructor
  · intro h
    unfold leafSymbol at h
    split at h
    · rename_i hi
      obtain rfl := Option.some.inj h
      apply Fin.ext
      simp only [symbolLeaf_val, BitVec.toNat_ofNat]
      omega
    · simp at h
  · rintro rfl
    exact leafSymbol_symbolLeaf b

theorem leafSymbol_of_lt {i : Fin 511} (h : i.val < 256) : ∃ b, leafSymbol i = some b ∧ i = symbolLeaf b := by
  have : leafSymbol i = some (BitVec.ofNat 8 i.val) := by rw [leafSymbol, if_pos h]
  exact ⟨_, this, leafSymbol_eq_some.1 this⟩

/-! ## The end of a command -/

/-- A finished command answers, with LAST = OK, its RESULT, and everything else as it was. -/
theorem finish_eq (s : State) (r : Nat) :
    finish s r = .next { s with last := .ok, result := BitVec.ofNat 32 r } := by
  simp [finish, State.complete, ResultCode.stickyBit]

/-- A raised error answers, with its code, RESULT and STICKY bit, and everything else as it was. -/
theorem raise_eq (s : State) (c : ResultCode) (r : Nat) :
    raise s c r = .next { s with
      last := c, result := BitVec.ofNat 32 r, sticky := s.sticky ||| c.stickyBit } := rfl

theorem finish_next {s t : State} {r : Nat} (h : finish s r = .next t) : t = s.complete .ok r :=
  (Host.Outcome.next.inj h).symm

theorem raise_next {s t : State} {c : ResultCode} {r : Nat} (h : raise s c r = .next t) : t = s.complete c r :=
  (Host.Outcome.next.inj h).symm

end Sys2Proof.Machine
end

