-- ==== Sys2Proof/Laws/Tree.lean ====
section
/-! SUPPORT. Paths in an arena: what `follow` does, and how deep and how unique paths are (R29, R158, R160). -/

namespace Sys2Proof.Machine

theorem Node.left_eq {nd : Node} {c : Fin 511} : nd.left = some c ↔ ∃ r, nd.children = some (c, r) := by
  cases h : nd.children with
  | none => simp [Node.left, h]
  | some p => obtain ⟨l, r⟩ := p; simp [Node.left, h]

theorem Node.right_eq {nd : Node} {c : Fin 511} : nd.right = some c ↔ ∃ l, nd.children = some (l, c) := by
  cases h : nd.children with
  | none => simp [Node.right, h]
  | some p => obtain ⟨l, r⟩ := p; simp [Node.right, h]

theorem Arena.childOf_iff {a : Arena} {c i : Fin 511} :
    a.childOf c i ↔ ∃ l r, a[i].children = some (l, r) ∧ (c = l ∨ c = r) := by
  simp only [Arena.childOf, Node.left_eq, Node.right_eq]
  constructor
  · rintro (⟨r, h⟩ | ⟨l, h⟩)
    · exact ⟨c, r, h, .inl rfl⟩
    · exact ⟨l, c, h, .inr rfl⟩
  · rintro ⟨l, r, h, rfl | rfl⟩
    · exact .inl ⟨r, h⟩
    · exact .inr ⟨l, h⟩

theorem Arena.follow_nil (a : Arena) (i : Fin 511) : a.follow i [] = some i := rfl

theorem Arena.follow_cons {a : Arena} {i c : Fin 511} {x : Bool} {xs : List Bool} :
    a.follow i (x :: xs) = some c ↔
      ∃ l r, a[i].children = some (l, r) ∧ a.follow (if x then r else l) xs = some c := by
  rw [Arena.follow]
  cases h : a[i].children with
  | none => simp
  | some p => obtain ⟨l, r⟩ := p; simp

theorem Arena.follow_append {a : Arena} {i : Fin 511} (xs ys : List Bool) :
    a.follow i (xs ++ ys) = (a.follow i xs).bind fun k => a.follow k ys := by
  induction xs generalizing i with
  | nil => rfl
  | cons x xs ih =>
    rw [List.cons_append, Arena.follow, Arena.follow]
    cases a[i].children with
    | none => rfl
    | some p => obtain ⟨l, r⟩ := p; exact ih

theorem Arena.follow_snoc {a : Arena} {i c : Fin 511} {xs : List Bool} {x : Bool} :
    a.follow i (xs ++ [x]) = some c ↔
      ∃ k l r, a.follow i xs = some k ∧ a[k].children = some (l, r) ∧ c = if x then r else l := by
  rw [Arena.follow_append]
  constructor
  · intro h
    obtain ⟨k, hk, h⟩ := Option.bind_eq_some_iff.1 h
    obtain ⟨l, r, hc, h⟩ := Arena.follow_cons.1 h
    rw [Arena.follow_nil] at h
    exact ⟨k, l, r, hk, hc, (Option.some.inj h).symm⟩
  · rintro ⟨k, l, r, hk, hc, rfl⟩
    rw [hk]
    exact Arena.follow_cons.2 ⟨l, r, hc, rfl⟩

/-- A path that goes on through a node shows the node is internal. -/
theorem Arena.follow_leaf_end {a : Arena} {i c d : Fin 511} {xs ys : List Bool} (h : a.follow i xs = some c)
    (hc : a[c].children = none) (h' : a.follow i (xs ++ ys) = some d) : ys = [] := by
  rw [Arena.follow_append, h] at h'
  cases ys with
  | nil => rfl
  | cons y ys =>
    obtain ⟨l, r, hch, _⟩ := Arena.follow_cons.1 h'
    rw [hc] at hch
    exact absurd hch (by simp)

/-- What the walks need of an arena: children have lower indices and only slots from 256 on have children. -/
structure Arena.Descends (a : Arena) : Prop where
  high : ∀ i l r : Fin 511, a[i].children = some (l, r) → 256 ≤ i.val
  below : ∀ i l r : Fin 511, a[i].children = some (l, r) → l < i ∧ r < i

theorem Arena.Descends.child_lt {a : Arena} (h : a.Descends) {i l r : Fin 511}
    (hc : a[i].children = some (l, r)) (x : Bool) : (if x then r else l) < i := by
  cases x
  · exact (h.below i l r hc).1
  · exact (h.below i l r hc).2

/-- A path of `n` steps starts at index `255 + n` or more. -/
theorem Arena.Descends.path_length {a : Arena} (h : a.Descends) {i c : Fin 511} {xs : List Bool}
    (hf : a.follow i xs = some c) : xs = [] ∨ 256 + xs.length ≤ i.val + 1 := by
  induction xs generalizing i with
  | nil => exact .inl rfl
  | cons x xs ih =>
    obtain ⟨l, r, hc, hf⟩ := Arena.follow_cons.1 hf
    have h₁ := h.high i l r hc
    have h₂ := Fin.lt_def.1 (h.child_lt hc x)
    right
    rw [List.length_cons]
    rcases ih hf with rfl | h₃
    · simp; omega
    · omega

theorem Arena.Descends.follow_le {a : Arena} (h : a.Descends) {i c : Fin 511} {xs : List Bool}
    (hf : a.follow i xs = some c) : c.val + xs.length ≤ i.val := by
  induction xs generalizing i with
  | nil => rw [Arena.follow_nil] at hf; obtain rfl := Option.some.inj hf; simp
  | cons x xs ih =>
    obtain ⟨l, r, hc, hf⟩ := Arena.follow_cons.1 hf
    have h₂ := Fin.lt_def.1 (h.child_lt hc x)
    have := ih hf
    rw [List.length_cons]
    omega

/-- In a descending arena where no node has two parents, two paths from one node to one node are the same path. -/
theorem Arena.Descends.path_unique {a : Arena} (h : a.Descends)
    (one : ∀ c i j : Fin 511, a.childOf c i → a.childOf c j → i = j)
    (two : ∀ i l r : Fin 511, a[i].children = some (l, r) → l ≠ r) {i : Fin 511} (xs ys : List Bool) :
    ∀ c, a.follow i xs = some c → a.follow i ys = some c → xs = ys := by
  induction xs using List.reverseRecOn generalizing ys with
  | nil =>
    intro c hx hy
    rw [Arena.follow_nil] at hx
    obtain rfl := Option.some.inj hx
    have := h.follow_le hy
    exact (List.length_eq_zero_iff.1 (by omega)).symm
  | append_singleton xs x ih =>
    intro c hx hy
    rcases List.eq_nil_or_concat' ys with rfl | ⟨ys', y, rfl⟩
    · rw [Arena.follow_nil] at hy
      obtain rfl := Option.some.inj hy
      have := h.follow_le hx
      simp at this
    · obtain ⟨k, l, r, hk, hkc, hc⟩ := Arena.follow_snoc.1 hx
      obtain ⟨k', l', r', hk', hkc', hc'⟩ := Arena.follow_snoc.1 hy
      have e : k = k' := one c k k'
        (Arena.childOf_iff.2 ⟨l, r, hkc, by cases x <;> simp [hc]⟩)
        (Arena.childOf_iff.2 ⟨l', r', hkc', by cases y <;> simp [hc']⟩)
      subst e
      rw [hkc] at hkc'
      obtain ⟨rfl, rfl⟩ := Prod.mk.inj (Option.some.inj hkc')
      have hxy : x = y := by
        have hne := two k l r hkc
        cases x <;> cases y <;> simp_all
      rw [ih ys' k hk hk', hxy]

end Sys2Proof.Machine
end

