-- ==== Sys2Proof/Laws/Build.lean ====
section
/-! SUPPORT. What BUILD's merge loop does (R131 to R138): the invariant of the loop, and the arena it ends with. -/

namespace Sys2Proof.Machine

/-! ## Sums over the arena -/

/-- A sum over all slots. -/
def tally (g : Node → Nat) (a : Arena) : Nat := (a.toList.map g).sum

theorem sum_map_set {α : Type} (g : α → Nat) (l : List α) (n : Nat) (x : α) (h : n < l.length) :
    ((l.set n x).map g).sum + g l[n] = (l.map g).sum + g x := by
  induction l generalizing n with
  | nil => simp at h
  | cons y ys ih =>
    cases n with
    | zero => simp; omega
    | succ n =>
      have := ih n (by simpa using h)
      simp only [List.set_cons_succ, List.map_cons, List.sum_cons, List.getElem_cons_succ]
      omega

theorem tally_set (g : Node → Nat) (a : Arena) (i : Fin 511) (x : Node) :
    tally g (a.set i.val x i.isLt) + g a[i] = tally g a + g x := by
  have h : i.val < a.toList.length := by simp
  have := sum_map_set g a.toList i.val x h
  rw [show a.toList[i.val] = a[i] by simp] at this
  rw [tally, Vector.toList_set]
  exact this

theorem sum_map_eq_zero {α : Type} (g : α → Nat) (l : List α) (h : ∀ x ∈ l, g x = 0) : (l.map g).sum = 0 := by
  induction l with
  | nil => rfl
  | cons x xs ih =>
    rw [List.map_cons, List.sum_cons, h x (by simp), ih fun y hy => h y (by simp [hy])]

theorem le_sum_map {α : Type} (g : α → Nat) (l : List α) (n : Nat) (h : n < l.length) :
    g l[n] ≤ (l.map g).sum := by
  induction l generalizing n with
  | nil => simp at h
  | cons x xs ih =>
    cases n with
    | zero => simp
    | succ n =>
      have := ih n (by simpa using h)
      simp only [List.getElem_cons_succ, List.map_cons, List.sum_cons]
      omega

theorem le_tally (g : Node → Nat) (a : Arena) (i : Fin 511) : g a[i] ≤ tally g a := by
  have h : i.val < a.toList.length := by simp
  have := le_sum_map g a.toList i.val h
  simpa [tally] using this

theorem tally_eq_zero {g : Node → Nat} {a : Arena} (h : ∀ i : Fin 511, g a[i] = 0) : tally g a = 0 := by
  apply sum_map_eq_zero
  intro x hx
  obtain ⟨n, hn, rfl⟩ := List.getElem_of_mem hx
  have hn' : n < 511 := by simpa using hn
  simpa using h ⟨n, hn'⟩

/-- The weight of an active slot, 0 for any other. -/
def liveWeight (nd : Node) : Nat := if nd.active then nd.weight else 0

/-- 1 for an active slot, 0 for any other. -/
def liveOne (nd : Node) : Nat := if nd.active then 1 else 0

/-- How many counts are nonzero. -/
def countNonzero (freq : Vector Nat 256) : Nat := (freq.toList.filter fun n => decide (n ≠ 0)).length

theorem countNonzero_le (freq : Vector Nat 256) : countNonzero freq ≤ 256 := by
  have := List.length_filter_le (fun n => decide (n ≠ 0)) freq.toList
  simpa [countNonzero] using this

/-! ## Slots after a write -/

theorem getElem_set_slot (a : Arena) (i j : Fin 511) (x : Node) :
    (a.set i.val x i.isLt)[j] = if j = i then x else a[j] := by
  simp only [Fin.getElem_fin, Vector.getElem_set, Fin.ext_iff, eq_comm]

theorem getElem_consume (a : Arena) (i j : Fin 511) :
    (a.consume i)[j] = if j = i then { a[i] with consumed := true } else a[j] := getElem_set_slot ..

theorem consume_children (a : Arena) (i j : Fin 511) : (a.consume i)[j].children = a[j].children := by
  rw [getElem_consume]; split
  · next h => rw [h]
  · rfl

theorem consume_weight (a : Arena) (i j : Fin 511) : (a.consume i)[j].weight = a[j].weight := by
  rw [getElem_consume]; split
  · next h => rw [h]
  · rfl

theorem consume_consumed (a : Arena) (i j : Fin 511) :
    (a.consume i)[j].consumed = true ↔ j = i ∨ a[j].consumed = true := by
  rw [getElem_consume]; split
  · next h => simp [h]
  · next h => simp [h]

theorem consume_active (a : Arena) (i j : Fin 511) :
    (a.consume i)[j].active = (decide (j ≠ i) && a[j].active) := by
  rw [getElem_consume]; split
  · next h => simp [h, Node.active]
  · next h => simp [h]

theorem tally_consume (g : Node → Nat) (hg : ∀ nd : Node, nd.active = false → g nd = 0) (a : Arena) (i : Fin 511) :
    tally g (a.consume i) + g a[i] = tally g a := by
  have h := tally_set g a i { a[i] with consumed := true }
  rw [hg { a[i] with consumed := true } (by simp [Node.active])] at h
  simpa [Arena.consume] using h

theorem liveWeight_inactive (nd : Node) (h : nd.active = false) : liveWeight nd = 0 := by simp [liveWeight, h]

theorem liveOne_inactive (nd : Node) (h : nd.active = false) : liveOne nd = 0 := by simp [liveOne, h]

/-! ## The fresh arena -/

theorem freshArena_toList (freq : Vector Nat 256) : (freshArena freq).toList = freshSlots freq := rfl

theorem length_freshSlots (freq : Vector Nat 256) : (freshSlots freq).length = 511 := by
  rw [← List.size_toArray]; exact freshSlots_size freq

theorem freshArena_leaf (freq : Vector Nat 256) (b : Symbol) :
    (freshArena freq)[symbolLeaf b] = leafNode (freq[b.toNat]'b.isLt) := by
  have hb := b.isLt
  have : (freshArena freq)[symbolLeaf b] =
      (freshSlots freq)[b.toNat]'(by rw [length_freshSlots]; omega) := rfl
  rw [this]
  simp only [freshSlots]
  rw [List.getElem_append_left (by simpa using hb), List.getElem_map, Vector.getElem_toList]

theorem freshArena_empty (freq : Vector Nat 256) (i : Fin 511) (h : 256 ≤ i.val) :
    (freshArena freq)[i] = Node.empty := by
  have hi := i.isLt
  have : (freshArena freq)[i] = (freshSlots freq)[i.val]'(by rw [length_freshSlots]; omega) := rfl
  rw [this]
  simp only [freshSlots]
  rw [List.getElem_append_right (by simpa using h), List.getElem_replicate]

/-- A slot of the fresh arena is a leaf's or empty. -/
theorem slot_cases (i : Fin 511) : (∃ b, i = symbolLeaf b) ∨ 256 ≤ i.val := by
  by_cases h : i.val < 256
  · obtain ⟨b, _, e⟩ := leafSymbol_of_lt h
    exact .inl ⟨b, e⟩
  · exact .inr (by omega)

theorem freshArena_children (freq : Vector Nat 256) (i : Fin 511) : (freshArena freq)[i].children = none := by
  rcases slot_cases i with ⟨b, rfl⟩ | h
  · rw [freshArena_leaf]; rfl
  · rw [freshArena_empty _ _ h]; rfl

theorem freshArena_consumed (freq : Vector Nat 256) (i : Fin 511) : (freshArena freq)[i].consumed = false := by
  rcases slot_cases i with ⟨b, rfl⟩ | h
  · rw [freshArena_leaf]; rfl
  · rw [freshArena_empty _ _ h]; rfl

theorem tally_fresh (g : Node → Nat) (hg : g Node.empty = 0) (freq : Vector Nat 256) :
    tally g (freshArena freq) = (freq.toList.map fun n => g (leafNode n)).sum := by
  rw [tally, freshArena_toList, freshSlots, List.map_append, List.sum_append, List.map_map]
  rw [sum_map_eq_zero g (List.replicate 255 Node.empty)
    (fun x hx => by rw [List.eq_of_mem_replicate hx, hg])]
  rfl

theorem tally_liveWeight_fresh (freq : Vector Nat 256) :
    tally liveWeight (freshArena freq) = freq.toList.sum := by
  rw [tally_fresh _ rfl]
  congr 1
  conv_rhs => rw [← List.map_id freq.toList]
  apply List.map_congr_left
  intro n _
  by_cases h : n = 0 <;> simp [liveWeight, leafNode, Node.active, h]

theorem tally_liveOne_fresh (freq : Vector Nat 256) :
    tally liveOne (freshArena freq) = countNonzero freq := by
  rw [tally_fresh _ rfl, countNonzero]
  induction freq.toList with
  | nil => rfl
  | cons n ns ih =>
    rw [List.map_cons, List.sum_cons, ih, List.filter_cons]
    by_cases h : n = 0
    · simp [liveOne, leafNode, Node.active, h]
    · simp [liveOne, leafNode, Node.active, h, Nat.add_comm]

/-! ## Which nodes a merge takes -/

/-- A node's merge depends on the children up to it and the weights below it alone. -/
theorem Arena.takesLightest_congr {a a' : Arena} {k : Fin 511}
    (hc : ∀ i : Fin 511, i ≤ k → a'[i].children = a[i].children)
    (hw : ∀ i : Fin 511, i < k → a'[i].weight = a[i].weight) (h : a.takesLightest k) : a'.takesLightest k := by
  have hch : ∀ c i : Fin 511, i < k → (a'.childOf c i ↔ a.childOf c i) := fun c i hi => by
    rw [Arena.childOf_iff, Arena.childOf_iff, hc i hi.le]
  have hact : ∀ j, a'.activeBefore k j ↔ a.activeBefore k j := fun j => by
    constructor
    · rintro ⟨h₁, h₂, h₃⟩; exact ⟨h₁, hw j h₁ ▸ h₂, fun i hi hci => h₃ i hi ((hch j i hi).2 hci)⟩
    · rintro ⟨h₁, h₂, h₃⟩; exact ⟨h₁, (hw j h₁).symm ▸ h₂, fun i hi hci => h₃ i hi ((hch j i hi).1 hci)⟩
  obtain ⟨l, r, e, hne, hl, hr, hlmin, hrmin⟩ := h
  refine ⟨l, r, by rw [hc k (le_refl k), e], hne, (hact l).2 hl, (hact r).2 hr, fun j hj => ?_, fun j hj hjl => ?_⟩
  · have := hlmin j ((hact j).1 hj)
    rwa [Arena.notAfter, hw l hl.1, hw j hj.1]
  · have := hrmin j ((hact j).1 hj) hjl
    rwa [Arena.notAfter, hw r hr.1, hw j hj.1]

/-! ## The loop's invariant -/

/-- What holds of the arena and NEXT_FREE before each merge (R131 to R134, R142). -/
structure Merging (freq : Vector Nat 256) (a : Arena) (n : Nat) : Prop where
  low : 256 ≤ n
  leafShape : ∀ b : Symbol, a[symbolLeaf b].children = none ∧ a[symbolLeaf b].weight = freq[b.toNat]'b.isLt
  inner : ∀ i : Fin 511, 256 ≤ i.val → i.val < n → ∃ l r, a[i].children = some (l, r) ∧ l < i ∧ r < i ∧
    l ≠ r ∧ a[i].weight = a[l].weight + a[r].weight ∧ a[i].weight ≠ 0 ∧
    (a[l].weight < a[r].weight ∨ (a[l].weight = a[r].weight ∧ l < r)) ∧
    a[l].consumed = true ∧ a[r].consumed = true
  outer : ∀ i : Fin 511, n ≤ i.val → a[i] = Node.empty
  one : ∀ c i j : Fin 511, a.childOf c i → a.childOf c j → i = j
  parent : ∀ c : Fin 511, a[c].consumed = true → a[c].weight ≠ 0 ∧ ∃ i : Fin 511, i.val < n ∧ a.childOf c i
  top : 256 < n → ∃ i : Fin 511, i.val + 1 = n ∧ a[i].active = true
  light : ∀ i : Fin 511, 256 ≤ i.val → i.val < n → a.takesLightest i
  weight : tally liveWeight a = freq.toList.sum
  count : tally liveOne a + n = 256 + countNonzero freq

theorem Merging.fresh (freq : Vector Nat 256) : Merging freq (freshArena freq) 256 where
  low := le_refl _
  leafShape b := by rw [freshArena_leaf]; exact ⟨rfl, rfl⟩
  inner i h₁ h₂ := by omega
  outer i h := freshArena_empty freq i h
  one c i j h := by
    obtain ⟨l, r, h, _⟩ := Arena.childOf_iff.1 h
    rw [freshArena_children] at h
    exact absurd h (by simp)
  parent c h := by rw [freshArena_consumed] at h; exact absurd h (by simp)
  top h := by omega
  light i h₁ h₂ := by omega
  weight := tally_liveWeight_fresh freq
  count := by rw [tally_liveOne_fresh]; omega

theorem Merging.children_lt {freq : Vector Nat 256} {a : Arena} {n : Nat} (h : Merging freq a n)
    {i l r : Fin 511} (hc : a[i].children = some (l, r)) : 256 ≤ i.val ∧ i.val < n := by
  constructor
  · rcases slot_cases i with ⟨b, rfl⟩ | hi
    · rw [(h.leafShape b).1] at hc; exact absurd hc (by simp)
    · exact hi
  · by_contra hn
    rw [h.outer i (by omega)] at hc
    exact absurd hc (by simp [Node.empty])

theorem Merging.child_consumed {freq : Vector Nat 256} {a : Arena} {n : Nat} (h : Merging freq a n)
    {c i : Fin 511} (hc : a.childOf c i) : a[c].consumed = true := by
  obtain ⟨l, r, hch, hlr⟩ := Arena.childOf_iff.1 hc
  obtain ⟨h₁, h₂⟩ := h.children_lt hch
  obtain ⟨l', r', hch', _, _, _, _, _, _, hl, hr⟩ := h.inner i h₁ h₂
  rw [hch] at hch'
  obtain ⟨rfl, rfl⟩ := Prod.mk.inj (Option.some.inj hch')
  rcases hlr with rfl | rfl
  · exact hl
  · exact hr

/-- The active slots below `n` are the nodes still to be taken when node `n` is created (R132, R133). -/
theorem Merging.active_iff {freq : Vector Nat 256} {a : Arena} {n : Nat} (h : Merging freq a n) (hn : n < 511)
    (j : Fin 511) : a.activeBefore ⟨n, hn⟩ j ↔ j.val < n ∧ a[j].active = true := by
  rw [Node.active_iff]
  constructor
  · rintro ⟨h₁, h₂, h₃⟩
    refine ⟨h₁, ?_, h₂⟩
    by_contra hc
    obtain ⟨_, i, hi, hci⟩ := h.parent j (by simpa using hc)
    exact h₃ i hi hci
  · rintro ⟨h₁, h₂, h₃⟩
    refine ⟨h₁, h₃, fun i _ hci => ?_⟩
    rw [h.child_consumed hci] at h₂
    exact absurd h₂ (by simp)

/-- The arena after one merge of `i` and `j` into slot `n` (R134). -/
def mergeInto (a : Arena) (i j : Fin 511) (n : Nat) : Arena :=
  ((a.consume i).consume j).setIfInBounds n (((a.consume i).consume j).merged i j)

theorem getElem_mergeInto (a : Arena) (i j k : Fin 511) (n : Nat) :
    (mergeInto a i j n)[k] =
      if k.val = n then { weight := a[i].weight + a[j].weight, children := some (i, j), consumed := false }
      else ((a.consume i).consume j)[k] := by
  simp only [mergeInto, Fin.getElem_fin, Vector.getElem_setIfInBounds]
  by_cases h : k.val = n
  · rw [if_pos h.symm, if_pos h, Arena.merged]
    congr 1
    have e₁ := consume_weight (a.consume i) j i
    have e₂ := consume_weight a i i
    have e₃ := consume_weight (a.consume i) j j
    have e₄ := consume_weight a i j
    rw [e₁, e₂, e₃, e₄]
    rfl
  · rw [if_neg (Ne.symm h), if_neg h]

theorem tally_mergeInto (g : Node → Nat) (hg : ∀ nd : Node, nd.active = false → g nd = 0) {a : Arena}
    {i j : Fin 511} {n : Nat} (hn : n < 511) (hij : j ≠ i) (hout : a[(⟨n, hn⟩ : Fin 511)] = Node.empty)
    (hin : (⟨n, hn⟩ : Fin 511) ≠ i) (hjn : (⟨n, hn⟩ : Fin 511) ≠ j) :
    tally g (mergeInto a i j n) + g a[i] + g a[j] =
      tally g a + g { weight := a[i].weight + a[j].weight, children := some (i, j), consumed := false } := by
  have h₁ := tally_consume g hg a i
  have h₂ := tally_consume g hg (a.consume i) j
  rw [getElem_consume, if_neg hij] at h₂
  have h₃ := tally_set g ((a.consume i).consume j) ⟨n, hn⟩ (((a.consume i).consume j).merged i j)
  rw [getElem_consume, if_neg hjn, getElem_consume, if_neg hin, hout, hg Node.empty rfl] at h₃
  have e : (mergeInto a i j n) =
      ((a.consume i).consume j).set n (((a.consume i).consume j).merged i j) hn := by
    simp [mergeInto, Vector.setIfInBounds, Vector.set, Array.setIfInBounds, hn]
  have e' : ((a.consume i).consume j).merged i j =
      { weight := a[i].weight + a[j].weight, children := some (i, j), consumed := false } := by
    simp only [Arena.merged, consume_weight]
  rw [← e, e'] at h₃
  simp only [Nat.add_zero] at h₃
  omega

/-- One merge keeps the invariant, and its slot is inside the arena (R134). -/
theorem Merging.merge {freq : Vector Nat 256} {a : Arena} {n : Nat} {i j : Fin 511} (h : Merging freq a n)
    (hi : scanMin a n = some i) (hj : scanMin (a.consume i) n = some j) :
    n < 511 ∧ Merging freq (mergeInto a i j n) (n + 1) := by
  obtain ⟨hin, hia, himin⟩ := scanMin_some hi
  obtain ⟨hjn, hja, hjmin⟩ := scanMin_some hj
  rw [consume_active, Bool.and_eq_true, decide_eq_true_eq] at hja
  obtain ⟨hji, hja⟩ := hja
  have hlight := himin j hjn hja
  have hiw := ((Node.active_iff _).1 hia)
  have hjw := ((Node.active_iff _).1 hja)
  have hone : ∀ nd : Node, nd.active = true → liveOne nd = 1 := fun nd hnd => by simp [liveOne, hnd]
  have hlow := h.low
  have c₁ := tally_consume liveOne liveOne_inactive a i
  have c₂ := tally_consume liveOne liveOne_inactive (a.consume i) j
  rw [getElem_consume, if_neg hji, hone _ hja] at c₂
  rw [hone _ hia] at c₁
  have hcount := h.count
  have hN := countNonzero_le freq
  have hn : n < 511 := by omega
  refine ⟨hn, ?_⟩
  have hni : (⟨n, hn⟩ : Fin 511) ≠ i := by intro e; rw [← e] at hin; exact absurd hin (by simp)
  have hnj : (⟨n, hn⟩ : Fin 511) ≠ j := by intro e; rw [← e] at hjn; exact absurd hjn (by simp)
  have hout : a[(⟨n, hn⟩ : Fin 511)] = Node.empty := h.outer ⟨n, hn⟩ (le_refl n)
  have new : ∀ k : Fin 511, k.val = n → (mergeInto a i j n)[k] =
      { weight := a[i].weight + a[j].weight, children := some (i, j), consumed := false } :=
    fun k hk => by rw [getElem_mergeInto, if_pos hk]
  have oldC : ∀ k : Fin 511, k.val ≠ n → (mergeInto a i j n)[k].children = a[k].children := fun k hk => by
    rw [getElem_mergeInto, if_neg hk, consume_children, consume_children]
  have oldW : ∀ k : Fin 511, k.val ≠ n → (mergeInto a i j n)[k].weight = a[k].weight := fun k hk => by
    rw [getElem_mergeInto, if_neg hk, consume_weight, consume_weight]
  have oldU : ∀ k : Fin 511, k.val ≠ n → ((mergeInto a i j n)[k].consumed = true ↔
      k = j ∨ k = i ∨ a[k].consumed = true) := fun k hk => by
    rw [getElem_mergeInto, if_neg hk, consume_consumed, consume_consumed]
  have child : ∀ c k : Fin 511, (mergeInto a i j n).childOf c k ↔
      (k.val = n ∧ (c = i ∨ c = j)) ∨ (k.val ≠ n ∧ a.childOf c k) := by
    intro c k
    rw [Arena.childOf_iff, Arena.childOf_iff]
    by_cases hk : k.val = n
    · rw [new k hk]
      simp only [hk, true_and, ne_eq, not_true_eq_false, false_and, or_false]
      constructor
      · rintro ⟨l, r, e, hc⟩
        obtain ⟨rfl, rfl⟩ := Prod.mk.inj (Option.some.inj e)
        exact hc
      · intro hc; exact ⟨i, j, rfl, hc⟩
    · rw [oldC k hk]; simp [hk]
  have newActive : Node.active
      { weight := a[i].weight + a[j].weight, children := some (i, j), consumed := false } = true :=
    (Node.active_iff _).2 ⟨rfl, show a[i].weight + a[j].weight ≠ 0 by omega⟩
  have lt_ne : ∀ k : Fin 511, k.val < n → k.val ≠ n := fun k hk => by omega
  refine
    { low := by omega
      leafShape := fun b => ?_
      inner := fun k hk₁ hk₂ => ?_
      outer := fun k hk => ?_
      one := fun c k k' hk hk' => ?_
      parent := fun c hc => ?_
      top := fun _ => ⟨⟨n, hn⟩, rfl, ?_⟩
      light := fun k hk₁ hk₂ => ?_
      weight := ?_
      count := ?_ }
  · have hb : (symbolLeaf b).val ≠ n := by have := b.isLt; simp; omega
    rw [oldC _ hb, oldW _ hb]
    exact h.leafShape b
  · by_cases hk : k.val = n
    · refine ⟨i, j, by rw [new k hk], by rw [Fin.lt_def]; omega, by rw [Fin.lt_def]; omega, Ne.symm hji, ?_, ?_, ?_, ?_, ?_⟩
      · rw [new k hk, oldW i (lt_ne i hin), oldW j (lt_ne j hjn)]
      · rw [new k hk]; show a[i].weight + a[j].weight ≠ 0; omega
      · rw [oldW i (lt_ne i hin), oldW j (lt_ne j hjn)]
        rcases hlight with hl | ⟨hl, hle⟩
        · exact .inl hl
        · exact .inr ⟨hl, lt_of_le_of_ne hle (Ne.symm hji)⟩
      · exact (oldU i (lt_ne i hin)).2 (.inr (.inl rfl))
      · exact (oldU j (lt_ne j hjn)).2 (.inl rfl)
    · obtain ⟨l, r, hc, hl, hr, hlr, hw, hw0, hlt, hlu, hru⟩ := h.inner k hk₁ (by omega)
      have hl' : l.val ≠ n := by have := Fin.lt_def.1 hl; omega
      have hr' : r.val ≠ n := by have := Fin.lt_def.1 hr; omega
      refine ⟨l, r, by rw [oldC k hk, hc], hl, hr, hlr, ?_, ?_, ?_, ?_, ?_⟩
      · rw [oldW k hk, oldW l hl', oldW r hr', hw]
      · rw [oldW k hk]; exact hw0
      · rw [oldW l hl', oldW r hr']; exact hlt
      · exact (oldU l hl').2 (.inr (.inr hlu))
      · exact (oldU r hr').2 (.inr (.inr hru))
  · have hk' : k.val ≠ n := by omega
    have hki : k ≠ i := by rintro rfl; omega
    have hkj : k ≠ j := by rintro rfl; omega
    rw [getElem_mergeInto, if_neg hk', getElem_consume, if_neg hkj, getElem_consume, if_neg hki]
    exact h.outer k (by omega)
  · rcases (child c k).1 hk with ⟨hk, hc⟩ | ⟨hkn, hc⟩ <;> rcases (child c k').1 hk' with ⟨hk', hc'⟩ | ⟨hkn', hc'⟩
    · exact Fin.ext (hk.trans hk'.symm)
    · have := h.child_consumed hc'
      rcases hc with rfl | rfl
      · rw [hiw.1] at this; exact absurd this (by simp)
      · rw [hjw.1] at this; exact absurd this (by simp)
    · have := h.child_consumed hc
      rcases hc' with rfl | rfl
      · rw [hiw.1] at this; exact absurd this (by simp)
      · rw [hjw.1] at this; exact absurd this (by simp)
    · exact h.one c k k' hc hc'
  · have hcn : c.val ≠ n := by
      intro e; rw [new c e] at hc; exact absurd hc (by simp)
    rw [oldW c hcn]
    rcases (oldU c hcn).1 hc with rfl | rfl | hu
    · exact ⟨hjw.2, ⟨n, hn⟩, Nat.lt_succ_self n, (child _ _).2 (.inl ⟨rfl, .inr rfl⟩)⟩
    · exact ⟨hiw.2, ⟨n, hn⟩, Nat.lt_succ_self n, (child _ _).2 (.inl ⟨rfl, .inl rfl⟩)⟩
    · obtain ⟨hw, k, hk, hck⟩ := h.parent c hu
      exact ⟨hw, k, by omega, (child _ _).2 (.inr ⟨lt_ne k hk, hck⟩)⟩
  · rw [new ⟨n, hn⟩ rfl]; exact newActive
  · by_cases hk : k.val = n
    · obtain rfl : k = ⟨n, hn⟩ := Fin.ext hk
      have hact : ∀ c : Fin 511, (mergeInto a i j n).activeBefore ⟨n, hn⟩ c ↔ c.val < n ∧ a[c].active = true := fun c => by
        rw [← h.active_iff hn c]
        constructor
        · rintro ⟨h₁, h₂, h₃⟩
          exact ⟨h₁, oldW c (lt_ne c h₁) ▸ h₂, fun m hm hcm => h₃ m hm ((child c m).2 (.inr ⟨lt_ne m hm, hcm⟩))⟩
        · rintro ⟨h₁, h₂, h₃⟩
          refine ⟨h₁, (oldW c (lt_ne c h₁)).symm ▸ h₂, fun m hm hcm => ?_⟩
          rcases (child c m).1 hcm with ⟨hm', _⟩ | ⟨_, hcm⟩
          · exact lt_ne m hm hm'
          · exact h₃ m hm hcm
      refine ⟨i, j, by rw [new _ rfl], hji, (hact i).2 ⟨hin, hia⟩, (hact j).2 ⟨hjn, hja⟩, fun c hc => ?_, fun c hc hci => ?_⟩
      · obtain ⟨hcn, hca⟩ := (hact c).1 hc
        rw [Arena.notAfter, oldW i (lt_ne i hin), oldW c (lt_ne c hcn)]
        exact himin c hcn hca
      · obtain ⟨hcn, hca⟩ := (hact c).1 hc
        have := hjmin c hcn (by rw [consume_active, hca, decide_eq_true hci]; rfl)
        rw [consume_weight, consume_weight] at this
        rwa [Arena.notAfter, oldW j (lt_ne j hjn), oldW c (lt_ne c hcn)]
    · refine Arena.takesLightest_congr (fun m hm => oldC m ?_) (fun m hm => oldW m ?_) (h.light k hk₁ (by omega))
      · have := Fin.le_def.1 hm; omega
      · have := Fin.lt_def.1 hm; omega
  · have := tally_mergeInto liveWeight liveWeight_inactive hn hji hout hni hnj
    have e₁ : liveWeight a[i] = a[i].weight := by rw [liveWeight, if_pos hia]
    have e₂ : liveWeight a[j] = a[j].weight := by rw [liveWeight, if_pos hja]
    have e₃ : liveWeight { weight := a[i].weight + a[j].weight, children := some (i, j), consumed := false } =
        a[i].weight + a[j].weight := by
      rw [liveWeight, if_pos newActive]
    have := h.weight
    omega
  · have := tally_mergeInto liveOne liveOne_inactive hn hji hout hni hnj
    have e₃ : liveOne { weight := a[i].weight + a[j].weight, children := some (i, j), consumed := false } = 1 := hone _ newActive
    rw [hone _ hia, hone _ hja, e₃] at this
    omega

/-- How the merge loop ends: the invariant with one slot left active, and that slot consumed (R137). -/
theorem mergeLoop_spec {freq : Vector Nat 256} (fuel : Nat) {a : Arena} {n : Nat} (h : Merging freq a n)
    (hpos : 1 ≤ tally liveOne a) (hfuel : tally liveOne a ≤ fuel) :
    ∃ a' i, Merging freq a' (255 + countNonzero freq) ∧ i.val < 255 + countNonzero freq ∧ a'[i].active = true ∧
      (∀ k : Fin 511, k ≠ i → a'[k].active = false) ∧
      mergeLoop fuel a n = (a'.consume i, 255 + countNonzero freq) := by
  induction fuel generalizing a n with
  | zero => omega
  | succ fuel ih =>
    rw [mergeLoop]
    cases hi : scanMin a n with
    | none =>
      have : tally liveOne a = 0 := tally_eq_zero fun k => liveOne_inactive _ (by
        by_cases hk : k.val < n
        · exact scanMin_none hi k hk
        · rw [h.outer k (by omega)]; rfl)
      omega
    | some i =>
      obtain ⟨hin, hia, _⟩ := scanMin_some hi
      have c₁ := tally_consume liveOne liveOne_inactive a i
      have hone : liveOne a[i] = 1 := by rw [liveOne, if_pos hia]
      simp only
      cases hj : scanMin (a.consume i) n with
      | none =>
        have hall : ∀ k : Fin 511, k ≠ i → a[k].active = false := by
          intro k hk
          by_cases hkn : k.val < n
          · have := scanMin_none hj k hkn
            rw [consume_active] at this
            simpa [hk] using this
          · rw [h.outer k (by omega)]; rfl
        have hz : tally liveOne (a.consume i) = 0 := tally_eq_zero fun k => liveOne_inactive _ (by
          rw [consume_active]
          by_cases hk : k = i
          · simp [hk]
          · rw [hall k hk, Bool.and_false])
        have hcount := h.count
        have hn : n = 255 + countNonzero freq := by omega
        subst hn
        exact ⟨a, i, h, hin, hia, hall, rfl⟩
      | some j =>
        obtain ⟨hn, hm⟩ := h.merge hi hj
        obtain ⟨hjn, hja, _⟩ := scanMin_some hj
        have hcount := h.count
        have hcount' := hm.count
        have c₂ := tally_consume liveOne liveOne_inactive (a.consume i) j
        have hone' : liveOne (a.consume i)[j] = 1 := by rw [liveOne, if_pos hja]
        exact ih (a := mergeInto a i j n) hm (by omega) (by omega)

/-- The merge loop leaves the children and weights of the slots below NEXT_FREE alone. -/
theorem mergeLoop_keeps (fuel : Nat) (a : Arena) (n : Nat) (k : Fin 511) (hk : k.val < n) :
    (mergeLoop fuel a n).1[k].children = a[k].children ∧ (mergeLoop fuel a n).1[k].weight = a[k].weight := by
  induction fuel generalizing a n with
  | zero => exact ⟨rfl, rfl⟩
  | succ fuel ih =>
    rw [mergeLoop]
    cases scanMin a n with
    | none => exact ⟨rfl, rfl⟩
    | some i =>
      simp only
      cases scanMin (a.consume i) n with
      | none => exact ⟨consume_children a i k, consume_weight a i k⟩
      | some j =>
        obtain ⟨h₁, h₂⟩ := ih (mergeInto a i j n) (n + 1) (by omega)
        rw [getElem_mergeInto, if_neg (by omega)] at h₁ h₂
        simp only [consume_children, consume_weight] at h₁ h₂
        exact ⟨h₁, h₂⟩

end Sys2Proof.Machine
end

