-- ==== Sys2Proof/Laws/BuildTree.lean ====
section
/-! SUPPORT. The cases of BUILD, and the tree a successful BUILD leaves (R29, R135 to R138, R142). -/

namespace Sys2Proof.Machine

/-! ## The cases -/

theorem mem_nonzeroLeaves {freq : Vector Nat 256} {i : Fin 511} :
    i ∈ nonzeroLeaves freq ↔ ∃ b : Symbol, i = symbolLeaf b ∧ freq[b.toNat]'b.isLt ≠ 0 := by
  simp only [nonzeroLeaves, List.mem_map, List.mem_filter, decide_eq_true_eq]
  constructor
  · rintro ⟨⟨n, k⟩, ⟨hm, hn⟩, rfl⟩
    obtain ⟨hk, e⟩ := List.mem_zipIdx' hm
    have hk' : k < 256 := by simpa using hk
    refine ⟨BitVec.ofNat 8 k, ?_, ?_⟩
    · apply Fin.ext
      simp [arenaIndex]
      omega
    · have : n = freq[k] := by simpa using e
      simp only [BitVec.toNat_ofNat, Nat.mod_eq_of_lt hk']
      rw [← this]
      exact hn
  · rintro ⟨b, rfl, hb⟩
    have hlt := b.isLt
    refine ⟨(freq[b.toNat], b.toNat), ⟨?_, hb⟩, ?_⟩
    · rw [List.mk_mem_zipIdx_iff_getElem?]
      simp
    · apply Fin.ext
      simp [arenaIndex]
      omega

theorem length_filter_zipIdx (l : List Nat) (k : Nat) :
    ((l.zipIdx k).filter fun p => decide (p.1 ≠ 0)).length = (l.filter fun n => decide (n ≠ 0)).length := by
  induction l generalizing k with
  | nil => rfl
  | cons n ns ih =>
    rw [List.zipIdx_cons, List.filter_cons, List.filter_cons]
    by_cases h : n = 0
    · simpa [h] using ih (k + 1)
    · simpa [h] using ih (k + 1)

theorem length_nonzeroLeaves (freq : Vector Nat 256) : (nonzeroLeaves freq).length = countNonzero freq := by
  rw [nonzeroLeaves, List.length_map, length_filter_zipIdx]; rfl

theorem State.distinctSymbols_eq (s : State) : s.distinctSymbols = countNonzero s.freq := rfl

/-- BUILD with no counted symbol (R135). -/
theorem execBuild_none {s : State} (h : countNonzero s.freq = 0) :
    execBuild s = raise s.initBuild .degenerateTree 0 := by
  rw [← length_nonzeroLeaves, List.length_eq_zero_iff] at h
  simp only [execBuild, h]

/-- BUILD with one counted symbol (R136). -/
theorem execBuild_one {s : State} (h : countNonzero s.freq = 1) :
    ∃ b : Symbol, s.freqAt b ≠ 0 ∧ (∀ c, c ≠ b → s.freqAt c = 0) ∧
      execBuild s = finish (s.buildSingle (symbolLeaf b)) 256 := by
  rw [← length_nonzeroLeaves] at h
  obtain ⟨i, hi⟩ := List.length_eq_one_iff.1 h
  obtain ⟨b, rfl, hb⟩ := mem_nonzeroLeaves.1 (hi ▸ List.mem_singleton.2 rfl)
  refine ⟨b, hb, fun c hc => ?_, by simp only [execBuild, hi]⟩
  by_contra h0
  have : symbolLeaf c ∈ nonzeroLeaves s.freq := mem_nonzeroLeaves.2 ⟨c, rfl, h0⟩
  rw [hi, List.mem_singleton] at this
  exact hc (symbolLeaf_inj this)

/-- BUILD with two or more counted symbols (R134, R137). -/
theorem execBuild_many {s : State} (h : 2 ≤ countNonzero s.freq) :
    execBuild s = finish s.buildMerged ((mergeLoop 256 (freshArena s.freq) 256).2 - 1) := by
  rw [← length_nonzeroLeaves] at h
  match e : nonzeroLeaves s.freq with
  | [] => rw [e] at h; simp at h
  | [_] => rw [e] at h; simp at h
  | _ :: _ :: _ => simp only [execBuild, e]

theorem countNonzero_eq_zero {freq : Vector Nat 256} :
    countNonzero freq = 0 ↔ ∀ b : Symbol, freq[b.toNat]'b.isLt = 0 := by
  rw [← length_nonzeroLeaves, List.length_eq_zero_iff, List.eq_nil_iff_forall_not_mem]
  constructor
  · intro h b
    by_contra hb
    exact h _ (mem_nonzeroLeaves.2 ⟨b, rfl, hb⟩)
  · intro h i hi
    obtain ⟨b, _, hb⟩ := mem_nonzeroLeaves.1 hi
    exact hb (h b)

theorem filter_zipIdx_nodup (l : List Nat) : ∀ k, ((l.zipIdx k).map Prod.snd).Nodup := by
  intro k
  rw [List.zipIdx_map_snd]
  exact List.nodup_range'

theorem nonzeroLeaves_nodup (freq : Vector Nat 256) : (nonzeroLeaves freq).Nodup := by
  have h := (filter_zipIdx_nodup freq.toList 0).sublist
    ((List.filter_sublist (p := fun p : Nat × Nat => decide (p.1 ≠ 0)) (l := freq.toList.zipIdx)).map Prod.snd)
  rw [nonzeroLeaves, ← Function.comp_def arenaIndex Prod.snd, ← List.map_map]
  refine List.Nodup.map_on ?_ h
  intro x hx y hy e
  obtain ⟨⟨n, k⟩, hp, rfl⟩ := List.mem_map.1 hx
  obtain ⟨⟨n', k'⟩, hp', rfl⟩ := List.mem_map.1 hy
  have hk : k < 256 := by simpa using (List.mem_zipIdx' (List.mem_of_mem_filter hp)).1
  have hk' : k' < 256 := by simpa using (List.mem_zipIdx' (List.mem_of_mem_filter hp')).1
  have := congrArg Fin.val e
  simp [arenaIndex] at this
  omega

/-- Exactly one nonzero count. -/
theorem countNonzero_eq_one {freq : Vector Nat 256} {b : Symbol} (hb : freq[b.toNat]'b.isLt ≠ 0)
    (h : ∀ c : Symbol, c ≠ b → freq[c.toNat]'c.isLt = 0) : countNonzero freq = 1 := by
  rw [← length_nonzeroLeaves]
  have hmem : symbolLeaf b ∈ nonzeroLeaves freq := mem_nonzeroLeaves.2 ⟨b, rfl, hb⟩
  have hall : ∀ i ∈ nonzeroLeaves freq, i = symbolLeaf b := by
    intro i hi
    obtain ⟨c, rfl, hc⟩ := mem_nonzeroLeaves.1 hi
    by_contra hne
    exact hc (h c fun e => hne (by rw [e]))
  have hle := (List.nodup_replicate (n := (nonzeroLeaves freq).length) (a := symbolLeaf b)).1
    (by rw [← List.eq_replicate_of_mem hall]; exact nonzeroLeaves_nodup freq)
  have := List.length_pos_of_mem hmem
  omega

/-! ## The merged tree -/

/-- The arena of two or more symbols: the loop's invariant, with ROOT the one slot left active, then consumed. -/
theorem mergedArena_spec {freq : Vector Nat 256} (h : 2 ≤ countNonzero freq) :
    ∃ a' i, Merging freq a' (255 + countNonzero freq) ∧ i.val + 1 = 255 + countNonzero freq ∧
      a'[i].active = true ∧ (∀ k : Fin 511, k ≠ i → a'[k].active = false) ∧
      mergeLoop 256 (freshArena freq) 256 = (a'.consume i, 255 + countNonzero freq) := by
  have hN := countNonzero_le freq
  have ht : tally liveOne (freshArena freq) = countNonzero freq := tally_liveOne_fresh freq
  obtain ⟨a', i, hm, _, hia, hall, e⟩ := mergeLoop_spec 256 (Merging.fresh freq) (by omega) (by omega)
  obtain ⟨j, hj, hja⟩ := hm.top (by omega)
  have hij : j = i := by
    by_contra hne
    rw [hall j hne] at hja
    exact absurd hja (by simp)
  subst hij
  exact ⟨a', j, hm, hj, hia, hall, e⟩

theorem Merging.descends {freq : Vector Nat 256} {a : Arena} {n : Nat} (h : Merging freq a n) : a.Descends where
  high i l r hc := (h.children_lt hc).1
  below i l r hc := by
    obtain ⟨h₁, h₂⟩ := h.children_lt hc
    obtain ⟨l', r', hc', hl, hr, _⟩ := h.inner i h₁ h₂
    rw [hc] at hc'
    obtain ⟨rfl, rfl⟩ := Prod.mk.inj (Option.some.inj hc')
    exact ⟨hl, hr⟩

/-- The weights of the slots that are not active, apart from ROOT's, add up to nothing live: ROOT's weight is the sum
of the counts (R29, R142). -/
theorem Merging.rootWeight {freq : Vector Nat 256} {a : Arena} {n : Nat} {i : Fin 511} (h : Merging freq a n)
    (hia : a[i].active = true) (hall : ∀ k : Fin 511, k ≠ i → a[k].active = false) :
    a[i].weight = freq.toList.sum := by
  have h₁ := tally_consume liveWeight liveWeight_inactive a i
  have h₂ : tally liveWeight (a.consume i) = 0 := tally_eq_zero fun k => liveWeight_inactive _ (by
    rw [consume_active]
    by_cases hk : k = i
    · simp [hk]
    · rw [hall k hk, Bool.and_false])
  rw [h₂, h.weight, liveWeight, if_pos hia] at h₁
  omega

/-- Every node of the finished arena with nonzero weight lies on a path from ROOT. -/
theorem Merging.reach {freq : Vector Nat 256} {a : Arena} {n : Nat} {i : Fin 511} (h : Merging freq a n)
    (hall : ∀ k : Fin 511, k ≠ i → a[k].active = false) (k : Fin 511) (hk : a[k].weight ≠ 0) :
    ∃ xs, a.follow i xs = some k := by
  by_cases e : k = i
  · exact ⟨[], by rw [e]; rfl⟩
  · have hu : a[k].consumed = true := by
      have := hall k e
      by_contra hc
      have hc : a[k].consumed = false := by simpa using hc
      rw [(Node.active_iff _).2 ⟨hc, hk⟩] at this
      exact absurd this (by simp)
    obtain ⟨_, p, hp, hcp⟩ := h.parent k hu
    obtain ⟨l, r, hc, hlr⟩ := Arena.childOf_iff.1 hcp
    have hb := h.descends.below p l r hc
    have hlt : k < p := by rcases hlr with rfl | rfl; exacts [hb.1, hb.2]
    obtain ⟨h₁, h₂⟩ := h.children_lt hc
    obtain ⟨_, _, _, _, _, _, _, hw0, _⟩ := h.inner p h₁ h₂
    obtain ⟨xs, hxs⟩ := Merging.reach h hall p hw0
    rcases hlr with rfl | rfl
    · exact ⟨xs ++ [false], Arena.follow_snoc.2 ⟨p, k, r, hxs, hc, by simp⟩⟩
    · exact ⟨xs ++ [true], Arena.follow_snoc.2 ⟨p, l, k, hxs, hc, by simp⟩⟩
termination_by 511 - k.val
decreasing_by have := p.isLt; have := Fin.lt_def.1 hlt; omega

theorem follow_consume (a : Arena) (i k : Fin 511) (xs : List Bool) : (a.consume i).follow k xs = a.follow k xs := by
  induction xs generalizing k with
  | nil => rfl
  | cons x xs ih =>
    rw [Arena.follow, Arena.follow, consume_children]
    cases a[k].children with
    | none => rfl
    | some p => obtain ⟨l, r⟩ := p; exact ih _

/-- From the shape of the tree, a leaf's depth is between 1 and 255 (R29, R160). -/
theorem depth_of_descends {s : State} (h : s.arena.Descends) (hr : ∀ r, s.root = some r → 256 ≤ r.val)
    (xs : List Bool) (b : Symbol) (hl : s.leadsTo xs b) : 1 ≤ xs.length ∧ xs.length ≤ 255 := by
  obtain ⟨hf, _⟩ := hl
  obtain ⟨r, hroot, hf⟩ := Option.bind_eq_some_iff.1 hf
  have hb := b.isLt
  have hr' := r.isLt
  rcases h.path_length hf with rfl | hlen
  · rw [Arena.follow_nil] at hf
    have := congrArg Fin.val (Option.some.inj hf)
    rw [symbolLeaf_val] at this
    have := hr r hroot
    omega
  · constructor
    · cases xs with
      | nil =>
        rw [Arena.follow_nil] at hf
        have := congrArg Fin.val (Option.some.inj hf)
        rw [symbolLeaf_val] at this
        have := hr r hroot
        omega
      | cons => simp
    · omega

/-- BUILD with two or more counted symbols leaves a tree (R29). -/
theorem State.buildMerged_treeOk (s : State) (h : 2 ≤ countNonzero s.freq) : s.buildMerged.TreeOk := by
  obtain ⟨a', i, hm, hi, hia, hall, e⟩ := mergedArena_spec h
  have hN := countNonzero_le s.freq
  have ha : s.buildMerged.arena = a'.consume i := by simp only [State.buildMerged, e]
  have hn : s.buildMerged.nextFree = 255 + countNonzero s.freq := by simp only [State.buildMerged, e]
  have hr : s.buildMerged.root = some i := by
    simp only [State.buildMerged, e]
    congr 1
    apply Fin.ext
    simp only [arenaIndex, Fin.val_ofNat]
    omega
  have hf : s.buildMerged.freq = s.freq := rfl
  have hd : s.buildMerged.arena.Descends := by
    rw [ha]
    refine ⟨fun k l r hc => ?_, fun k l r hc => ?_⟩ <;> rw [consume_children] at hc
    exacts [hm.descends.high k l r hc, hm.descends.below k l r hc]
  refine
    { root := ⟨i, hr, by omega, by rw [hn]; omega⟩
      internal := fun k => ?_
      merged := fun k l r hc => ?_
      oneParent := fun c k k' hk hk' => ?_
      leaves := fun b => ?_
      total := fun r h' => ?_
      depth := depth_of_descends hd fun r h' => ?_
      reach := fun b hb => ?_ }
  · have hc : s.buildMerged.arena[k].children = a'[k].children := by rw [ha, consume_children]
    rw [hc, hn]
    constructor
    · intro hk
      obtain ⟨⟨l, r⟩, hc⟩ := Option.isSome_iff_exists.1 hk
      exact hm.children_lt hc
    · rintro ⟨h₁, h₂⟩
      obtain ⟨l, r, hc, _⟩ := hm.inner k h₁ h₂
      rw [hc]; rfl
  · rw [ha, consume_children] at hc
    obtain ⟨h₁, h₂⟩ := hm.children_lt hc
    obtain ⟨l', r', hc', hl, hr', hlr, hw, _⟩ := hm.inner k h₁ h₂
    rw [hc] at hc'
    obtain ⟨rfl, rfl⟩ := Prod.mk.inj (Option.some.inj hc')
    refine ⟨hl, hr', hlr, ?_⟩
    rw [ha, consume_weight, consume_weight, consume_weight, hw]
  · rw [ha] at hk hk'
    rw [Arena.childOf_iff] at hk hk'
    simp only [consume_children] at hk hk'
    exact hm.one c k k' (Arena.childOf_iff.2 hk) (Arena.childOf_iff.2 hk')
  · rw [ha, consume_weight, (hm.leafShape b).2]; rfl
  · rw [hr] at h'
    obtain rfl := Option.some.inj h'
    rw [ha, consume_weight, hm.rootWeight hia hall]; rfl
  · rw [hr] at h'
    obtain rfl := Option.some.inj h'
    omega
  · have hw : a'[symbolLeaf b].weight ≠ 0 := by rw [(hm.leafShape b).2]; exact hb
    obtain ⟨xs, hxs⟩ := hm.reach hall (symbolLeaf b) hw
    refine ⟨xs, ?_, ?_⟩
    · rw [State.followRoot, hr]
      show s.buildMerged.arena.follow i xs = _
      rw [ha, follow_consume, hxs]
    · rw [ha, consume_children]; exact (hm.leafShape b).1

end Sys2Proof.Machine
end

