-- ==== Sys2Proof/Laws/BuildSingle.lean ====
section
/-! SUPPORT. The single-symbol tree is a tree (spec/41_tree_builder.md R136). -/

namespace Sys2Proof.Machine

/-- The pad symbol of a single symbol: the lowest other one (R136). -/
def padSymbol (b : Symbol) : Symbol := if b = 0#8 then 1#8 else 0#8

theorem padSymbol_ne (b : Symbol) : padSymbol b ≠ b := by
  unfold padSymbol
  split
  · next h => rw [h]; decide
  · next h => exact fun e => h e.symm

theorem padLeaf_symbolLeaf (b : Symbol) : padLeaf (symbolLeaf b) = symbolLeaf (padSymbol b) := by
  unfold padLeaf padSymbol
  by_cases h : b = 0#8
  · rw [if_pos h, if_pos (by rw [h]; rfl)]; rfl
  · rw [if_neg h, if_neg]
    · rfl
    · intro h'
      exact h (BitVec.eq_of_toNat_eq h')

/-- The nodes of the single-symbol tree. -/
theorem getElem_singleArena (freq : Vector Nat 256) (i k : Fin 511) :
    (singleArena freq i)[k] =
      if k = 256 then { weight := (freshArena freq)[i].weight, children := some (i, padLeaf i), consumed := true }
      else (((freshArena freq).consume i).consume (padLeaf i))[k] := getElem_set_slot _ 256 k _

theorem singleArena_children (freq : Vector Nat 256) (i k : Fin 511) :
    (singleArena freq i)[k].children = if k = 256 then some (i, padLeaf i) else none := by
  rw [getElem_singleArena]
  by_cases h : k = 256
  · rw [if_pos h, if_pos h]
  · rw [if_neg h, if_neg h, consume_children, consume_children, freshArena_children]

theorem symbolLeaf_ne_256 (b : Symbol) : symbolLeaf b ≠ 256 := by
  intro h
  have := congrArg Fin.val h
  have hb := b.isLt
  rw [symbolLeaf_val] at this
  have h256 : (256 : Fin 511).val = 256 := rfl
  omega

theorem singleArena_leaf_weight (freq : Vector Nat 256) (i : Fin 511) (b : Symbol) :
    (singleArena freq i)[symbolLeaf b].weight = freq[b.toNat]'b.isLt := by
  rw [getElem_singleArena, if_neg (symbolLeaf_ne_256 b), consume_weight, consume_weight, freshArena_leaf]; rfl

theorem singleArena_root_weight (freq : Vector Nat 256) (b : Symbol) :
    (singleArena freq (symbolLeaf b))[(256 : Fin 511)].weight = freq[b.toNat]'b.isLt := by
  rw [getElem_singleArena, if_pos rfl]
  show (freshArena freq)[symbolLeaf b].weight = _
  rw [freshArena_leaf]; rfl

theorem sum_single (l : List Nat) (k : Nat) (hk : k < l.length) (h : ∀ j, (hj : j < l.length) → j ≠ k → l[j] = 0) :
    l.sum = l[k] := by
  induction l generalizing k with
  | nil => simp at hk
  | cons x xs ih =>
    rw [List.sum_cons]
    cases k with
    | zero =>
      have : xs.sum = 0 := by
        rw [← List.map_id xs]
        refine sum_map_eq_zero id xs fun y hy => ?_
        obtain ⟨j, hj, rfl⟩ := List.getElem_of_mem hy
        exact h (j + 1) (by simpa using hj) (by omega)
      rw [this]; rfl
    | succ k =>
      have hx : x = 0 := h 0 (by simp) (by omega)
      rw [hx, ih k (by simpa using hk) fun j hj hjk => h (j + 1) (by simpa using hj) (by omega)]
      simp

/-- With one counted symbol the sum of all counts is its count. -/
theorem State.totalFreq_single {s : State} {b : Symbol} (h : ∀ c, c ≠ b → s.freqAt c = 0) :
    s.totalFreq = s.freqAt b := by
  have hb : b.toNat < 256 := b.isLt
  rw [State.totalFreq, sum_single s.freq.toList b.toNat (by simpa using hb) ?_]
  · simp [State.freqAt]
  · intro j hj hjb
    have hj' : j < 256 := by simpa using hj
    have hn : (BitVec.ofNat 8 j).toNat = j := by rw [BitVec.toNat_ofNat]; omega
    have := h (BitVec.ofNat 8 j) fun e => hjb (by rw [← e, hn])
    simp only [State.freqAt, hn] at this
    rw [Vector.getElem_toList]
    exact this

/-- BUILD with one counted symbol leaves a tree (R29, R136). -/
theorem State.buildSingle_treeOk {s : State} {b : Symbol} (h : ∀ c, c ≠ b → s.freqAt c = 0) :
    (s.buildSingle (symbolLeaf b)).TreeOk := by
  have hb := b.isLt
  have hp := (padSymbol b).isLt
  have h256 : (256 : Fin 511).val = 256 := rfl
  have hc : ∀ k : Fin 511, (s.buildSingle (symbolLeaf b)).arena[k].children =
      if k = 256 then some (symbolLeaf b, symbolLeaf (padSymbol b)) else none := by
    intro k
    rw [← padLeaf_symbolLeaf]
    exact singleArena_children s.freq (symbolLeaf b) k
  have hw : ∀ c, (s.buildSingle (symbolLeaf b)).arena[symbolLeaf c].weight = s.freqAt c :=
    fun c => singleArena_leaf_weight s.freq (symbolLeaf b) c
  have hr : (s.buildSingle (symbolLeaf b)).arena[(256 : Fin 511)].weight = s.freqAt b :=
    singleArena_root_weight s.freq b
  have hroot : (s.buildSingle (symbolLeaf b)).root = some 256 := rfl
  have hsome : ∀ k l r : Fin 511, (s.buildSingle (symbolLeaf b)).arena[k].children = some (l, r) →
      k = 256 ∧ l = symbolLeaf b ∧ r = symbolLeaf (padSymbol b) := by
    intro k l r hk
    rw [hc] at hk
    by_cases e : k = 256
    · rw [if_pos e] at hk
      obtain ⟨rfl, rfl⟩ := Prod.mk.inj (Option.some.inj hk)
      exact ⟨e, rfl, rfl⟩
    · rw [if_neg e] at hk; exact absurd hk (by simp)
  have hd : (s.buildSingle (symbolLeaf b)).arena.Descends := by
    refine ⟨fun k l r hk => ?_, fun k l r hk => ?_⟩ <;> obtain ⟨rfl, rfl, rfl⟩ := hsome k l r hk
    · exact le_refl _
    · constructor <;> rw [Fin.lt_def, symbolLeaf_val, h256] <;> assumption
  refine
    { root := ⟨256, hroot, le_refl _, rfl⟩
      internal := fun k => ?_
      merged := fun k l r hk => ?_
      oneParent := fun c k k' hk hk' => ?_
      leaves := hw
      total := fun r h' => ?_
      depth := depth_of_descends hd fun r h' => ?_
      reach := fun c hc' => ?_ }
  · rw [hc]
    have hn : (s.buildSingle (symbolLeaf b)).nextFree = 257 := rfl
    rw [hn]
    by_cases e : k = 256
    · rw [if_pos e, e, h256]; simp
    · rw [if_neg e]
      have : k.val ≠ 256 := fun e' => e (Fin.ext e')
      simp only [Option.isSome_none, Bool.false_eq_true, false_iff]
      omega
  · obtain ⟨h₁, h₂⟩ := hd.below k l r hk
    obtain ⟨rfl, rfl, rfl⟩ := hsome k l r hk
    refine ⟨h₁, h₂, fun e => padSymbol_ne b (symbolLeaf_inj e).symm, ?_⟩
    rw [hr, hw, hw, h _ (padSymbol_ne b), Nat.add_zero]
  · obtain ⟨l, r, h₁, _⟩ := Arena.childOf_iff.1 hk
    obtain ⟨l', r', h₂, _⟩ := Arena.childOf_iff.1 hk'
    rw [(hsome k l r h₁).1, (hsome k' l' r' h₂).1]
  · rw [hroot] at h'
    obtain rfl := Option.some.inj h'
    rw [hr]
    exact (State.totalFreq_single (s := s) h).symm
  · rw [hroot] at h'
    obtain rfl := Option.some.inj h'
    exact le_refl _
  · have e : c = b := by
      by_contra e
      exact hc' (h c e)
    rw [e]
    refine ⟨[false], ?_, by rw [hc, if_neg (symbolLeaf_ne_256 b)]⟩
    rw [State.followRoot, hroot]
    show (s.buildSingle (symbolLeaf b)).arena.follow 256 [false] = _
    exact Arena.follow_cons.2 ⟨_, _, hc 256, rfl⟩

end Sys2Proof.Machine
end

