-- ==== Sys2Proof/Laws/Bus.lean ====
section
/-! SUPPORT. What one access of the host does (spec/20_memory.md R60 to R71, spec/70_reset_and_hazards.md R261 to
R267), one lemma per kind of access, and the words of the bit and byte windows. -/

namespace Sys2Proof.Machine

/-! ## One step -/

theorem step_nil {s : State} (h : s.port.requests = []) : step s = .next s := by
  simp only [step, h]

theorem step_cons {s : State} {a : HostAccess} {rest : List HostAccess} (h : s.port.requests = a :: rest) :
    step s = perform (s.take rest) (s.busAction a) := by
  simp only [step, h]

theorem State.inWindow_iff {s : State} {a : Nat} :
    s.inWindow a = true ↔ s.params.base ≤ a ∧ a - s.params.base < 0x1000000 := by
  rw [State.inWindow, Bool.and_eq_true, decide_eq_true_eq, decide_eq_true_eq]; rfl

/-- A read in the window with no command pending: answered with the map's word. -/
theorem step_read_ok {s : State} {a n : Nat} {w : Word} {rest : List HostAccess}
    (h : s.port.requests = .read a n :: rest) (hw : s.inWindow a = true) (hp : s.pending = false)
    (hr : s.readAt (a - s.params.base) n = .ok w) : step s = .next ((s.take rest).answer w) := by
  rw [step_cons h]
  simp only [State.busAction, State.readAction, hw, hp, hr, if_true]
  rfl

/-- A read the map rejects. -/
theorem step_read_error {s : State} {a n : Nat} {e : BusError} {rest : List HostAccess}
    (h : s.port.requests = .read a n :: rest) (hw : s.inWindow a = true) (hp : s.pending = false)
    (hr : s.readAt (a - s.params.base) n = .error e) : step s = .fault (.busError e) := by
  rw [step_cons h]
  simp only [State.busAction, State.readAction, hw, hp, hr, if_true]
  rfl

/-- A STATUS word read while a command is pending. -/
theorem step_poll {s : State} {rest : List HostAccess} (hp : s.pending = true)
    (h : s.port.requests = .read (s.params.base + 0x14) 4 :: rest) : step s = .next (s.take rest).poll := by
  have hw : s.inWindow (s.params.base + 0x14) = true := State.inWindow_iff.2 ⟨by omega, by omega⟩
  rw [step_cons h]
  simp only [State.busAction, State.readAction, hw, hp, statusOffset, Nat.add_sub_cancel_left, and_self, if_true]
  rfl

/-- A CMD write with no command pending. -/
theorem step_issue {s : State} {w : Word} {rest : List HostAccess} (hp : s.pending = false)
    (h : s.port.requests = .write (s.params.base + 0x10) 4 w :: rest) :
    step s = runCommand w ((s.take rest).issue w) := by
  have hw : s.inWindow (s.params.base + 0x10) = true := State.inWindow_iff.2 ⟨by omega, by omega⟩
  rw [step_cons h]
  simp only [State.busAction, State.writeAction, hw, hp, cmdOffset, Nat.add_sub_cancel_left, if_true]
  rfl

/-- The hardware reset input. -/
theorem step_reset {s : State} {rest : List HostAccess} (h : s.port.requests = .reset :: rest) :
    step s = .next (s.take rest).hardwareReset := by
  rw [step_cons h]; rfl

/-! ## Reads -/

/-- A word of the map is what the host reads there. -/
theorem State.reads_of_mapWord {s : State} {o : Nat} {w : Word} (ha : o % 4 = 0) (ho : o < 0x1000000)
    (h : { s with pending := false }.mapWord o = .ok w) : s.Reads o w := by
  intro rest
  refine step_read_ok (s := { s with
    pending := false
    port := { s.port with requests := .read (s.params.base + o) 4 :: rest } }) rfl
    (State.inWindow_iff.2 ⟨by simp, by simpa using ho⟩) rfl ?_
  simp only [Nat.add_sub_cancel_left, State.readAt, ha, if_true]
  exact h

theorem windowWord_ok {α : Type} {n : Nat} (v : Vector α n) (f : α → Word) (k : Nat) (h : k < n) :
    windowWord v f k = .ok (f v[k]) := by
  simp [windowWord, h]

/-! ## Bits of the window words -/

/-- Bit `7 - i` of a capped byte is position `8k + i` of the buffer, 0 at or past the capacity (R13, R68). -/
theorem Memory.cappedByte_getLsbD (m : Memory) (cap k i : Nat) (hi : i < 8) :
    (m.cappedByte cap k).getLsbD (7 - i) = (decide (8 * k + i < cap) && m.readBit (8 * k + i)) := by
  have hb : m.readBit (8 * k + i) = (m.read k).getLsbD (7 - i) := by
    rw [Memory.readBit, show (8 * k + i) / 8 = k by omega, show (8 * k + i) % 8 = i by omega]
  rw [hb, Memory.cappedByte]
  split
  · rw [decide_eq_true (by omega), Bool.true_and]
  · split
    · rw [decide_eq_false (by omega), Bool.false_and]; simp
    · next h₁ h₂ =>
      rw [BitVec.getLsbD_and, BitVec.getLsbD_shiftLeft]
      by_cases h : 8 * k + i < cap
      · have h₃ : ¬ 7 - i < 8 * k + 8 - cap := by omega
        have h₄ : (0xFF#8).getLsbD (7 - i - (8 * k + 8 - cap)) = true := by
          have : 7 - i - (8 * k + 8 - cap) < 8 := by omega
          generalize 7 - i - (8 * k + 8 - cap) = x at this
          interval_cases x <;> rfl
        simp [h, h₃, h₄, show 7 - i < 8 by omega]
      · have h₃ : 7 - i < 8 * k + 8 - cap := by omega
        simp [h, h₃]

/-- Bit `31 - i` of word `j` is position `32j + i`, 0 at or past the capacity (R66, R68). -/
theorem Memory.packedWord_getLsbD (m : Memory) (cap j i : Nat) (hi : i < 32) :
    (m.packedWord cap j).getLsbD (31 - i) = (decide (32 * j + i < cap) && m.readBit (32 * j + i)) := by
  rw [Memory.packedWord, BitVec.getLsbD_append, BitVec.getLsbD_append, BitVec.getLsbD_append]
  by_cases h₀ : i < 8
  · rw [if_neg (by omega), if_neg (by omega), if_neg (by omega),
      show 31 - i - 8 - 8 - 8 = 7 - i by omega, Memory.cappedByte_getLsbD _ _ _ _ h₀,
      show 8 * (4 * j) + i = 32 * j + i by omega]
  · by_cases h₁ : i < 16
    · rw [if_neg (by omega), if_neg (by omega), if_pos (by omega),
        show 31 - i - 8 - 8 = 7 - (i - 8) by omega, Memory.cappedByte_getLsbD _ _ _ _ (by omega),
        show 8 * (4 * j + 1) + (i - 8) = 32 * j + i by omega]
    · by_cases h₂ : i < 24
      · rw [if_neg (by omega), if_pos (by omega),
          show 31 - i - 8 = 7 - (i - 16) by omega, Memory.cappedByte_getLsbD _ _ _ _ (by omega),
          show 8 * (4 * j + 2) + (i - 16) = 32 * j + i by omega]
      · rw [if_pos (by omega), show 31 - i = 7 - (i - 24) by omega, Memory.cappedByte_getLsbD _ _ _ _ (by omega),
          show 8 * (4 * j + 3) + (i - 24) = 32 * j + i by omega]

/-- Byte `k` of a buffer whose capacity is whole bytes (R67, R68). -/
theorem Memory.cappedByte_bytes (m : Memory) (n k : Nat) :
    m.cappedByte (8 * n) k = if k < n then m.read k else 0#8 := by
  unfold Memory.cappedByte
  by_cases h : k < n
  · rw [if_pos h, if_pos (by omega)]
  · rw [if_neg h, if_neg (by omega), if_pos (by omega)]

end Sys2Proof.Machine
end

