-- ==== Sys2Proof/Laws/Gen.lean ====
section
/-! SUPPORT. GEN's walk (spec/42_code_table.md): it records, in order, the counted leaves of `leafPaths`; on a tree
it never leaves CODEBUF. -/

namespace Sys2Proof.Machine

/-! ## The leaves of a subtree -/

/-- The leaves below node `i` in the order of GEN's visit, each with its path after `path`. -/
def leafPaths (a : Arena) : Nat → Fin 511 → List Bool → List (Symbol × List Bool)
  | 0, _, _ => []
  | fuel + 1, i, path =>
    match a[i].children with
    | none => match leafSymbol i with
      | none => []
      | some b => [(b, path)]
    | some (l, r) => leafPaths a fuel l (path ++ [false]) ++ leafPaths a fuel r (path ++ [true])

/-- Those leaves with a nonzero weight (R152). -/
def counted (a : Arena) (ps : List (Symbol × List Bool)) : List (Symbol × List Bool) :=
  ps.filter fun p => decide (a[symbolLeaf p.1].weight ≠ 0)

/-- The sum of the path lengths. -/
def pathBits (ps : List (Symbol × List Bool)) : Nat := (ps.map fun p => p.2.length).sum

/-- The codes of `ps` recorded one after another. -/
def CodeGen.recordAll (g : CodeGen) (ps : List (Symbol × List Bool)) : CodeGen :=
  ps.foldl (fun g p => g.record p.1 p.2) g

theorem counted_append (a : Arena) (ps qs : List (Symbol × List Bool)) :
    counted a (ps ++ qs) = counted a ps ++ counted a qs := List.filter_append ..

theorem recordAll_append (g : CodeGen) (ps qs : List (Symbol × List Bool)) :
    g.recordAll (ps ++ qs) = (g.recordAll ps).recordAll qs := List.foldl_append

theorem pathBits_append (ps qs : List (Symbol × List Bool)) : pathBits (ps ++ qs) = pathBits ps + pathBits qs := by
  simp [pathBits]

theorem pathBits_counted_le (a : Arena) (ps : List (Symbol × List Bool)) : pathBits (counted a ps) ≤ pathBits ps := by
  induction ps with
  | nil => exact le_refl _
  | cons p ps ih =>
    have h : pathBits (p :: ps) = p.2.length + pathBits ps := by simp [pathBits]
    rw [counted, List.filter_cons]
    split
    · have h' : pathBits (p :: counted a ps) = p.2.length + pathBits (counted a ps) := by simp [pathBits]
      change pathBits (p :: counted a ps) ≤ _
      omega
    · change pathBits (counted a ps) ≤ _
      omega

theorem recordAll_cur (g : CodeGen) (ps : List (Symbol × List Bool)) : (g.recordAll ps).cur = g.cur + pathBits ps := by
  induction ps generalizing g with
  | nil => rfl
  | cons p ps ih =>
    show ((g.record p.1 p.2).recordAll ps).cur = _
    rw [ih]
    simp [CodeGen.record, pathBits]
    omega

theorem Memory.writeBits_append (m : Memory) (k : Nat) (xs ys : List Bool) :
    m.writeBits k (xs ++ ys) = (m.writeBits k xs).writeBits (k + xs.length) ys := by
  induction xs generalizing m k with
  | nil => rfl
  | cons x xs ih =>
    show (m.writeBit k x).writeBits (k + 1) (xs ++ ys) = _
    rw [ih]
    show _ = ((m.writeBit k x).writeBits (k + 1) xs).writeBits _ ys
    rw [List.length_cons, Nat.add_assoc, Nat.add_comm 1]

/-- CODEBUF after recording: the paths one after another from the cursor on. -/
theorem recordAll_buf (g : CodeGen) (ps : List (Symbol × List Bool)) :
    (g.recordAll ps).buf = g.buf.writeBits g.cur (ps.flatMap Prod.snd) := by
  induction ps generalizing g with
  | nil => rfl
  | cons p ps ih =>
    show ((g.record p.1 p.2).recordAll ps).buf = _
    rw [ih, List.flatMap_cons, Memory.writeBits_append]
    rfl

theorem length_flatMap_paths (ps : List (Symbol × List Bool)) : (ps.flatMap Prod.snd).length = pathBits ps := by
  rw [List.length_flatMap]; rfl

/-- The table and the cursor after recording do not depend on CODEBUF. -/
theorem recordAll_table (t : Vector CodeEntry 256) (m m' : Memory) (n : Nat) (ps : List (Symbol × List Bool)) :
    (CodeGen.recordAll ⟨t, m, n⟩ ps).table = (CodeGen.recordAll ⟨t, m', n⟩ ps).table := by
  induction ps generalizing t m m' n with
  | nil => rfl
  | cons p ps ih => exact ih _ _ _ _

/-! ## The walk -/

theorem visitLeaf_done {a : Arena} {i : Fin 511} {path : List Bool} {g g' : CodeGen}
    (h : visitLeaf a i path g = .done g') : ∃ b, leafSymbol i = some b ∧ g' = g.recordAll (counted a [(b, path)]) := by
  unfold visitLeaf at h
  cases e : leafSymbol i with
  | none => rw [e] at h; exact absurd h (by simp)
  | some b =>
    refine ⟨b, rfl, ?_⟩
    obtain rfl := leafSymbol_eq_some.1 e
    simp only [e] at h
    by_cases hw : a[symbolLeaf b].weight = 0
    · rw [if_pos hw] at h
      simp only [counted, List.filter_cons, List.filter_nil, hw]
      exact (GenOutcome.done.inj h).symm
    · rw [if_neg hw] at h
      split at h
      · exact absurd h (by simp)
      · have hd : decide (a[symbolLeaf b].weight ≠ 0) = true := decide_eq_true hw
        simp only [counted, List.filter_cons, List.filter_nil, hd, if_true]
        exact (GenOutcome.done.inj h).symm

/-- A walk that comes back has recorded the counted leaves. -/
theorem visit_done {a : Arena} (fuel : Nat) {i : Fin 511} {path : List Bool} {g g' : CodeGen}
    (h : visit a fuel i path g = .done g') : g' = g.recordAll (counted a (leafPaths a fuel i path)) := by
  induction fuel generalizing i path g g' with
  | zero => exact absurd h (by simp [visit])
  | succ fuel ih =>
    rw [visit] at h
    rw [leafPaths]
    cases e : a[i].children with
    | none =>
      simp only [e] at h
      obtain ⟨b, hb, hg⟩ := visitLeaf_done h
      simpa only [hb] using hg
    | some p =>
      obtain ⟨l, r⟩ := p
      simp only [e] at h
      cases hl : visit a fuel l (path ++ [false]) g with
      | done g₁ =>
        simp only [hl] at h
        simp only
        rw [counted_append, recordAll_append, ← ih hl]
        exact ih h
      | full g₁ => simp only [hl] at h; exact absurd h (by simp)
      | notATree => simp only [hl] at h; exact absurd h (by simp)

/-- Whether a walk comes back depends on the cursor alone, not on what has been written. -/
theorem visit_done_congr {a : Arena} (fuel : Nat) {i : Fin 511} {path : List Bool} {g g' g₂ : CodeGen}
    (h : visit a fuel i path g = .done g') (hc : g₂.cur = g.cur) : ∃ g₂', visit a fuel i path g₂ = .done g₂' := by
  induction fuel generalizing i path g g' g₂ with
  | zero => exact absurd h (by simp [visit])
  | succ fuel ih =>
    rw [visit] at h ⊢
    cases e : a[i].children with
    | none =>
      simp only [e] at h
      simp only
      unfold visitLeaf at h ⊢
      cases hb : leafSymbol i with
      | none => rw [hb] at h; exact absurd h (by simp)
      | some b =>
        simp only [hb] at h
        simp only
        split
        · exact ⟨_, rfl⟩
        · next hw =>
          rw [if_neg hw] at h
          rw [hc]
          split at h
          · exact absurd h (by simp)
          · next hf => rw [if_neg hf]; exact ⟨_, rfl⟩
    | some p =>
      obtain ⟨l, r⟩ := p
      simp only [e] at h
      simp only
      cases hl : visit a fuel l (path ++ [false]) g with
      | done g₁ =>
        simp only [hl] at h
        obtain ⟨g₃, h₃⟩ := ih hl hc
        rw [h₃]
        refine ih h ?_
        rw [visit_done fuel h₃, visit_done fuel hl, recordAll_cur, recordAll_cur, hc]
      | full g₁ => simp only [hl] at h; exact absurd h (by simp)
      | notATree => simp only [hl] at h; exact absurd h (by simp)

/-- A walk comes back if every leaf is a symbol's slot and the codes fit. -/
theorem visit_spec {a : Arena} (hd : a.Descends) {top : Fin 511}
    (hleaf : ∀ k : Fin 511, k ≤ top → a[k].children = none → k.val < 256) (fuel : Nat) {i : Fin 511}
    (hi : i ≤ top) (hfuel : i.val < fuel) (path : List Bool) (g : CodeGen)
    (hfit : g.cur + pathBits (counted a (leafPaths a fuel i path)) ≤ Config.codeBits) :
    visit a fuel i path g = .done (g.recordAll (counted a (leafPaths a fuel i path))) := by
  suffices h : ∃ g', visit a fuel i path g = .done g' by
    obtain ⟨g', h⟩ := h
    rw [h, visit_done fuel h]
  induction fuel generalizing i path g with
  | zero => omega
  | succ fuel ih =>
    rw [visit]
    rw [leafPaths] at hfit
    cases e : a[i].children with
    | none =>
      obtain ⟨b, hb, rfl⟩ := leafSymbol_of_lt (hleaf i hi e)
      simp only [e, hb] at hfit
      simp only [visitLeaf, hb]
      split
      · exact ⟨_, rfl⟩
      · next hw =>
        have hd : decide (a[symbolLeaf b].weight ≠ 0) = true := decide_eq_true hw
        simp only [counted, List.filter_cons, List.filter_nil, hd, if_true] at hfit
        rw [if_neg (by simp [pathBits] at hfit; omega)]
        exact ⟨_, rfl⟩
    | some p =>
      obtain ⟨l, r⟩ := p
      obtain ⟨hl, hr⟩ := hd.below i l r e
      have hl' := Fin.lt_def.1 hl
      have hr' := Fin.lt_def.1 hr
      simp only [e] at hfit
      rw [counted_append, pathBits_append] at hfit
      obtain ⟨g₁, h₁⟩ := ih (i := l) (le_trans hl.le hi) (by omega) (path ++ [false]) g (by omega)
      simp only [h₁]
      refine ih (i := r) (le_trans hr.le hi) (by omega) _ _ ?_
      rw [visit_done fuel h₁, recordAll_cur]
      omega

/-- A walk whose codes do not fit stops with CODEBUF full (R153). -/
theorem visit_full {a : Arena} (hd : a.Descends) {top : Fin 511}
    (hleaf : ∀ k : Fin 511, k ≤ top → a[k].children = none → k.val < 256) (fuel : Nat) {i : Fin 511}
    (hi : i ≤ top) (hfuel : i.val < fuel) (path : List Bool) (g : CodeGen) (hg : g.cur ≤ Config.codeBits)
    (hfull : Config.codeBits < g.cur + pathBits (counted a (leafPaths a fuel i path))) :
    ∃ g', visit a fuel i path g = .full g' := by
  induction fuel generalizing i path g with
  | zero => omega
  | succ fuel ih =>
    rw [visit]
    rw [leafPaths] at hfull
    cases e : a[i].children with
    | none =>
      obtain ⟨b, hb, rfl⟩ := leafSymbol_of_lt (hleaf i hi e)
      simp only [e, hb, counted, List.filter_cons, List.filter_nil] at hfull
      simp only [visitLeaf, hb]
      by_cases hw : a[symbolLeaf b].weight = 0
      · rw [if_neg (fun h => absurd hw (of_decide_eq_true h))] at hfull
        simp only [pathBits, List.map_nil, List.sum_nil] at hfull
        omega
      · rw [if_pos (decide_eq_true hw)] at hfull
        simp only [pathBits, List.map_cons, List.map_nil, List.sum_cons, List.sum_nil] at hfull
        rw [if_neg hw, if_pos (by omega)]
        exact ⟨_, rfl⟩
    | some p =>
      obtain ⟨l, r⟩ := p
      obtain ⟨hl, hr⟩ := hd.below i l r e
      have hl' := Fin.lt_def.1 hl
      have hr' := Fin.lt_def.1 hr
      simp only [e] at hfull
      rw [counted_append, pathBits_append] at hfull
      by_cases hfit : g.cur + pathBits (counted a (leafPaths a fuel l (path ++ [false]))) ≤ Config.codeBits
      · simp only [visit_spec hd hleaf fuel (le_trans hl.le hi) (by omega) (path ++ [false]) g hfit]
        refine ih (le_trans hr.le hi) (by omega) _ _ ?_ ?_ <;> rw [recordAll_cur] <;> omega
      · obtain ⟨g', h⟩ := ih (le_trans hl.le hi) (by omega) (path ++ [false]) g hg (by omega)
        exact ⟨g', by simp only [h]⟩

/-! ## Which leaves, and how long their paths are -/

/-- The leaves listed are those that branch bits reach. -/
theorem mem_leafPaths {a : Arena} (hd : a.Descends) (fuel : Nat) {i : Fin 511} (hfuel : i.val < fuel)
    {path xs : List Bool} {b : Symbol} :
    (b, xs) ∈ leafPaths a fuel i path ↔
      ∃ ys, xs = path ++ ys ∧ a.follow i ys = some (symbolLeaf b) ∧ a[symbolLeaf b].children = none := by
  induction fuel generalizing i path with
  | zero => omega
  | succ fuel ih =>
    rw [leafPaths]
    cases e : a[i].children with
    | none =>
      constructor
      · intro h
        cases hb : leafSymbol i with
        | none => simp only [hb] at h; exact absurd h (by simp)
        | some c =>
          simp only [hb, List.mem_singleton, Prod.mk.injEq] at h
          obtain ⟨rfl, rfl⟩ := h
          obtain rfl := leafSymbol_eq_some.1 hb
          exact ⟨[], by simp, rfl, e⟩
      · rintro ⟨ys, rfl, hf, _⟩
        obtain rfl : ys = [] := Arena.follow_leaf_end (xs := []) rfl e hf
        rw [Arena.follow_nil] at hf
        obtain rfl := Option.some.inj hf
        simp [leafSymbol_symbolLeaf]
    | some p =>
      obtain ⟨l, r⟩ := p
      obtain ⟨hl, hr⟩ := hd.below i l r e
      have hl' := Fin.lt_def.1 hl
      have hr' := Fin.lt_def.1 hr
      simp only
      rw [List.mem_append, ih (by omega), ih (by omega)]
      constructor
      · rintro (⟨ys, rfl, hf, hc⟩ | ⟨ys, rfl, hf, hc⟩)
        · exact ⟨false :: ys, by simp, Arena.follow_cons.2 ⟨l, r, e, hf⟩, hc⟩
        · exact ⟨true :: ys, by simp, Arena.follow_cons.2 ⟨l, r, e, hf⟩, hc⟩
      · rintro ⟨ys, rfl, hf, hc⟩
        cases ys with
        | nil =>
          rw [Arena.follow_nil] at hf
          obtain rfl := Option.some.inj hf
          rw [e] at hc
          exact absurd hc (by simp)
        | cons y ys =>
          obtain ⟨l', r', e', hf⟩ := Arena.follow_cons.1 hf
          rw [e] at e'
          obtain ⟨rfl, rfl⟩ := Prod.mk.inj (Option.some.inj e')
          cases y
          · exact .inl ⟨ys, by simp, hf, hc⟩
          · exact .inr ⟨ys, by simp, hf, hc⟩

theorem leftOf_append (path xs ys : List Bool) : leftOf (path ++ xs) (path ++ ys) = leftOf xs ys := by
  induction path with
  | nil => rfl
  | cons x path ih => simp only [List.cons_append, leftOf, if_true, ih]

/-- Every path listed starts with the given one. -/
theorem leafPaths_prefix {a : Arena} (fuel : Nat) {i : Fin 511} {path : List Bool} {p : Symbol × List Bool}
    (h : p ∈ leafPaths a fuel i path) : ∃ ys, p.2 = path ++ ys := by
  induction fuel generalizing i path with
  | zero => exact absurd h (by simp [leafPaths])
  | succ fuel ih =>
    rw [leafPaths] at h
    split at h
    · split at h
      · exact absurd h (by simp)
      · rw [List.mem_singleton.1 h]; exact ⟨[], by simp⟩
    · rcases List.mem_append.1 h with h | h
      · obtain ⟨ys, hy⟩ := ih h; exact ⟨false :: ys, by rw [hy, List.append_assoc]; rfl⟩
      · obtain ⟨ys, hy⟩ := ih h; exact ⟨true :: ys, by rw [hy, List.append_assoc]; rfl⟩

/-- The leaves are listed from left to right (R154). -/
theorem leafPaths_leftOf (a : Arena) (fuel : Nat) (i : Fin 511) (path : List Bool) :
    (leafPaths a fuel i path).Pairwise fun p q => leftOf p.2 q.2 = true := by
  induction fuel generalizing i path with
  | zero => exact List.Pairwise.nil
  | succ fuel ih =>
    rw [leafPaths]
    split
    · split
      · exact List.Pairwise.nil
      · exact List.pairwise_singleton ..
    · refine List.pairwise_append.2 ⟨ih .., ih .., fun p hp q hq => ?_⟩
      obtain ⟨ys, hy⟩ := leafPaths_prefix fuel hp
      obtain ⟨zs, hz⟩ := leafPaths_prefix fuel hq
      rw [hy, hz, List.append_assoc, List.append_assoc, leftOf_append]
      rfl

theorem leftOf_asymm {xs ys : List Bool} (h : leftOf xs ys = true) : leftOf ys xs = false := by
  induction xs generalizing ys with
  | nil => exact absurd h (by simp [leftOf])
  | cons x xs ih =>
    cases ys with
    | nil => rfl
    | cons y ys =>
      rw [leftOf] at h ⊢
      by_cases e : x = y
      · rw [if_pos e] at h; rw [if_pos e.symm]; exact ih h
      · rw [if_neg e] at h; rw [if_neg (Ne.symm e)]
        cases x <;> cases y <;> simp_all

/-- No symbol is listed twice. -/
theorem leafPaths_nodup {a : Arena} (hd : a.Descends)
    (one : ∀ c i j : Fin 511, a.childOf c i → a.childOf c j → i = j)
    (two : ∀ i l r : Fin 511, a[i].children = some (l, r) → l ≠ r) (fuel : Nat) {i : Fin 511}
    (hfuel : i.val < fuel) (path : List Bool) : ((leafPaths a fuel i path).map Prod.fst).Nodup := by
  induction fuel generalizing i path with
  | zero => omega
  | succ fuel ih =>
    rw [leafPaths]
    cases e : a[i].children with
    | none => simp only; split <;> simp
    | some p =>
      obtain ⟨l, r⟩ := p
      obtain ⟨hl, hr⟩ := hd.below i l r e
      have hl' := Fin.lt_def.1 hl
      have hr' := Fin.lt_def.1 hr
      simp only
      rw [List.map_append, List.nodup_append]
      refine ⟨ih (by omega) _, ih (by omega) _, ?_⟩
      rintro b hb c hc rfl
      obtain ⟨⟨b, xs⟩, h₁, rfl⟩ := List.mem_map.1 hb
      obtain ⟨⟨c, zs⟩, h₂, e₂⟩ := List.mem_map.1 hc
      obtain rfl : c = b := e₂
      obtain ⟨ys, _, hf, _⟩ := (mem_leafPaths hd fuel (by omega)).1 h₁
      obtain ⟨ws, _, hf', _⟩ := (mem_leafPaths hd fuel (by omega)).1 h₂
      have := hd.path_unique one two (false :: ys) (true :: ws) _
        (Arena.follow_cons.2 ⟨l, r, e, hf⟩) (Arena.follow_cons.2 ⟨l, r, e, hf'⟩)
      exact absurd this (by simp)

theorem pair_bound (p q A B : Nat) (hp : 1 ≤ p) (hq : 1 ≤ q) (hA : 2 * A + 2 ≤ p * (p + 1))
    (hB : 2 * B + 2 ≤ q * (q + 1)) : 2 * (A + p + (B + q)) + 2 ≤ (p + q) * (p + q + 1) := by
  obtain ⟨p, rfl⟩ := Nat.exists_eq_add_of_le hp
  obtain ⟨q, rfl⟩ := Nat.exists_eq_add_of_le hq
  nlinarith [Nat.zero_le (p * q)]

/-- The paths below a node with `n` leaves have at most `(n - 1)(n + 2) / 2` bits beyond the node's own path. -/
theorem pathBits_leafPaths {a : Arena} (hd : a.Descends) {top : Fin 511}
    (hleaf : ∀ k : Fin 511, k ≤ top → a[k].children = none → k.val < 256) (fuel : Nat) {i : Fin 511}
    (hi : i ≤ top) (hfuel : i.val < fuel) (path : List Bool) :
    ∃ n A, (leafPaths a fuel i path).length = n ∧ 1 ≤ n ∧
      pathBits (leafPaths a fuel i path) = A + n * path.length ∧ 2 * A + 2 ≤ n * (n + 1) := by
  induction fuel generalizing i path with
  | zero => omega
  | succ fuel ih =>
    rw [leafPaths]
    cases e : a[i].children with
    | none =>
      obtain ⟨b, hb, rfl⟩ := leafSymbol_of_lt (hleaf i hi e)
      exact ⟨1, 0, by simp [hb], le_refl _, by simp [hb, pathBits], by omega⟩
    | some p =>
      obtain ⟨l, r⟩ := p
      obtain ⟨hl, hr⟩ := hd.below i l r e
      have hl' := Fin.lt_def.1 hl
      have hr' := Fin.lt_def.1 hr
      simp only
      obtain ⟨n, A, h₁, h₂, h₃, h₄⟩ := ih (i := l) (le_trans hl.le hi) (by omega) (path ++ [false])
      obtain ⟨m, B, k₁, k₂, k₃, k₄⟩ := ih (i := r) (le_trans hr.le hi) (by omega) (path ++ [true])
      refine ⟨n + m, A + n + (B + m), by rw [List.length_append, h₁, k₁], by omega, ?_, pair_bound n m A B h₂ k₂ h₄ k₄⟩
      rw [pathBits_append, h₃, k₃]
      simp only [List.length_append, List.length_cons, List.length_nil]
      ring

/-! ## What recording leaves -/

/-- The entries and bits after recording codes of distinct symbols. -/
theorem recordAll_spec (ps : List (Symbol × List Bool)) (hn : (ps.map Prod.fst).Nodup) (g : CodeGen)
    (hwf : g.buf.wf = true) :
    (∀ b, b ∉ ps.map Prod.fst → (g.recordAll ps).table[b.toNat]'b.isLt = g.table[b.toNat]'b.isLt) ∧
      ∀ b xs, (b, xs) ∈ ps → ∃ off, g.cur ≤ off ∧ off + xs.length ≤ (g.recordAll ps).cur ∧
        (g.recordAll ps).table[b.toNat]'b.isLt = { valid := true, len := xs.length, off := off } ∧
        (g.recordAll ps).buf.readBits off xs.length = xs := by
  induction ps generalizing g with
  | nil => exact ⟨fun _ _ => rfl, fun b xs h => absurd h (by simp)⟩
  | cons p ps ih =>
    obtain ⟨c, ys⟩ := p
    rw [List.map_cons, List.nodup_cons] at hn
    obtain ⟨hc, hn⟩ := hn
    have hwf' : (g.record c ys).buf.wf = true := Memory.wf_writeBits _ _ hwf
    obtain ⟨h₁, h₂⟩ := ih hn (g.record c ys) hwf'
    have e : g.recordAll ((c, ys) :: ps) = (g.record c ys).recordAll ps := rfl
    rw [e]
    have hset : ∀ b : Symbol, (g.record c ys).table[b.toNat]'b.isLt =
        if b = c then { valid := true, len := ys.length, off := g.cur } else g.table[b.toNat]'b.isLt := by
      intro b
      simp only [CodeGen.record, Vector.getElem_set]
      by_cases hbc : b = c
      · simp [hbc]
      · have : c.toNat ≠ b.toNat := fun e => hbc (BitVec.eq_of_toNat_eq e.symm)
        simp [hbc, this]
    have hcur := recordAll_cur (g.record c ys) ps
    have hrc : (g.record c ys).cur = g.cur + ys.length := rfl
    constructor
    · intro b hb
      rw [List.map_cons, List.mem_cons, not_or] at hb
      rw [h₁ b hb.2, hset, if_neg hb.1]
    · intro b xs hb
      rcases List.mem_cons.1 hb with hb | hb
      · obtain ⟨rfl, rfl⟩ := Prod.mk.inj hb
        refine ⟨g.cur, le_refl _, by omega, by rw [h₁ _ hc, hset, if_pos rfl], ?_⟩
        rw [recordAll_buf, Memory.readBits_writeBits_of_outside _ _ _ _ hwf' (.inl (by omega))]
        exact Memory.readBits_writeBits _ _ hwf
      · obtain ⟨off, k₁, k₂, k₃, k₄⟩ := h₂ b xs hb
        exact ⟨off, by omega, k₂, k₃, k₄⟩

/-- Each code's offset is the sum of the lengths recorded before it (R154). -/
theorem recordAll_offset (ps qs : List (Symbol × List Bool)) (b : Symbol) (xs : List Bool)
    (hn : b ∉ qs.map Prod.fst) (g : CodeGen) :
    (g.recordAll (ps ++ (b, xs) :: qs)).table[b.toNat]'b.isLt =
      { valid := true, len := xs.length, off := g.cur + pathBits ps } := by
  have keep : ∀ (qs : List (Symbol × List Bool)) (g : CodeGen), b ∉ qs.map Prod.fst →
      (g.recordAll qs).table[b.toNat]'b.isLt = g.table[b.toNat]'b.isLt := by
    intro qs
    induction qs with
    | nil => exact fun _ _ => rfl
    | cons q qs ih =>
      intro g hb
      rw [List.map_cons, List.mem_cons, not_or] at hb
      have hne : q.1.toNat ≠ b.toNat := fun e => hb.1 (BitVec.eq_of_toNat_eq e.symm)
      show ((g.record q.1 q.2).recordAll qs).table[b.toNat]'b.isLt = _
      rw [ih _ hb.2]
      simp only [CodeGen.record, Vector.getElem_set, hne, if_false]
  rw [recordAll_append]
  show (((g.recordAll ps).record b xs).recordAll qs).table[b.toNat]'b.isLt = _
  rw [keep _ _ hn]
  simp only [CodeGen.record, Vector.getElem_set, if_true, recordAll_cur]

/-- Of codes listed from left to right, the one to the left lies before the other (R154). -/
theorem recordAll_leftOf {ps : List (Symbol × List Bool)} (hn : (ps.map Prod.fst).Nodup)
    (hp : ps.Pairwise fun p q => leftOf p.2 q.2 = true) (g : CodeGen) {b c : Symbol} {xs ys : List Bool}
    (hb : (b, xs) ∈ ps) (hc : (c, ys) ∈ ps) (hl : leftOf xs ys = true) :
    ((g.recordAll ps).table[b.toNat]'b.isLt).off + xs.length ≤ ((g.recordAll ps).table[c.toNat]'c.isLt).off := by
  obtain ⟨l, r, rfl⟩ := List.append_of_mem hc
  have hbl : (b, xs) ∈ l := by
    rcases List.mem_append.1 hb with h | h
    · exact h
    · rcases List.mem_cons.1 h with h | h
      · obtain ⟨rfl, rfl⟩ := Prod.mk.inj h
        rw [leftOf_asymm hl] at hl
        exact absurd hl (by simp)
      · have := (List.pairwise_cons.1 (List.pairwise_append.1 hp).2.1).1 _ h
        rw [leftOf_asymm this] at hl
        exact absurd hl (by simp)
  obtain ⟨l₁, l₂, rfl⟩ := List.append_of_mem hbl
  have hcr : c ∉ r.map Prod.fst := by
    rw [List.map_append, List.nodup_append, List.map_cons, List.nodup_cons] at hn
    exact hn.2.1.1
  have hbr : b ∉ (l₂ ++ (c, ys) :: r).map Prod.fst := by
    rw [List.append_assoc, List.map_append, List.nodup_append] at hn
    have := hn.2.1
    rw [List.cons_append, List.map_cons, List.nodup_cons] at this
    exact this.1
  have hoff := recordAll_offset l₁ (l₂ ++ (c, ys) :: r) b xs hbr g
  have hlen : pathBits ((b, xs) :: l₂) = xs.length + pathBits l₂ := by simp [pathBits]
  rw [recordAll_offset _ _ _ _ hcr, List.append_assoc, List.cons_append, hoff, pathBits_append, hlen]
  simp only
  omega

/-- The sum of CT_LEN after recording codes of distinct symbols whose entries were absent (R43). -/
theorem recordAll_lens (ps : List (Symbol × List Bool)) (hn : (ps.map Prod.fst).Nodup) (g : CodeGen)
    (h0 : ∀ b, b ∈ ps.map Prod.fst → (g.table[b.toNat]'b.isLt).len = 0) :
    ((g.recordAll ps).table.toList.map CodeEntry.len).sum = (g.table.toList.map CodeEntry.len).sum + pathBits ps := by
  induction ps generalizing g with
  | nil => simp [CodeGen.recordAll, pathBits]
  | cons p ps ih =>
    obtain ⟨c, ys⟩ := p
    rw [List.map_cons, List.nodup_cons] at hn
    obtain ⟨hc, hn⟩ := hn
    have e : g.recordAll ((c, ys) :: ps) = (g.record c ys).recordAll ps := rfl
    rw [e, ih hn]
    · have hlt : c.toNat < g.table.toList.length := by simpa using c.isLt
      have h := sum_map_set CodeEntry.len g.table.toList c.toNat { valid := true, len := ys.length, off := g.cur } hlt
      have h1 : (g.record c ys).table.toList =
          g.table.toList.set c.toNat { valid := true, len := ys.length, off := g.cur } := by
        exact Vector.toList_set (h := c.isLt)
      have h2 : (g.table.toList[c.toNat]).len = 0 := by
        have := h0 c (by simp)
        simpa using this
      rw [h1]
      simp only [h2] at h
      have h3 : pathBits ((c, ys) :: ps) = ys.length + pathBits ps := by simp [pathBits]
      omega
    · intro b hb
      have hbc : b ≠ c := fun e => hc (e ▸ hb)
      have : c.toNat ≠ b.toNat := fun e => hbc (BitVec.eq_of_toNat_eq e.symm)
      simp only [CodeGen.record, Vector.getElem_set, this, if_false]
      exact h0 b (by simp only [List.map_cons, List.mem_cons]; exact .inr hb)

/-! ## GEN on a tree -/

theorem State.TreeOk.descends {s : State} (h : s.TreeOk) : s.arena.Descends where
  high i l r hc := ((h.internal i).1 (by rw [hc]; rfl)).1
  below i l r hc := ⟨(h.merged i l r hc).1, (h.merged i l r hc).2.1⟩

theorem State.TreeOk.distinct {s : State} (h : s.TreeOk) (i l r : Fin 511) (hc : s.arena[i].children = some (l, r)) :
    l ≠ r := (h.merged i l r hc).2.2.1

/-- The codes GEN records from ROOT `r`. -/
def State.genCodes (s : State) (r : Fin 511) : List (Symbol × List Bool) :=
  counted s.arena (leafPaths s.arena 511 r [])

/-- On a tree GEN's walk comes back: it records the counted leaves with their paths, at most 32895 bits (R153). -/
theorem State.TreeOk.genWalk {s : State} (h : s.TreeOk) :
    ∃ r, s.root = some r ∧
      s.genWalk = .done (CodeGen.recordAll { table := clearedTable, buf := s.codebuf, cur := 0 } (s.genCodes r)) ∧
      ((s.genCodes r).map Prod.fst).Nodup ∧ pathBits (s.genCodes r) ≤ 32895 ∧
      ∀ b xs, (b, xs) ∈ s.genCodes r ↔ s.leadsTo xs b ∧ s.freqAt b ≠ 0 := by
  obtain ⟨r, hroot, hr, hn⟩ := h.root
  have hlt := r.isLt
  have hleaf : ∀ k : Fin 511, k ≤ r → s.arena[k].children = none → k.val < 256 := by
    intro k hk hc
    by_contra hge
    have := (h.internal k).2 ⟨by omega, by have := Fin.le_def.1 hk; omega⟩
    rw [hc] at this
    exact absurd this (by simp)
  have hnd := leafPaths_nodup h.descends h.oneParent h.distinct 511 hlt []
  have hlen : (leafPaths s.arena 511 r []).length ≤ 256 := by
    have := (hnd.map (f := BitVec.toFin) fun a b e => BitVec.toFin_inj.1 e).length_le_card
    simpa using this
  obtain ⟨n, A, h₁, h₂, h₃, h₄⟩ := pathBits_leafPaths h.descends hleaf 511 (le_refl r) hlt []
  have hbits : pathBits (leafPaths s.arena 511 r []) ≤ 32895 := by
    rw [h₃]
    have : n * (n + 1) ≤ 256 * 257 := Nat.mul_le_mul (by omega) (by omega)
    simp only [List.length_nil, Nat.mul_zero]
    omega
  have hcount := pathBits_counted_le s.arena (leafPaths s.arena 511 r [])
  refine ⟨r, hroot, ?_, ?_, ?_, ?_⟩
  · simp only [State.genWalk, hroot]
    exact visit_spec h.descends hleaf 511 (le_refl r) hlt [] _ (by
      have : Config.codeBits = 32896 := rfl
      simp only [this]
      omega)
  · exact hnd.sublist (List.filter_sublist.map Prod.fst)
  · exact le_trans hcount hbits
  · intro b xs
    rw [State.genCodes, counted, List.mem_filter, mem_leafPaths h.descends 511 hlt, decide_eq_true_eq, h.leaves,
      State.leadsTo, State.followRoot, hroot]
    simp only [List.nil_append, Option.bind_some]
    constructor
    · rintro ⟨⟨ys, rfl, hf, hc⟩, hw⟩; exact ⟨⟨hf, hc⟩, hw⟩
    · rintro ⟨⟨hf, hc⟩, hw⟩; exact ⟨⟨xs, rfl, hf, hc⟩, hw⟩

end Sys2Proof.Machine
end

