-- ==== Sys2Proof/Laws/Inv.lean ====
section
/-! SUPPORT. What the tree invariant depends on, and table facts read off a list. -/

namespace Sys2Proof.Machine

theorem State.leadsTo_congr {s t : State} (ha : t.arena = s.arena) (hr : t.root = s.root) (xs : List Bool) (b : Symbol) :
    t.leadsTo xs b ↔ s.leadsTo xs b := by
  simp only [State.leadsTo, State.followRoot, ha, hr]

/-- The tree invariant speaks of the arena, ROOT, NEXT_FREE and FREQ alone. -/
theorem State.TreeOk.congr {s t : State} (h : s.TreeOk) (ha : t.arena = s.arena) (hr : t.root = s.root)
    (hn : t.nextFree = s.nextFree) (hf : t.freq = s.freq) : t.TreeOk where
  root := by simpa only [hr, hn] using h.root
  internal i := by simpa only [ha, hn] using h.internal i
  merged i l r := by rw [ha]; exact h.merged i l r
  oneParent c i j := by simp only [Arena.childOf, ha]; exact h.oneParent c i j
  leaves b := by rw [ha, State.freqAt_congr hf]; exact h.leaves b
  total r hr' := by
    rw [ha]
    rw [hr] at hr'
    simp only [State.totalFreq, hf]
    exact h.total r hr'
  depth xs b hl := h.depth xs b ((State.leadsTo_congr ha hr xs b).1 hl)
  reach b hb := by
    rw [State.freqAt_congr hf] at hb
    obtain ⟨xs, hl⟩ := h.reach b hb
    exact ⟨xs, (State.leadsTo_congr ha hr xs b).2 hl⟩

/-- The code invariant speaks of the tree, FREQ, the code table, CODEBUF and CODE_FILL alone. -/
theorem State.CodesOk.congr {s t : State} (h : s.CodesOk) (ha : t.arena = s.arena) (hr : t.root = s.root)
    (hf : t.freq = s.freq) (hc : t.codeTable = s.codeTable) (hb : t.codebuf = s.codebuf)
    (hl : t.codeFill = s.codeFill) : t.CodesOk where
  valid b := by rw [State.codeAt_congr hc, State.freqAt_congr hf]; exact h.valid b
  inside b := by rw [State.codeAt_congr hc, hl]; exact h.inside b
  path b hv := by
    rw [State.codeAt_congr hc] at hv
    rw [State.leadsTo_congr ha hr, State.codeBitsOf, State.codeAt_congr hc, hb]
    exact h.path b hv

theorem of_all_toList {α : Type} {n : Nat} {v : Vector α n} {p : α → Bool} (h : v.toList.all p = true) (i : Nat)
    (hi : i < n) : p v[i] = true := by
  have hl : i < v.toList.length := by simpa using hi
  have := List.all_eq_true.1 h v.toList[i] (List.getElem_mem hl)
  simpa using this

end Sys2Proof.Machine
end

