-- ==== Sys2Proof/Laws/Walk.lean ====
section
/-! SUPPORT. DecodeOne follows the stream's bits down the tree, and the loops of DRUN and DSENT emit what the stream
holds (spec/45_decoder.md R200 to R209). -/

namespace Sys2Proof.Machine

/-! ## One symbol -/

/-- The walk ends at a leaf that the next bits lead to. -/
theorem walk_symbol {a : Arena} {m : Memory} {b : Symbol} (hc : a[symbolLeaf b].children = none) (xs : List Bool)
    {i : Fin 511} {cur avail : Nat} (hf : a.follow i xs = some (symbolLeaf b))
    (hx : m.readBits cur xs.length = xs) (hav : xs.length ≤ avail) :
    walk a m avail i cur = .symbol b (cur + xs.length) := by
  induction xs generalizing i cur avail with
  | nil =>
    rw [Arena.follow_nil] at hf
    obtain rfl := Option.some.inj hf
    cases avail <;> rw [walk] <;> simp only [hc, walkLeaf, leafSymbol_symbolLeaf] <;> rfl
  | cons x xs ih =>
    obtain ⟨l, r, e, hf⟩ := Arena.follow_cons.1 hf
    rw [List.length_cons, Memory.readBits_succ] at hx
    obtain ⟨hx₁, hx₂⟩ := List.cons.inj hx
    cases avail with
    | zero => simp at hav
    | succ avail =>
      rw [walk]
      simp only [e, hx₁]
      rw [ih hf hx₂ (by simpa using hav)]
      simp only [List.length_cons, Decoded.symbol.injEq, true_and]
      omega

/-- The walk runs out of bits at an internal node. -/
theorem walk_overread {a : Arena} {m : Memory} {avail : Nat} {i k : Fin 511} {cur : Nat}
    (hf : a.follow i (m.readBits cur avail) = some k) (hk : a[k].children.isSome = true) :
    walk a m avail i cur = .overread := by
  induction avail generalizing i cur with
  | zero =>
    rw [Memory.readBits_zero, Arena.follow_nil] at hf
    obtain rfl := Option.some.inj hf
    obtain ⟨p, e⟩ := Option.isSome_iff_exists.1 hk
    rw [walk]
    simp only [e]
  | succ avail ih =>
    rw [Memory.readBits_succ] at hf
    obtain ⟨l, r, e, hf⟩ := Arena.follow_cons.1 hf
    rw [walk]
    simp only [e]
    exact ih hf

/-- The walk's two outcomes below a node whose leaves are all symbols' slots. -/
theorem walk_cases {a : Arena} (hd : a.Descends) {top : Fin 511}
    (hleaf : ∀ k : Fin 511, k ≤ top → a[k].children = none → k.val < 256) (m : Memory) (avail : Nat) {i : Fin 511}
    (hi : i ≤ top) (cur : Nat) :
    (∃ b xs, walk a m avail i cur = .symbol b (cur + xs.length) ∧ xs.length ≤ avail ∧
      a.follow i xs = some (symbolLeaf b) ∧ a[symbolLeaf b].children = none ∧ m.readBits cur xs.length = xs) ∨
      walk a m avail i cur = .overread ∧ ∃ k, a.follow i (m.readBits cur avail) = some k ∧
        a[k].children.isSome = true := by
  induction avail generalizing i cur with
  | zero =>
    cases e : a[i].children with
    | none =>
      obtain ⟨b, _, rfl⟩ := leafSymbol_of_lt (hleaf i hi e)
      exact .inl ⟨b, [], walk_symbol e [] rfl rfl (le_refl _), le_refl _, rfl, e, rfl⟩
    | some p =>
      have hs : a[i].children.isSome = true := by rw [e]; rfl
      exact .inr ⟨walk_overread rfl hs, i, rfl, hs⟩
  | succ avail ih =>
    cases e : a[i].children with
    | none =>
      obtain ⟨b, _, rfl⟩ := leafSymbol_of_lt (hleaf i hi e)
      exact .inl ⟨b, [], walk_symbol e [] rfl rfl (by simp), by simp, rfl, e, rfl⟩
    | some p =>
      obtain ⟨l, r⟩ := p
      have hlt := hd.child_lt e (m.readBit cur)
      rcases ih (le_trans hlt.le hi) (cur + 1) with ⟨b, xs, h₁, h₂, h₃, h₄, h₅⟩ | ⟨h₁, k, h₂, h₃⟩
      · have hf : a.follow i (m.readBit cur :: xs) = some (symbolLeaf b) := Arena.follow_cons.2 ⟨l, r, e, h₃⟩
        have hx : m.readBits cur (m.readBit cur :: xs).length = m.readBit cur :: xs := by
          rw [List.length_cons, Memory.readBits_succ, h₅]
        have hl : (m.readBit cur :: xs).length ≤ avail + 1 := by rw [List.length_cons]; omega
        exact .inl ⟨b, m.readBit cur :: xs, walk_symbol h₄ _ hf hx hl, hl, hf, h₄, hx⟩
      · have hf : a.follow i (m.readBits cur (avail + 1)) = some k := by
          rw [Memory.readBits_succ]
          exact Arena.follow_cons.2 ⟨l, r, e, h₂⟩
        exact .inr ⟨walk_overread hf h₃, k, hf, h₃⟩

/-- A symbol the walk answers is one whose branch bits it has read, in any arena. -/
theorem walk_symbol_inv {a : Arena} {m : Memory} {avail : Nat} {i : Fin 511} {cur e : Nat} {b : Symbol}
    (h : walk a m avail i cur = .symbol b e) :
    ∃ xs, e = cur + xs.length ∧ xs.length ≤ avail ∧ a.follow i xs = some (symbolLeaf b) ∧
      a[symbolLeaf b].children = none ∧ m.readBits cur xs.length = xs := by
  have leaf : ∀ (i : Fin 511) (cur : Nat), a[i].children = none → walkLeaf i cur = .symbol b e →
      e = cur ∧ i = symbolLeaf b := by
    intro i cur _ h
    unfold walkLeaf at h
    split at h
    · exact absurd h (by simp)
    · next c hc =>
      obtain ⟨rfl, rfl⟩ := Decoded.symbol.inj h
      exact ⟨rfl, leafSymbol_eq_some.1 hc⟩
  induction avail generalizing i cur with
  | zero =>
    rw [walk] at h
    split at h
    · next hc =>
      obtain ⟨rfl, rfl⟩ := leaf i cur hc h
      exact ⟨[], rfl, le_refl _, rfl, hc, rfl⟩
    · exact absurd h (by simp)
  | succ avail ih =>
    rw [walk] at h
    split at h
    · next hc =>
      obtain ⟨rfl, rfl⟩ := leaf i cur hc h
      exact ⟨[], rfl, Nat.zero_le _, rfl, hc, rfl⟩
    · next l r hc =>
      obtain ⟨xs, he, hl, hf, hs, hx⟩ := ih h
      refine ⟨m.readBit cur :: xs, by rw [List.length_cons]; omega, by rw [List.length_cons]; omega,
        Arena.follow_cons.2 ⟨l, r, hc, hf⟩, hs, ?_⟩
      rw [List.length_cons, Memory.readBits_succ, hx]

/-- A path of at least one bit from ROOT: ROOT is an internal node. -/
theorem followRoot_some {s : State} {xs : List Bool} {k : Fin 511} (hf : s.followRoot xs = some k) :
    ∃ r, s.root = some r ∧ s.arena.follow r xs = some k := Option.bind_eq_some_iff.1 hf

/-- DecodeOne answers the symbol whose branch bits the stream holds (R200, R202). -/
theorem State.decodeOne_symbol {s : State} {xs : List Bool} {b : Symbol} (h : s.leadsTo xs b) (hne : xs ≠ [])
    (hx : s.stream.readBits s.sCur xs.length = xs) (hle : s.sCur + xs.length ≤ s.sWlen) :
    s.decodeOne = .symbol b (s.sCur + xs.length) := by
  obtain ⟨hf, hc⟩ := h
  obtain ⟨r, hroot, hf⟩ := followRoot_some hf
  obtain ⟨x, ys, rfl⟩ := List.exists_cons_of_ne_nil hne
  obtain ⟨l, r', e, _⟩ := Arena.follow_cons.1 hf
  unfold State.decodeOne
  simp only [hroot]
  rw [if_neg (by rw [e]; simp)]
  exact walk_symbol hc _ hf hx (by omega)

/-- A symbol DecodeOne answers is one whose branch bits the written stream holds, in any state. -/
theorem State.decodeOne_symbol_inv {s : State} {b : Symbol} {cur : Nat} (h : s.decodeOne = .symbol b cur) :
    ∃ xs, xs ≠ [] ∧ s.leadsTo xs b ∧ s.stream.readBits s.sCur xs.length = xs ∧ cur = s.sCur + xs.length ∧
      s.sCur + xs.length ≤ s.sWlen := by
  unfold State.decodeOne at h
  split at h
  · exact absurd h (by simp)
  · next r hroot =>
    split at h
    · exact absurd h (by simp)
    · next hi =>
      obtain ⟨xs, hcur, hlen, hf, hc, hx⟩ := walk_symbol_inv h
      have hne : xs ≠ [] := by
        rintro rfl
        rw [Arena.follow_nil] at hf
        rw [Option.some.inj hf, hc] at hi
        exact hi rfl
      have := List.length_pos_iff.2 hne
      exact ⟨xs, hne, ⟨by rw [State.followRoot, hroot]; exact hf, hc⟩, hx, hcur, by omega⟩

/-- DecodeOne where the stream ends inside or before a code (R200, R208). -/
theorem State.decodeOne_overread {s : State} (h : s.endsInsideCode s.sCur = true) : s.decodeOne = .overread := by
  unfold State.endsInsideCode at h
  cases e : s.followRoot (s.stream.readBits s.sCur (s.sWlen - s.sCur)) with
  | none => rw [e] at h; exact absurd h (by simp)
  | some k =>
    rw [e] at h
    obtain ⟨r, hroot, hf⟩ := followRoot_some e
    unfold State.decodeOne
    simp only [hroot]
    rw [if_neg]
    · exact walk_overread hf h
    · intro hn
      cases hxs : s.stream.readBits s.sCur (s.sWlen - s.sCur) with
      | nil =>
        rw [hxs, Arena.follow_nil] at hf
        obtain rfl := Option.some.inj hf
        obtain ⟨p, hp⟩ := Option.isSome_iff_exists.1 h
        rw [hp] at hn
        exact absurd hn (by simp)
      | cons x xs =>
        rw [hxs] at hf
        obtain ⟨l, r', hp, _⟩ := Arena.follow_cons.1 hf
        rw [hp] at hn
        exact absurd hn (by simp)

/-- On a tree DecodeOne has these two outcomes and no other (R200, R208). -/
theorem State.decodeOne_cases {s : State} (h : s.TreeOk) :
    (∃ b xs, s.decodeOne = .symbol b (s.sCur + xs.length) ∧ xs ≠ [] ∧ s.leadsTo xs b ∧
      s.stream.readBits s.sCur xs.length = xs ∧ xs.length ≤ s.sWlen - s.sCur) ∨
      s.decodeOne = .overread ∧ s.endsInsideCode s.sCur = true := by
  obtain ⟨r, hroot, hr, hn⟩ := h.root
  have hleaf : ∀ k : Fin 511, k ≤ r → s.arena[k].children = none → k.val < 256 := by
    intro k hk hc
    by_contra hge
    have := (h.internal k).2 ⟨by omega, by have := Fin.le_def.1 hk; omega⟩
    rw [hc] at this
    exact absurd this (by simp)
  have hri : s.arena[r].children.isSome = true := (h.internal r).2 ⟨hr, by omega⟩
  have hw : s.decodeOne = walk s.arena s.stream (s.sWlen - s.sCur) r s.sCur := by
    obtain ⟨p, hp⟩ := Option.isSome_iff_exists.1 hri
    unfold State.decodeOne
    simp only [hroot]
    rw [if_neg (by rw [hp]; simp)]
  rcases walk_cases h.descends hleaf s.stream (s.sWlen - s.sCur) (le_refl r) s.sCur with
    ⟨b, xs, h₁, h₂, h₃, h₄, h₅⟩ | ⟨h₁, k, h₂, h₃⟩
  · have hl : s.leadsTo xs b := ⟨by rw [State.followRoot, hroot]; exact h₃, h₄⟩
    have hne : xs ≠ [] := by
      rintro rfl
      have := (h.depth [] b hl).1
      simp at this
    exact .inl ⟨b, xs, by rw [hw, h₁], hne, hl, h₅, h₂⟩
  · refine .inr ⟨by rw [hw, h₁], ?_⟩
    unfold State.endsInsideCode
    rw [show s.followRoot (s.stream.readBits s.sCur (s.sWlen - s.sCur)) = some k by
      rw [State.followRoot, hroot]; exact h₂]
    exact h₃

/-! ## Symbols emitted -/

/-- A buffer with the bytes of `bs` written from `k` on. -/
def Memory.writeBytes : Memory → Nat → List Symbol → Memory
  | m, _, [] => m
  | m, k, b :: bs => Memory.writeBytes (m.write k b) (k + 1) bs

theorem Memory.wf_writeBytes {m : Memory} (k : Nat) (bs : List Symbol) (hm : m.wf = true) :
    (m.writeBytes k bs).wf = true := by
  induction bs generalizing m k with
  | nil => exact hm
  | cons b bs ih => exact ih _ (Memory.wf_write _ _ hm)

/-- The bytes after `writeBytes`. -/
theorem Memory.read_writeBytes {m : Memory} (k : Nat) (bs : List Symbol) (hm : m.wf = true) :
    (∀ j, (h : j < bs.length) → (m.writeBytes k bs).read (k + j) = bs[j]) ∧
      ∀ a, a < k ∨ k + bs.length ≤ a → (m.writeBytes k bs).read a = m.read a := by
  induction bs generalizing m k with
  | nil => exact ⟨fun j h => absurd h (by simp), fun _ _ => rfl⟩
  | cons b bs ih =>
    obtain ⟨h₁, h₂⟩ := ih (k + 1) (Memory.wf_write k b hm)
    constructor
    · intro j hj
      show ((m.write k b).writeBytes (k + 1) bs).read (k + j) = _
      cases j with
      | zero => rw [h₂ _ (.inl (by omega)), Memory.read_write _ _ _ hm, if_pos (by omega)]; rfl
      | succ j =>
        rw [show k + (j + 1) = k + 1 + j by omega, h₁ j (by simpa using hj)]
        rfl
    · intro a ha
      rw [List.length_cons] at ha
      show ((m.write k b).writeBytes (k + 1) bs).read a = _
      rw [h₂ a (by omega), Memory.read_write _ _ _ hm, if_neg (by omega)]

/-- The state after the symbols `bs` have been emitted and the cursor has reached `e`. -/
def State.emitAll (s : State) (bs : List Symbol) (e : Nat) : State :=
  { s with outbuf := s.outbuf.writeBytes s.oCnt bs, oCnt := s.oCnt + bs.length, sCur := e }

theorem State.emitAll_emit (s : State) (b : Symbol) (bs : List Symbol) (cur e : Nat) :
    (s.emit b cur).emitAll bs e = s.emitAll (b :: bs) e := by
  simp only [State.emitAll, State.emit, Memory.writeBytes, List.length_cons, Nat.add_assoc, Nat.add_comm 1]

theorem holdsSymbols_congr {s t : State} (ha : t.arena = s.arena) (hr : t.root = s.root) (hs : t.stream = s.stream)
    (hw : t.sWlen = s.sWlen) (bs : List Symbol) (cur e : Nat) :
    t.holdsSymbols cur bs e ↔ s.holdsSymbols cur bs e := by
  induction bs generalizing cur with
  | nil => exact Iff.rfl
  | cons b bs ih => simp only [State.holdsSymbols, State.leadsTo, State.followRoot, ha, hr, hs, hw, ih]

/-- Symbols held by the stream take at least one bit each. -/
theorem holdsSymbols_length {s : State} (bs : List Symbol) {cur e : Nat} (h : s.holdsSymbols cur bs e) :
    cur + bs.length ≤ e ∧ (bs ≠ [] → e ≤ s.sWlen) := by
  induction bs generalizing cur with
  | nil => obtain rfl := h; exact ⟨le_refl _, fun h => absurd rfl h⟩
  | cons b bs ih =>
    obtain ⟨xs, hne, _, _, hle, h⟩ := h
    obtain ⟨h₁, h₂⟩ := ih h
    have := List.length_pos_iff.2 hne
    rw [List.length_cons]
    refine ⟨by omega, fun _ => ?_⟩
    cases bs with
    | nil => obtain rfl := h; exact hle
    | cons => exact h₂ (by simp)

/-- DRUN's loop over symbols the stream holds, with room for them. -/
theorem drunLoop_emits (bs : List Symbol) {s : State} {e : Nat} (h : s.holdsSymbols s.sCur bs e)
    (hroom : s.oCnt + bs.length ≤ s.params.outBytes) (n cnt : Nat) :
    drunLoop (bs.length + n) cnt s = drunLoop n (cnt + bs.length) (s.emitAll bs e) := by
  induction bs generalizing s cnt with
  | nil =>
    obtain rfl : s.sCur = e := h
    simp [State.emitAll, Memory.writeBytes]
  | cons b bs ih =>
    obtain ⟨xs, hne, hl, hx, hle, h⟩ := h
    rw [List.length_cons] at hroom
    rw [List.length_cons, show bs.length + 1 + n = (bs.length + n) + 1 by omega, drunLoop, if_neg (by omega),
      State.decodeOne_symbol hl hne hx hle]
    simp only
    rw [ih (s := s.emit b (s.sCur + xs.length)) ((holdsSymbols_congr (s := s) (t := s.emit b _) rfl rfl rfl rfl bs _ e).2 h)
      (by rw [State.emit_oCnt, State.emit_params]; omega), State.emitAll_emit]
    congr 1
    omega

/-- DSENT's loop over symbols other than the sentinel that the stream holds, with room for them. -/
theorem dsentLoop_emits (bs : List Symbol) {s : State} {e : Nat} (h : s.holdsSymbols s.sCur bs e) (h0 : 0#8 ∉ bs)
    (hroom : s.oCnt + bs.length ≤ s.params.outBytes) (n cnt : Nat) :
    dsentLoop (bs.length + n) cnt s = dsentLoop n (cnt + bs.length) (s.emitAll bs e) := by
  induction bs generalizing s cnt with
  | nil =>
    obtain rfl : s.sCur = e := h
    simp [State.emitAll, Memory.writeBytes]
  | cons b bs ih =>
    obtain ⟨xs, hne, hl, hx, hle, h⟩ := h
    rw [List.length_cons] at hroom
    rw [List.mem_cons, not_or] at h0
    rw [List.length_cons, show bs.length + 1 + n = (bs.length + n) + 1 by omega, dsentLoop, if_neg (by omega),
      State.decodeOne_symbol hl hne hx hle]
    simp only
    rw [if_neg (fun e => h0.1 e.symm), ih (s := s.emit b (s.sCur + xs.length))
      ((holdsSymbols_congr (s := s) (t := s.emit b _) rfl rfl rfl rfl bs _ e).2 h) h0.2
      (by rw [State.emit_oCnt, State.emit_params]; omega), State.emitAll_emit]
    congr 1
    omega

end Sys2Proof.Machine
end

