-- ==== Sys2Proof/Laws/Commands.lean ====
section
/-! SUPPORT. What a command can do, said once: every next state is a completion with a result code, RESULT and what
the command has changed (spec/60_exceptions.md R232 to R238). -/

namespace Sys2Proof.Machine

/-- The result codes of a decode loop (R203, R205). -/
def decodeEnd (c : ResultCode) : Prop := c = .ok ∨ c = .capacityExceeded ∨ c = .overread

/-- The symbols `bs` a decode loop has emitted from `s`, up to cursor `e`: the stream holds them, and they fit. -/
structure Emitted (s : State) (bs : List Symbol) (e : Nat) : Prop where
  held : s.holdsSymbols s.sCur bs e
  fits : s.oCnt ≤ s.params.outBytes → s.oCnt + bs.length ≤ s.params.outBytes

theorem Emitted.nil (s : State) : Emitted s [] s.sCur := ⟨rfl, id⟩

/-- One more symbol in front. -/
theorem Emitted.cons {s : State} {b : Symbol} {bs : List Symbol} {cur e : Nat} (hd : s.decodeOne = .symbol b cur)
    (hroom : s.oCnt ≠ s.params.outBytes) (h : Emitted (s.emit b cur) bs e) : Emitted s (b :: bs) e := by
  obtain ⟨xs, hne, hl, hx, rfl, hle⟩ := State.decodeOne_symbol_inv hd
  refine ⟨⟨xs, hne, hl, hx, hle, (holdsSymbols_congr (s := s) (t := s.emit b _) rfl rfl rfl rfl bs _ e).1 h.held⟩, ?_⟩
  intro hfit
  have := h.fits (by rw [State.emit_oCnt, State.emit_params]; omega)
  rw [State.emit_oCnt, State.emit_params] at this
  rw [List.length_cons]
  omega

theorem State.emitAll_nil (s : State) : s.emitAll [] s.sCur = s := rfl

/-- DRUN's loop emits symbols the stream holds, changes nothing else, and completes. -/
theorem drunLoop_next (n cnt : Nat) {s t : State} (h : drunLoop n cnt s = .next t) :
    ∃ c bs e, decodeEnd c ∧ Emitted s bs e ∧ t = State.complete (s.emitAll bs e) c (cnt + bs.length) := by
  induction n generalizing cnt s with
  | zero =>
    rw [drunLoop] at h
    exact ⟨.ok, [], _, .inl rfl, .nil s, finish_next h⟩
  | succ n ih =>
    rw [drunLoop] at h
    split at h
    · exact ⟨_, [], _, .inr (.inl rfl), .nil s, raise_next h⟩
    · next hroom =>
      split at h
      · next b cur hd =>
        obtain ⟨c, bs, e, hc, hb, rfl⟩ := ih _ h
        refine ⟨c, b :: bs, e, hc, .cons hd hroom hb, ?_⟩
        rw [State.emitAll_emit, List.length_cons, Nat.add_assoc, Nat.add_comm 1]
      · exact ⟨_, [], _, .inr (.inr rfl), .nil s, raise_next h⟩
      · exact absurd h (by simp)

/-- DSENT's loop emits symbols the stream holds, changes nothing else, and completes. -/
theorem dsentLoop_next (n cnt : Nat) {s t : State} (h : dsentLoop n cnt s = .next t) :
    ∃ c bs e, decodeEnd c ∧ Emitted s bs e ∧ t = State.complete (s.emitAll bs e) c (cnt + bs.length) := by
  induction n generalizing cnt s with
  | zero => rw [dsentLoop] at h; exact absurd h (by simp)
  | succ n ih =>
    rw [dsentLoop] at h
    split at h
    · exact ⟨_, [], _, .inr (.inl rfl), .nil s, raise_next h⟩
    · next hroom =>
      split at h
      · next b cur hd =>
        split at h
        · exact ⟨.ok, [b], cur, .inl rfl, .cons hd hroom (.nil (s.emit b cur)), finish_next h⟩
        · obtain ⟨c, bs, e, hc, hb, rfl⟩ := ih _ h
          refine ⟨c, b :: bs, e, hc, .cons hd hroom hb, ?_⟩
          rw [State.emitAll_emit, List.length_cons, Nat.add_assoc, Nat.add_comm 1]
      · exact ⟨_, [], _, .inr (.inr rfl), .nil s, raise_next h⟩
      · exact absurd h (by simp)

/-- Writing bits changes STREAM, S_CUR and S_WLEN alone. -/
theorem streamWriteBits_frame (s : State) (xs : List Bool) :
    ∃ m k w, s.streamWriteBits xs = { s with stream := m, sCur := k, sWlen := w } := by
  induction xs generalizing s with
  | nil => exact ⟨_, _, _, rfl⟩
  | cons x xs ih =>
    obtain ⟨m, k, w, e⟩ := ih (s.streamWrite x)
    exact ⟨m, k, w, by rw [State.streamWriteBits_cons, e]; rfl⟩

/-- What no command but SRST changes: the parameters, CMD, PENDING and the host's port; and STICKY stands as CLRERR
leaves it until the completion. -/
structure Untouched (i : Instr) (s u : State) : Prop where
  params : u.params = s.params
  cmd : u.cmd = s.cmd
  pending : u.pending = s.pending
  port : u.port = s.port
  sticky : u.sticky = if i = .clrerr then 0#32 else s.sticky

theorem Untouched.streamWriteBits {i : Instr} {s : State} (hi : i ≠ .clrerr) (xs : List Bool) :
    Untouched i s (s.streamWriteBits xs) := by
  obtain ⟨m, k, w, e⟩ := streamWriteBits_frame s xs
  rw [e]
  exact ⟨rfl, rfl, rfl, rfl, (if_neg hi).symm⟩

/-- What command `i` has changed where it ends with code `c` and RESULT `r` from the state `u`. -/
inductive Changed (i : Instr) (s u : State) (r : Nat) : ResultCode → Prop where
  /-- It completed. -/
  | ok : Changed i s u r .ok
  /-- BUILD with no counted symbol has initialised (R135). -/
  | degenerate (hi : i = .build) (hu : u = s.initBuild) (hr : r = 0) (hf : countNonzero s.freq = 0) :
      Changed i s u r .degenerateTree
  /-- A decode run keeps the symbols it completed (R203, R205). -/
  | run (c : ResultCode) (bs : List Symbol) (e : Nat) (hi : (∃ n, i = .drun n) ∨ i = .dsent) (hc : decodeEnd c)
      (hu : u = s.emitAll bs e) (hb : Emitted s bs e) (hr : r = bs.length) : Changed i s u r c
  /-- GEN has cleared and refilled the table (R153, log 14). -/
  | full (g : CodeGen) (hi : i = .gen) (hr : r = 0)
      (hu : u = { s with codeTable := g.table, codebuf := g.buf, codesValid := false }) :
      Changed i s u r .capacityExceeded
  /-- Any other error has changed nothing. -/
  | nothing (c : ResultCode) (hu : u = s) (hr : r = 0) : Changed i s u r c

/-- Every next state of a command but SRST is the completion of what it has changed. -/
theorem exec_next {i : Instr} {s t : State} (hi : i ≠ .srst) (h : exec i s = .next t) :
    ∃ u c r, t = State.complete u c r ∧ mayEndWith i c = true ∧
      Untouched i s u ∧ Changed i s u r c := by
  cases i with
  | srst => exact absurd rfl hi
  | nop => exact ⟨_, _, _, finish_next h, rfl, ⟨rfl, rfl, rfl, rfl, rfl⟩, .ok⟩
  | freset => exact ⟨_, _, _, finish_next h, rfl, ⟨rfl, rfl, rfl, rfl, rfl⟩, .ok⟩
  | facc b =>
    change execFacc b s = _ at h
    unfold execFacc at h
    split at h
    · exact ⟨_, _, _, raise_next h, rfl, ⟨rfl, rfl, rfl, rfl, rfl⟩, .nothing _ rfl rfl⟩
    · exact ⟨_, _, _, finish_next h, rfl, ⟨rfl, rfl, rfl, rfl, rfl⟩, .ok⟩
  | build =>
    change execBuild s = _ at h
    rcases hn : countNonzero s.freq with _ | _ | n
    · rw [execBuild_none hn] at h
      exact ⟨_, _, _, raise_next h, rfl, ⟨rfl, rfl, rfl, rfl, rfl⟩, .degenerate rfl rfl rfl hn⟩
    · obtain ⟨b, _, _, e⟩ := execBuild_one hn
      rw [e] at h
      exact ⟨_, _, _, finish_next h, rfl, ⟨rfl, rfl, rfl, rfl, rfl⟩, .ok⟩
    · rw [execBuild_many (by omega)] at h
      exact ⟨_, _, _, finish_next h, rfl, ⟨rfl, rfl, rfl, rfl, rfl⟩, .ok⟩
  | gen =>
    change execGen s = _ at h
    unfold execGen at h
    split at h
    · split at h
      · exact ⟨_, _, _, finish_next h, rfl, ⟨rfl, rfl, rfl, rfl, rfl⟩, .ok⟩
      · exact ⟨_, _, _, raise_next h, rfl, ⟨rfl, rfl, rfl, rfl, rfl⟩, .full _ rfl rfl rfl⟩
      · exact absurd h (by simp)
    · exact ⟨_, _, _, raise_next h, rfl, ⟨rfl, rfl, rfl, rfl, rfl⟩, .nothing _ rfl rfl⟩
  | sreset => exact ⟨_, _, _, finish_next h, rfl, ⟨rfl, rfl, rfl, rfl, rfl⟩, .ok⟩
  | sclear => exact ⟨_, _, _, finish_next h, rfl, ⟨rfl, rfl, rfl, rfl, rfl⟩, .ok⟩
  | swbits k v =>
    change execSwbits k v s = _ at h
    unfold execSwbits at h
    split at h
    · exact ⟨_, _, _, raise_next h, rfl, ⟨rfl, rfl, rfl, rfl, rfl⟩, .nothing _ rfl rfl⟩
    · exact ⟨_, _, _, finish_next h, rfl, .streamWriteBits (by simp) _, .ok⟩
  | srbit =>
    change execSrbit s = _ at h
    unfold execSrbit at h
    split at h
    · exact ⟨_, _, _, raise_next h, rfl, ⟨rfl, rfl, rfl, rfl, rfl⟩, .nothing _ rfl rfl⟩
    · exact ⟨_, _, _, finish_next h, rfl, ⟨rfl, rfl, rfl, rfl, rfl⟩, .ok⟩
  | enc b =>
    change execEnc b s = _ at h
    unfold execEnc at h
    split at h
    · split at h
      · split at h
        · exact ⟨_, _, _, raise_next h, rfl, ⟨rfl, rfl, rfl, rfl, rfl⟩, .nothing _ rfl rfl⟩
        · exact ⟨_, _, _, finish_next h, rfl, .streamWriteBits (by simp) _, .ok⟩
      · exact ⟨_, _, _, raise_next h, rfl, ⟨rfl, rfl, rfl, rfl, rfl⟩, .nothing _ rfl rfl⟩
    · exact ⟨_, _, _, raise_next h, rfl, ⟨rfl, rfl, rfl, rfl, rfl⟩, .nothing _ rfl rfl⟩
  | dsym =>
    change execDsym s = _ at h
    unfold execDsym at h
    split at h
    · split at h
      · exact ⟨_, _, _, finish_next h, rfl, ⟨rfl, rfl, rfl, rfl, rfl⟩, .ok⟩
      · exact ⟨_, _, _, raise_next h, rfl, ⟨rfl, rfl, rfl, rfl, rfl⟩, .nothing _ rfl rfl⟩
      · exact absurd h (by simp)
    · exact ⟨_, _, _, raise_next h, rfl, ⟨rfl, rfl, rfl, rfl, rfl⟩, .nothing _ rfl rfl⟩
  | drun n =>
    change execDrun n s = _ at h
    unfold execDrun at h
    split at h
    · obtain ⟨c, bs, e, hc, hb, rfl⟩ := drunLoop_next _ _ h
      refine ⟨_, _, _, rfl, ?_, ⟨rfl, rfl, rfl, rfl, rfl⟩, .run _ bs e (.inl ⟨n, rfl⟩) hc rfl hb (Nat.zero_add _)⟩
      rcases hc with rfl | rfl | rfl <;> rfl
    · exact ⟨_, _, _, raise_next h, rfl, ⟨rfl, rfl, rfl, rfl, rfl⟩, .nothing _ rfl rfl⟩
  | dsent =>
    change execDsent s = _ at h
    unfold execDsent at h
    split at h
    · obtain ⟨c, bs, e, hc, hb, rfl⟩ := dsentLoop_next _ _ h
      refine ⟨_, _, _, rfl, ?_, ⟨rfl, rfl, rfl, rfl, rfl⟩, .run _ bs e (.inr rfl) hc rfl hb (Nat.zero_add _)⟩
      rcases hc with rfl | rfl | rfl <;> rfl
    · exact ⟨_, _, _, raise_next h, rfl, ⟨rfl, rfl, rfl, rfl, rfl⟩, .nothing _ rfl rfl⟩
  | oclear => exact ⟨_, _, _, finish_next h, rfl, ⟨rfl, rfl, rfl, rfl, rfl⟩, .ok⟩
  | clrerr => exact ⟨_, _, _, finish_next h, rfl, ⟨rfl, rfl, rfl, rfl, rfl⟩, .ok⟩

/-- A GEN that completes is a walk from ROOT that came back. -/
theorem execGen_ok {s t : State} (h : exec .gen s = .next t) (hl : t.last = .ok) :
    ∃ r g, s.treeValid = true ∧ s.root = some r ∧
      visit s.arena 511 r [] { table := clearedTable, buf := s.codebuf, cur := 0 } = .done g ∧
      t = State.complete { s with codeTable := g.table, codebuf := g.buf, codeFill := g.cur, codesValid := true } .ok
        g.cur := by
  change execGen s = _ at h
  unfold execGen at h
  split at h
  · next hv =>
    split at h
    · next g hg =>
      unfold State.genWalk at hg
      split at hg
      · exact absurd hg (by simp)
      · next r hr => exact ⟨r, g, hv, hr, hg, finish_next h⟩
    · rw [raise_next h] at hl; exact absurd hl (by simp [State.complete])
    · exact absurd h (by simp)
  · rw [raise_next h] at hl; exact absurd hl (by simp [State.complete])

end Sys2Proof.Machine
end

