-- ==== Sys2Proof/Laws/PerInstr.lean ====
section
/-! SUPPORT. Facts of every command as syntax, one lemma per constructor (spec/30_encoding.md R95). -/

namespace Sys2Proof.Laws.OpcodeMap

/-- The row of R95: a command's word has the row's `match` under the row's `mask`. -/
def Statement : Instr → Prop := fun i => encode i &&& opMask i = opMatch i

theorem nop : Statement .nop := by unfold Statement; decide
theorem freset : Statement .freset := by unfold Statement; decide
theorem facc (b : BitVec 8) : Statement (.facc b) := by
  show (0x02#8 ++ 0#16 ++ b) &&& (0xFF#8 ++ 0xFFFF#16 ++ 0#8) = _
  simp only [BitVec.and_append, BitVec.and_zero]
  rfl
theorem build : Statement .build := by unfold Statement; decide
theorem gen : Statement .gen := by unfold Statement; decide
theorem sreset : Statement .sreset := by unfold Statement; decide
theorem sclear : Statement .sclear := by unfold Statement; decide
theorem swbits (k : BitVec 5) (v : BitVec 16) : Statement (.swbits k v) := by
  show (0x32#8 ++ 0#3 ++ k ++ v) &&& (0xFF#8 ++ 0x7#3 ++ 0#5 ++ 0#16) = _
  simp only [BitVec.and_append, BitVec.and_zero]
  rfl
theorem srbit : Statement .srbit := by unfold Statement; decide
theorem enc (b : BitVec 8) : Statement (.enc b) := by
  show (0x40#8 ++ 0#16 ++ b) &&& (0xFF#8 ++ 0xFFFF#16 ++ 0#8) = _
  simp only [BitVec.and_append, BitVec.and_zero]
  rfl
theorem dsym : Statement .dsym := by unfold Statement; decide
theorem drun (n : BitVec 24) : Statement (.drun n) := by
  show (0x51#8 ++ n) &&& (0xFF#8 ++ 0#24) = _
  simp only [BitVec.and_append, BitVec.and_zero]
  rfl
theorem dsent : Statement .dsent := by unfold Statement; decide
theorem oclear : Statement .oclear := by unfold Statement; decide
theorem clrerr : Statement .clrerr := by unfold Statement; decide
theorem srst : Statement .srst := by unfold Statement; decide

end Sys2Proof.Laws.OpcodeMap
end

