-- ==== Sys2Proof/Laws/Run.lean ====
section
/-! SUPPORT. What a step does to the host's list, and how a run can stop (spec/60_exceptions.md R253; log 22). -/

namespace Sys2Proof.Machine

/-- No command changes the parameters or the host's port. -/
theorem exec_port {i : Instr} {s t : State} (h : exec i s = .next t) : t.params = s.params ∧ t.port = s.port := by
  by_cases hi : i = .srst
  · subst hi
    obtain rfl := (Host.Outcome.next.inj h).symm
    exact ⟨rfl, rfl⟩
  · obtain ⟨u, c, r, rfl, _, hu, _⟩ := exec_next hi h
    exact ⟨hu.params, hu.port⟩

/-- A step that goes on has taken the host's oldest access. -/
theorem step_requests {s t : State} {a : HostAccess} {rest : List HostAccess} (hr : s.port.requests = a :: rest)
    (h : step s = .next t) : t.port.requests = rest := by
  rw [step_cons hr] at h
  cases e : s.busAction a with
  | answer w => rw [e] at h; obtain rfl := (Host.Outcome.next.inj h).symm; rfl
  | poll =>
    rw [e] at h
    obtain rfl := (Host.Outcome.next.inj h).symm
    unfold State.poll
    split <;> rfl
  | issue w =>
    rw [e] at h
    change runCommand w ((s.take rest).issue w) = _ at h
    unfold runCommand at h
    split at h
    · rw [(exec_port h).2]; rfl
    · obtain rfl := (Host.Outcome.next.inj h).symm; rfl
  | reset => rw [e] at h; obtain rfl := (Host.Outcome.next.inj h).symm; rfl
  | fault f => rw [e] at h; exact absurd h (by simp [perform])

/-- How a run stops: after the last access, with bus errors alone recorded; or before an access whose fault, recorded
last, is no bus error; or before one that is refused. -/
inductive RunStops (o : RunOutcome) : Prop where
  | taken (h : o.block.port.requests = []) (hf : ∀ f ∈ o.faults, ∃ e, f = .busError e) : RunStops o
  | faulted (fs : List Fault) (f : Fault) (h : step o.block = .fault f) (hn : ∀ e, f ≠ .busError e)
      (hf : o.faults = fs ++ [f]) : RunStops o
  | refused (r : Refusal) (h : step o.block = .refused r) : RunStops o

theorem RunStops.record {o : RunOutcome} (h : RunStops o) (e : BusError) : RunStops (o.record (.busError e)) := by
  cases h with
  | taken h hf =>
    refine .taken h fun f hm => ?_
    rcases List.mem_cons.1 hm with rfl | hm
    · exact ⟨e, rfl⟩
    · exact hf f hm
  | faulted fs f h hn hf => exact .faulted (.busError e :: fs) f h hn (by rw [RunOutcome.record, hf]; rfl)
  | refused r h => exact .refused r h

theorem runSteps_stops (n : Nat) (s : State) (h : s.port.requests.length ≤ n) : RunStops (runSteps n s) := by
  induction n generalizing s with
  | zero => exact .taken (List.length_eq_zero_iff.1 (Nat.le_zero.1 h)) fun f hm => absurd hm (by simp [runSteps])
  | succ n ih =>
    rw [runSteps]
    split
    · next t ht =>
      refine ih t ?_
      cases hr : s.port.requests with
      | nil => rw [step_nil hr] at ht; rw [← Host.Outcome.next.inj ht, hr]; exact Nat.zero_le n
      | cons a rest => rw [step_requests hr ht]; rw [hr, List.length_cons] at h; omega
    · next e _ =>
      refine (ih s.rejected ?_).record e
      rw [State.rejected, List.length_tail]
      omega
    · next f hn hf => exact .faulted [] f hf hn rfl
    · next r hr => exact .refused r hr

/-- How the run of a host program stops (R253). -/
theorem State.run_stops (s : State) : RunStops s.run := runSteps_stops _ s (le_refl _)

/-- A run that has ended has recorded bus errors alone. -/
theorem RunOutcome.ended_faults {s : State} (h : s.run.ended = true) :
    s.run.block.port.requests = [] ∧ s.run.block.pending = false ∧ ∀ f ∈ s.run.faults, ∃ e, f = .busError e := by
  rw [RunOutcome.ended, Bool.and_eq_true, List.isEmpty_iff, Bool.not_eq_true'] at h
  refine ⟨h.1, h.2, ?_⟩
  cases s.run_stops with
  | taken _ hf => exact hf
  | faulted fs f hs _ _ => rw [step_nil h.1] at hs; exact absurd hs (by simp)
  | refused r hs => rw [step_nil h.1] at hs; exact absurd hs (by simp)

end Sys2Proof.Machine
end

