-- ==== Sys2Proof/Tests/Slice0.lean ====
section
/-! SUPPORT. Tests: command words written out from spec/30_encoding.md, single commands against
spec/95_test_vectors.md, and a witness for the hypotheses of every statement that has some. -/

namespace Sys2Proof.Tests

open Sys2Proof Sys2Proof.Machine

set_option Elab.async false

/-! ## WellFormed: a legal term, and a term each check refuses (R94) -/

theorem test_wf_all_operands : (Instr.swbits 16#5 0xFFFF#16).wellFormed = true ∧ (Instr.swbits 1#5 1#16).wellFormed = true ∧
    (Instr.drun 0xFFFFFF#24).wellFormed = true := by decide
theorem test_wf_count_zero : (Instr.swbits 0#5 0#16).bitCountOk = false ∧ (Instr.swbits 0#5 0#16).wellFormed = false := by
  decide
theorem test_wf_count_17 : (Instr.swbits 17#5 0#16).bitCountOk = false ∧ (Instr.swbits 17#5 0#16).wellFormed = false := by
  decide
theorem test_wf_value_too_wide :
    (Instr.swbits 1#5 2#16).valueFits = false ∧ (Instr.swbits 1#5 2#16).wellFormed = false := by decide

/-! ## Decode: one word per constructor, and each kind of illegal word -/

theorem test_decode_nop : decode 0x00000000#32 = .ok .nop := by rfl
theorem test_decode_freset : decode 0x01000000#32 = .ok .freset := by rfl
theorem test_decode_facc : decode 0x02000063#32 = .ok (.facc 0x63#8) := by rfl
theorem test_decode_build : decode 0x10000000#32 = .ok .build := by rfl
theorem test_decode_gen : decode 0x20000000#32 = .ok .gen := by rfl
theorem test_decode_sreset : decode 0x30000000#32 = .ok .sreset := by rfl
theorem test_decode_sclear : decode 0x31000000#32 = .ok .sclear := by rfl
theorem test_decode_swbits : decode 0x3210FFFF#32 = .ok (.swbits 16#5 0xFFFF#16) := by rfl
theorem test_decode_srbit : decode 0x33000000#32 = .ok .srbit := by rfl
theorem test_decode_enc : decode 0x4000007A#32 = .ok (.enc 0x7A#8) := by rfl
theorem test_decode_dsym : decode 0x50000000#32 = .ok .dsym := by rfl
theorem test_decode_drun : decode 0x51FFFFFE#32 = .ok (.drun 0xFFFFFE#24) := by rfl
theorem test_decode_dsent : decode 0x52000000#32 = .ok .dsent := by rfl
theorem test_decode_oclear : decode 0x58000000#32 = .ok .oclear := by rfl
theorem test_decode_clrerr : decode 0x70000000#32 = .ok .clrerr := by rfl
theorem test_decode_srst : decode 0x7F000000#32 = .ok .srst := by rfl
/-- V-CTL-4, V-STR-4, V-FRQ-5: an unlisted opcode, a must-be-0 bit of formats N, B and K, and SWBITS's operands. -/
theorem test_decode_illegal :
    decode 0x03000000#32 = .error .unlistedOpcode ∧ decode 0x7F000001#32 = .error .operandBitSet ∧
      decode 0x02000100#32 = .error .operandBitSet ∧ decode 0x32200001#32 = .error .operandBitSet ∧
      decode 0x32000000#32 = .error .badBitCount ∧ decode 0x32110000#32 = .error .badBitCount ∧
      decode 0x32010002#32 = .error .valueTooWide := ⟨rfl, rfl, rfl, rfl, rfl, rfl, rfl⟩
theorem test_decode_table_word :
    decodeTableWord 32 0x32030006 = some (.swbits 3#5 6#16) ∧ decodeTableWord 32 0x80000000 = none := ⟨rfl, rfl⟩

/-! ## Small states: the input "ab\0" of V-BLD-7, V-GEN-5 and V-DEC-5 -/

/-- A next state that meets `p`. -/
def nextSat (o : Outcome) (p : State → Bool) : Bool :=
  match o with
  | .next t => p t
  | .fault _ => false
  | .refused _ => false

theorem nextSat_exists {o : Outcome} {p : State → Bool} (h : nextSat o p = true) : ∃ t, o = .next t ∧ p t = true := by
  cases o with
  | next t => exact ⟨t, rfl, h⟩
  | fault f => exact absurd h (by simp [nextSat])
  | refused r => exact absurd h (by simp [nextSat])

/-- A run that meets `p`. -/
def optSat (o : Option State) (p : State → Bool) : Bool :=
  match o with
  | some t => p t
  | none => false

theorem optSat_exists {o : Option State} {p : State → Bool} (h : optSat o p = true) : ∃ t, o = some t ∧ p t = true := by
  cases o with
  | some t => exact ⟨t, rfl, h⟩
  | none => exact absurd h (by simp [optSat])

/-- Counts: NUL 1, a 1, b 1. -/
def nabCounts : State :=
  { State.reset with freq := (((Vector.replicate 256 0).set 0 1).set 0x61 1).set 0x62 1 }

/-- After BUILD. -/
def nabTree : State := nabCounts.buildMerged

/-- After GEN: b "0" at 0, NUL "10" at 1, a "11" at 3 (V-GEN-5). -/
def nabCodes : State :=
  { nabTree with
    codeTable := (((Vector.replicate 256 CodeEntry.absent).set 0 { valid := true, len := 2, off := 1 }).set 0x61
      { valid := true, len := 2, off := 3 }).set 0x62 { valid := true, len := 1, off := 0 }
    codebuf := [(0, 0x58#8)]
    codeFill := 5
    codesValid := true }

/-- The encoded "ab\0", "11010", rewound (V-DEC-5). -/
def nabStream : State := { nabCodes with stream := [(0, 0xD0#8)], sWlen := 5 }

/-- `s` with one access of the host. -/
def host (s : State) (a : HostAccess) : State := { s with port := { s.port with requests := [a] } }

/-! ## Reset, and the step -/

theorem test_reset_buffers : State.reset.codebuf.wf = true ∧ State.reset.stream.wf = true ∧
    State.reset.outbuf.wf = true := by decide
/-- V-HST-2. -/
theorem test_reset_windows : State.reset.readAt 0x24 4 = .ok 0x1FF#32 ∧ State.reset.readAt 0x20 4 = .ok 0x100#32 ∧
    State.reset.readAt 0x1000 4 = .ok 0x01FF01FF#32 := by decide +kernel
/-- V-HST-1. -/
theorem test_reset_parameters : State.reset.readAt 0x0 4 = .ok 0x48554631#32 ∧ State.reset.readAt 0x4 4 = .ok 0x18#32 ∧
    State.reset.readAt 0x8 4 = .ok 0x100000#32 ∧ State.reset.readAt 0xC 4 = .ok 0x10000#32 := by decide +kernel
/-- V-HST-5, V-HST-6. -/
theorem test_bus_errors : State.reset.readAt 0x12 4 = .error .misaligned ∧ State.reset.readAt 0x10 2 = .error .size ∧
    State.reset.readAt 0x38 4 = .error .reserved ∧
    State.reset.readAt (0x100000 + 4 * 32768) 4 = .error .pastCapacity := by decide +kernel
/-- V-FRQ-1, as the first command after reset. -/
theorem test_first_command : nextSat (step (State.reset.withFetchWord 32 0x02000061)) (fun t =>
    decide (t.result = 1#32 ∧ t.cmd = 0x02000061#32 ∧ t.pending = true ∧ t.freqAt 0x61#8 = 1)) = true := by
  decide +kernel
/-- V-HST-7: a read of RESULT right after a CMD write. -/
theorem test_hazard : step (host { State.reset with pending := true } (.read 0x18 4)) = .fault .busyHazard := by rfl
/-- V-HST-4: a write to STATUS. -/
theorem test_write_status : step (host State.reset (.write 0x14 4 0#32)) = .fault (.busError .notWritable) := by rfl

/-! ## Runs (R253) -/

/-- `s` with the accesses of a host program. -/
def program (s : State) (as : List HostAccess) : State := { s with port := { s.port with requests := as } }

/-- A program that only reads has ended after its last access, with no fault; the windows show the reset block. -/
theorem test_run_reads : (program State.reset [.read 0x24 4, .read 0x20 4]).run.ended = true ∧
    (program State.reset [.read 0x24 4, .read 0x20 4]).run.faults = [] ∧
    (program State.reset [.read 0x24 4, .read 0x20 4]).run.window 0x24 = .ok 0x1FF#32 := by decide +kernel
/-- V-FRQ-1 with no poll after the command: the run has not ended. -/
theorem test_run_unpolled : (program State.reset [.write 0x10 4 0x02000061#32]).run.ended = false ∧
    (program State.reset [.write 0x10 4 0x02000061#32]).run.faults = [] := by decide +kernel
/-- V-HST-5: each of three bus errors is recorded, and the block is as it was. -/
theorem test_run_bus_errors :
    (program State.reset [.read 0x12 4, .read 0x10 2, .read 0x38 4]).run.faults =
      [.busError .misaligned, .busError .size, .busError .reserved] ∧
    (program State.reset [.read 0x12 4, .read 0x10 2, .read 0x38 4]).run.block = State.reset :=
  ⟨by decide +kernel, rfl⟩
/-- V-HST-7: the hazard stops the run before its access, and the block state is still there. -/
theorem test_run_hazard :
    (program State.reset [.write 0x10 4 0x02000061#32, .read 0x18 4]).run.faults = [.busyHazard] ∧
    (program State.reset [.write 0x10 4 0x02000061#32, .read 0x18 4]).run.ended = false ∧
    (program State.reset [.write 0x10 4 0x02000061#32, .read 0x18 4]).run.block.freqAt 0x61#8 = 1 := by
  decide +kernel

/-! ## Commands -/

/-- V-CTL-1. -/
theorem test_nop : nextSat (exec .nop { State.reset with last := .overread, sticky := 0x10#32 }) (fun t =>
    decide (t.last = .ok ∧ t.sticky = 0x10#32 ∧ t.result = 0#32)) = true := by decide +kernel
/-- V-FRQ-4. -/
theorem test_freset : nextSat (exec .freset nabCodes) (fun t =>
    decide (t.statusWord = 0#32 ∧ t.freqAt 0x61#8 = 0 ∧ t.codeFill = 5 ∧ t.root = some 257)) = true := by decide +kernel
/-- V-FRQ-2: FACC clears TREE_VALID and keeps NEXT_FREE and ROOT. -/
theorem test_facc : nextSat (exec (.facc 0x63#8) nabTree) (fun t =>
    decide (t.result = 1#32 ∧ t.statusWord = 0#32 ∧ t.nextFree = 258 ∧ t.root = some 257)) = true := by decide +kernel
/-- V-FRQ-3: the count 3 of a 2-bit counter overflows. -/
theorem test_facc_overflow : nextSat (exec (.facc 0x78#8) { State.reset with
      params := { Config.Params.standard with cntW := 2 }, freq := (Vector.replicate 256 0).set 0x78 3 }) (fun t =>
    decide (t.statusWord = 0x500#32 ∧ t.sticky = 0x20#32 ∧ t.result = 0#32 ∧ t.freqAt 0x78#8 = 3)) = true := by
  decide +kernel
/-- V-BLD-7. -/
theorem test_build : nextSat (exec .build nabCounts) (fun t =>
    decide (t.result = 257#32 ∧ t.statusWord = 2#32 ∧ t.readAt 0x1400 4 = .ok 0x80610000#32 ∧
      t.readAt 0x1404 4 = .ok 0x81000062#32 ∧ t.readAt 0xC04 4 = .ok 3#32)) = true := by decide +kernel
/-- V-BLD-4: the single symbol 0. -/
theorem test_build_single : nextSat (exec .build { State.reset with freq := (Vector.replicate 256 0).set 0 2 })
    (fun t => decide (t.result = 256#32 ∧ t.statusWord = 0xA#32 ∧ t.readAt 0x1400 4 = .ok 0x80010000#32)) = true := by
  decide +kernel
/-- V-GEN-5. -/
theorem test_gen : nextSat (exec .gen nabTree) (fun t =>
    decide (t.result = 5#32 ∧ t.readAt 0x1988 4 = .ok 0x80010000#32 ∧ t.readAt 0x1800 4 = .ok 0x80020001#32 ∧
      t.readAt 0x1984 4 = .ok 0x80020003#32 ∧ t.readAt 0x2000 4 = .ok 0x58000000#32)) = true := by decide +kernel
/-- V-GEN-8. -/
theorem test_gen_not_ready : nextSat (exec .gen State.reset) (fun t =>
    decide (t.statusWord = 0x600#32 ∧ t.sticky = 0x40#32 ∧ t.result = 0#32)) = true := by decide +kernel
/-- R172: contents and S_WLEN are kept. -/
theorem test_sreset : nextSat (exec .sreset { nabStream with sCur := 5 }) (fun t =>
    decide (t.sCur = 0 ∧ t.sWlen = 5 ∧ t.stream = [(0, 0xD0#8)])) = true := by decide +kernel
/-- R173: the bits are kept, though no longer written. -/
theorem test_sclear : nextSat (exec .sclear { nabStream with sCur := 5 }) (fun t =>
    decide (t.sCur = 0 ∧ t.sWlen = 0 ∧ t.stream = [(0, 0xD0#8)])) = true := by decide +kernel
/-- V-STR-1. -/
theorem test_swbits : nextSat (exec (.swbits 3#5 6#16) State.reset) (fun t =>
    decide (t.result = 3#32 ∧ t.sCur = 3 ∧ t.sWlen = 3 ∧ t.readAt 0x100000 4 = .ok 0xC0000000#32)) = true := by
  decide +kernel
/-- V-STR-5, its second command: nothing is written. -/
theorem test_swbits_full : nextSat (exec (.swbits 4#5 15#16) { State.reset with
      params := { Config.Params.standard with streamBits := 8 }, stream := [(0, 0xA8#8)], sCur := 5, sWlen := 5 })
    (fun t => decide (t.statusWord = 0x100#32 ∧ t.sticky = 2#32 ∧ t.stream = [(0, 0xA8#8)] ∧ t.sCur = 5)) = true := by
  decide +kernel
/-- V-STR-2, its first SRBIT. -/
theorem test_srbit : nextSat (exec .srbit { State.reset with stream := [(0, 0xC0#8)], sWlen := 3 }) (fun t =>
    decide (t.result = 1#32 ∧ t.sCur = 1)) = true := by decide +kernel
/-- V-STR-2, its last SRBIT. -/
theorem test_srbit_overread : nextSat (exec .srbit { State.reset with stream := [(0, 0xC0#8)], sCur := 3, sWlen := 3 })
    (fun t => decide (t.statusWord = 0x400#32 ∧ t.sticky = 0x10#32 ∧ t.sCur = 3)) = true := by decide +kernel
/-- V-DEC-5's stream, "11" of its first symbol. -/
theorem test_enc : nextSat (exec (.enc 0x61#8) nabCodes) (fun t =>
    decide (t.result = 2#32 ∧ t.sCur = 2 ∧ t.sWlen = 2 ∧ t.readAt 0x100000 4 = .ok 0xC0000000#32)) = true := by
  decide +kernel
/-- V-ENC-3: a byte with no code. -/
theorem test_enc_unknown : nextSat (exec (.enc 0x7A#8) nabCodes) (fun t =>
    decide (t.statusWord = 0x206#32 ∧ t.sticky = 4#32 ∧ t.result = 0#32 ∧ t.sCur = 0)) = true := by decide +kernel
/-- The stream of V-DEC-5, its first symbol. -/
theorem test_dsym : nextSat (exec .dsym nabStream) (fun t => decide (t.result = 0x61#32 ∧ t.sCur = 2)) = true := by
  decide +kernel
/-- V-DEC-15: the cursor at the end of the written bits. -/
theorem test_dsym_overread : nextSat (exec .dsym { nabStream with sCur := 5 }) (fun t =>
    decide (t.last = .overread ∧ t.result = 0#32 ∧ t.sCur = 5)) = true := by decide +kernel
/-- The stream of V-DEC-5, two of its symbols. -/
theorem test_drun : nextSat (exec (.drun 2#24) nabStream) (fun t =>
    decide (t.result = 2#32 ∧ t.oCnt = 2 ∧ t.sCur = 3 ∧ t.readAt 0x200000 4 = .ok 0x61620000#32)) = true := by
  decide +kernel
/-- V-DEC-9: nothing to decode. -/
theorem test_drun_empty : nextSat (exec (.drun 1#24) nabTree) (fun t =>
    decide (t.last = .overread ∧ t.result = 0#32 ∧ t.oCnt = 0)) = true := by decide +kernel
/-- V-DEC-5. -/
theorem test_dsent : nextSat (exec .dsent nabStream) (fun t =>
    decide (t.last = .ok ∧ t.result = 3#32 ∧ t.oCnt = 3 ∧ t.sCur = 5 ∧
      t.readAt 0x200000 4 = .ok 0x61620000#32)) = true := by decide +kernel
/-- V-DEC-11: the sentinel first, one bit left unread. -/
theorem test_dsent_first : nextSat (exec .dsent { nabTree with stream := [(0, 0xA0#8)], sWlen := 3 }) (fun t =>
    decide (t.result = 1#32 ∧ t.outbuf.read 0 = 0#8 ∧ t.sCur = 2 ∧ t.sWlen = 3)) = true := by decide +kernel
/-- V-DEC-12: contents are kept. -/
theorem test_oclear : nextSat (exec .oclear { State.reset with oCnt := 1, outbuf := [(0, 0x61#8)] }) (fun t =>
    decide (t.oCnt = 0 ∧ t.outbuf.read 0 = 0x61#8)) = true := by decide +kernel
/-- V-CTL-2. -/
theorem test_clrerr : nextSat (exec .clrerr { State.reset with sticky := 6#32, last := .unknownSymbol }) (fun t =>
    decide (t.sticky = 0#32 ∧ t.last = .ok)) = true := by decide +kernel
/-- V-CTL-3. -/
theorem test_srst : nextSat (exec .srst { nabStream with sticky := 0x10#32, last := .overread }) (fun t =>
    decide (t.statusWord = 0#32 ∧ t.sticky = 0#32 ∧ t.freqAt 0x61#8 = 0 ∧ t.root = none ∧ t.nextFree = 256 ∧
      t.cmd = 0x7F000000#32)) = true := by decide +kernel
/-- V-CTL-4: an illegal word of SRST's opcode resets nothing. -/
theorem test_illegal : nextSat (runCommand 0x7F000001#32 nabStream) (fun t =>
    decide (t.last = .illegalCommand ∧ t.sticky = 0x80#32 ∧ t.result = 0#32 ∧ t.freqAt 0x61#8 = 1)) = true := by
  decide +kernel

/-! ## The small states meet the invariants -/

theorem nabCounts_two : 2 ≤ countNonzero nabCounts.freq := by decide +kernel

theorem nabTree_tree : nabTree.TreeOk := State.buildMerged_treeOk nabCounts nabCounts_two

theorem nabCodes_tree : nabCodes.TreeOk :=
  nabTree_tree.congr (by rw [nabCodes]) (by rw [nabCodes]) (by rw [nabCodes]) (by rw [nabCodes])

theorem nabStream_tree : nabStream.TreeOk :=
  nabCodes_tree.congr (by rw [nabStream]) (by rw [nabStream]) (by rw [nabStream]) (by rw [nabStream])

theorem nabTree_a : nabTree.leadsTo [true, true] 0x61#8 := by decide +kernel
theorem nabTree_b : nabTree.leadsTo [false] 0x62#8 := by decide +kernel
theorem nabTree_nul : nabTree.leadsTo [true, false] 0#8 := by decide +kernel

theorem nabCodes_valid : ∀ b : Symbol, (nabCodes.codeAt b).valid = true →
    b = 0x61#8 ∨ b = 0x62#8 ∨ b = 0#8 := by
  intro b hv
  have hl : (nabCodes.codeTable.toList.zipIdx.all fun p =>
      !p.1.valid || (p.2 == 0x61 || (p.2 == 0x62 || p.2 == 0))) = true := by decide +kernel
  have hb : b.toNat < 256 := b.isLt
  have hm : (nabCodes.codeAt b, b.toNat) ∈ nabCodes.codeTable.toList.zipIdx := by
    rw [List.mk_mem_zipIdx_iff_getElem?]
    simp [State.codeAt, hb]
  have h := List.all_eq_true.1 hl _ hm
  simp only [hv, Bool.not_true, Bool.false_or, Bool.or_eq_true, beq_iff_eq] at h
  rcases h with h | h | h
  · exact .inl (BitVec.eq_of_toNat_eq h)
  · exact .inr (.inl (BitVec.eq_of_toNat_eq h))
  · exact .inr (.inr (BitVec.eq_of_toNat_eq h))

theorem nabCodes_codes : nabCodes.CodesOk where
  valid b := by
    have hl : ((nabCodes.codeTable.toList.zip nabCodes.freq.toList).all fun p => p.1.valid == decide (p.2 ≠ 0)) =
        true := by decide +kernel
    have hb : b.toNat < 256 := b.isLt
    have hm : (nabCodes.codeAt b, nabCodes.freqAt b) ∈ nabCodes.codeTable.toList.zip nabCodes.freq.toList := by
      apply List.mem_of_getElem? (i := b.toNat)
      simp [State.codeAt, State.freqAt, hb]
    have h : (nabCodes.codeAt b).valid = decide (nabCodes.freqAt b ≠ 0) :=
      beq_iff_eq.1 (List.all_eq_true.1 hl _ hm)
    rw [h, decide_eq_true_eq]
  inside b hv := by
    rcases nabCodes_valid b hv with rfl | rfl | rfl <;> decide +kernel
  path b hv := by
    rcases nabCodes_valid b hv with rfl | rfl | rfl <;> decide +kernel

/-- A state whose tables are those of `nabCodes` meets the invariant where its registers and buffers do. -/
theorem inv_of_nabCodes {t : State} (hp : t.params.Legal) (hw : t.params.cntW = 24) (hc : t.CursorsOk)
    (hb : t.BuffersOk) (h : t.arena = nabCodes.arena ∧ t.root = nabCodes.root ∧ t.nextFree = nabCodes.nextFree ∧
      t.freq = nabCodes.freq ∧ t.codeTable = nabCodes.codeTable ∧ t.codebuf = nabCodes.codebuf ∧
      t.codeFill = nabCodes.codeFill ∧ t.treeValid = true ∧ t.degen = false ∧ t.sticky = 0#32) : t.Inv := by
  obtain ⟨ha, hr, hn, hf, hct, hcb, hcf, htv, hdg, hst⟩ := h
  refine { basic := { params := hp, flags := ⟨fun _ => htv, fun h => ?_⟩, cursors := hc, buffers := hb,
                      counters := ⟨fun b => ?_, fun i => ?_⟩, registers := ?_ }
           tree := fun _ => nabCodes_tree.congr ha hr hn hf
           codes := fun _ => nabCodes_codes.congr ha hr hf hct hcb hcf }
  · rw [hdg] at h; exact absurd h (by simp)
  · have hl : (nabCodes.freq.toList.all fun n => decide (n < 2 ^ 24)) = true := by decide +kernel
    rw [State.freqAt_congr hf, hw]
    exact of_decide_eq_true (of_all_toList hl b.toNat b.isLt)
  · have hl : (nabCodes.arena.toList.all fun n => decide (n.weight < 2 ^ 32)) = true := by decide +kernel
    rw [ha, Config.Params.wtW, hw]
    exact of_decide_eq_true (of_all_toList hl i.val i.isLt)
  · have hl : (nabCodes.codeTable.toList.all fun e => decide (e.len ≤ 255 ∧ e.off ≤ 32895 ∧
        (e.valid = false → e = CodeEntry.absent))) = true := by decide +kernel
    have hall (b : Symbol) := of_decide_eq_true (of_all_toList hl b.toNat b.isLt)
    refine { nextFreeLow := by rw [hn]; decide +kernel, nextFreeHigh := by rw [hn]; decide +kernel,
             root := fun r h => ?_, codeFill := by rw [hcf]; decide, sticky := by rw [hst]; decide,
             codeLen := fun b => ?_, codeOff := fun b => ?_, absent := fun b => ?_ }
    · rw [hr, show nabCodes.root = some 257 by decide +kernel] at h
      obtain rfl := Option.some.inj h
      decide
    · rw [State.codeAt_congr hct]; exact (hall b).1
    · rw [State.codeAt_congr hct]; exact (hall b).2.1
    · rw [State.codeAt_congr hct]; exact (hall b).2.2

theorem nabCodes_inv : nabCodes.Inv :=
  inv_of_nabCodes (by decide) rfl ⟨by decide, by decide, by decide⟩
    ⟨by decide, by decide, by decide, by decide, by decide, by decide⟩
    ⟨rfl, rfl, rfl, rfl, rfl, rfl, rfl, by decide +kernel, by decide +kernel, by decide +kernel⟩

theorem nabStream_inv : nabStream.Inv :=
  inv_of_nabCodes (by decide) rfl ⟨by decide, by decide, by decide⟩
    ⟨by decide, by decide, by decide, by decide, by decide, by decide⟩
    ⟨by rw [nabStream], by rw [nabStream], by rw [nabStream], by rw [nabStream], by rw [nabStream],
      by rw [nabStream], by rw [nabStream], by decide +kernel, by decide +kernel, by decide +kernel⟩

/-! ## A witness for the hypotheses of each statement that has some -/

theorem witness_DecodeEncode : (Instr.swbits 16#5 0xFFFF#16).wellFormed = true ∧
    (Instr.swbits 1#5 0#16).wellFormed = true := by decide

theorem witness_DecodedWordIsEncoding : decode 0x3210FFFF#32 = .ok (.swbits 16#5 0xFFFF#16) := by rfl

theorem witness_StepRunsDecodedCommand :
    State.reset.pending = false ∧ decode 0x51FFFFFF#32 = .ok (.drun 0xFFFFFF#24) ∧
      (host State.reset (.write 0x10 4 0x51FFFFFF#32)).port.requests =
        .write (State.reset.params.base + 0x10) 4 0x51FFFFFF#32 :: [] := ⟨rfl, rfl, rfl⟩

theorem witness_IllegalWordOnlyRaises :
    State.reset.pending = false ∧ decode 0x32110000#32 = .error .badBitCount ∧
      (host State.reset (.write 0x10 4 0x32110000#32)).port.requests =
        .write (State.reset.params.base + 0x10) 4 0x32110000#32 :: [] := ⟨rfl, rfl, rfl⟩

theorem witness_NoAccessNoChange : State.reset.port.requests = [] := rfl

/-- A command pending, and parameters whose window starts at 0x1000. -/
def busyState : State :=
  { State.reset with pending := true, params := { Config.Params.standard with base := 0x1000 } }

/-- Both clauses, at the first and the last address of the window. -/
theorem witness_BusyHazardFaults : busyState.pending = true ∧
    (busyState.params.base ≤ 0x1000 ∧ 0x1000 < busyState.params.base + 0x1000000 ∧
      ¬(0x1000 = busyState.params.base + 0x14 ∧ 4 = 4)) ∧
    (busyState.params.base ≤ 0x1000FFF ∧ 0x1000FFF < busyState.params.base + 0x1000000 ∧
      ¬(0x1000FFF = busyState.params.base + 0x14 ∧ 1 = 4)) ∧
    ¬(0x1014 = busyState.params.base + 0x14 ∧ 2 = 4) ∧
    (host busyState (.read 0x1000 4)).port.requests = .read 0x1000 4 :: [] ∧
    (host busyState (.write 0x1010 4 0#32)).port.requests = .write 0x1010 4 0#32 :: [] := by decide

/-- A reserved offset at each end of each range of R62, a misaligned address, a byte size; and for a write every
word but CMD. -/
theorem witness_BusErrorsFault : State.reset.pending = false ∧ State.reset.params.base ≤ 0xFFFFFC ∧
    0xFFFFFC < State.reset.params.base + 0x1000000 ∧ 2 ≠ 4 ∧ (0x12 - State.reset.params.base) % 4 ≠ 0 ∧
    0x14 - State.reset.params.base ≠ 0x10 ∧
    (host State.reset (.read 0x38 4)).port.requests = .read 0x38 4 :: [] ∧
    (host State.reset (.write 0x14 4 0#32)).port.requests = .write 0x14 4 0#32 :: [] := by decide

theorem witness_reservedOffset :
    (∀ o ∈ [0x38, 0x3FC, 0xFFC, 0x17FC, 0x1C00, 0x1FFC, 0x3010, 0xFFFFC, 0x100004, 0x1FFFFC, 0x200004, 0x2FFFFC,
        0x300000, 0xFFFFFC], reservedOffset 1 1 o) ∧
      ∀ o ∈ [0x34, 0x400, 0xFF8, 0x1000, 0x17F8, 0x1800, 0x1BFC, 0x2000, 0x300C, 0x100000, 0x200000],
        ¬reservedOffset 1 1 o := by decide

/-- Two reads of ROOT. -/
theorem witness_ReadsHaveNoSideEffect : ∃ s t : State, s.pending = false ∧
    s.port.requests = .read 0x24 4 :: .read 0x24 4 :: [] ∧ step s = .next t :=
  ⟨{ State.reset with port := { State.reset.port with requests := [.read 0x24 4, .read 0x24 4] } }, _, rfl, rfl, rfl⟩

/-- Both cases of ROOT. -/
theorem witness_RegisterWords : State.reset.params.Legal ∧ State.reset.CursorsOk ∧ nabCodes.CursorsOk ∧
    nabCodes.RegistersOk ∧ State.reset.root = none ∧ nabCodes.root = some 257 :=
  ⟨by decide, ⟨by decide, by decide, by decide⟩, nabCodes_inv.basic.cursors, nabCodes_inv.basic.registers, rfl,
    by decide +kernel⟩

/-- The smallest and the largest capacities, and the first and last words. -/
theorem witness_BitWindowWords :
    ({ Config.Params.standard with streamBits := 1, outBytes := 1 }).Legal ∧ 0 < (1 + 31) / 32 ∧
      ({ Config.Params.standard with streamBits := 8388608, outBytes := 1048576 }).Legal ∧
      262143 < (8388608 + 31) / 32 ∧ 1027 < 1028 := by decide

theorem witness_OutbufWindowWords :
    ({ Config.Params.standard with outBytes := 1 }).Legal ∧ 0 < (1 + 3) / 4 ∧
      ({ Config.Params.standard with outBytes := 1048576 }).Legal ∧ 262143 < (1048576 + 3) / 4 := by decide

theorem witness_PollDrawsBusy : busyState.pending = true ∧
    (host busyState (.read 0x1014 4)).port.requests = .read (busyState.params.base + 0x14) 4 :: [] := ⟨rfl, rfl⟩

theorem witness_PollingEndsUnderFairness : busyState.pending = true := rfl

theorem witness_ResetsGiveResetState : (host busyState .reset).port.requests = .reset :: [] := rfl

/-- Counters of the smallest width: a count below the largest, and the largest. -/
def tinyCounts : State :=
  { State.reset with
    params := { Config.Params.standard with cntW := 1 }
    freq := (Vector.replicate 256 0).set 0xFF 1 }

theorem witness_FaccCountsOrOverflows : tinyCounts.freqAt 0#8 < 2 ^ tinyCounts.params.cntW - 1 ∧
    tinyCounts.freqAt 0xFF#8 = 2 ^ tinyCounts.params.cntW - 1 := by decide +kernel

/-- Every clause: after FRESET a run with a BUILD, a CLRERR and a failing SRBIT among the FACCs, from a state whose
STICKY[5] is set; after SRST; and after reset a count that reaches its largest value. -/
theorem witness_AccumulationCounts :
    optSat (runNoOverflow [.freset, .facc 0x61#8, .build, .clrerr, .srbit, .facc 0x61#8]
      { nabCounts with sticky := 0x20#32 }) (fun _ => true) = true ∧
      optSat (runNoOverflow [.srst, .facc 0x61#8] nabCounts) (fun _ => true) = true ∧
      optSat (runNoOverflow [.facc 0x61#8] (State.resetWith { Config.Params.standard with cntW := 1 }))
        (fun _ => true) = true ∧
      ∀ i ∈ [Instr.facc 0x61#8, .build, .clrerr, .srbit, .facc 0x61#8], i ≠ .freset ∧ i ≠ .srst := by
  decide +kernel

/-- NEXT_FREE at both ends, and every case of scanmin. -/
theorem witness_ScanMinPicksLightest : scanMin nabTree.arena 0 = none ∧ scanMin (freshArena nabCounts.freq) 511 = some 0 ∧
    scanMin (freshArena nabCounts.freq) 256 = some 0 := by decide +kernel

theorem witness_BuildDegenerate (b : Symbol) : State.reset.freqAt b = 0 := by
  simp [State.freqAt, State.reset, State.resetWith]

/-- Both pads: the single symbol 0, and the single symbol 255. -/
theorem witness_BuildSingleSymbol (c : Symbol) :
    (({ State.reset with freq := (Vector.replicate 256 0).set 0 1 } : State).freqAt 0#8 ≠ 0 ∧
      (c ≠ 0#8 → ({ State.reset with freq := (Vector.replicate 256 0).set 0 1 } : State).freqAt c = 0)) ∧
      tinyCounts.freqAt 0xFF#8 ≠ 0 ∧ (c ≠ 0xFF#8 → tinyCounts.freqAt c = 0) := by
  refine ⟨⟨by decide +kernel, fun h => ?_⟩, by decide +kernel, fun h => ?_⟩
  · have : 0 ≠ c.toNat := fun e => h (BitVec.eq_of_toNat_eq e.symm)
    simp only [State.freqAt, Vector.getElem_set, this, if_false, Vector.getElem_replicate]
  · have : 0xFF ≠ c.toNat := fun e => h (BitVec.eq_of_toNat_eq e.symm)
    simp only [State.freqAt, tinyCounts, Vector.getElem_set, this, if_false, Vector.getElem_replicate]

/-- The fewest and the most symbols. -/
theorem witness_BuildMergesSymbols :
    ({ State.reset with freq := ((Vector.replicate 256 0).set 0 1).set 0xFF 1 } : State).distinctSymbols = 2 ∧
      ({ State.reset with freq := Vector.replicate 256 1 } : State).distinctSymbols = 256 := by decide +kernel

/-- A BUILD that merges, for LeftChildIsLighter and WeightConservation. -/
theorem witness_merged_build : 2 ≤ nabCounts.distinctSymbols ∧ ∃ t, exec .build nabCounts = .next t ∧
    t.treeValid = true ∧ t.degen = false ∧ t.last = .ok ∧
    t.arena[(256 : Fin 511)].children = some (symbolLeaf 0#8, symbolLeaf 0x61#8) := by
  refine ⟨nabCounts_two, ?_⟩
  obtain ⟨t, h, hp⟩ := nextSat_exists (o := exec .build nabCounts) (p := fun t =>
    decide (t.treeValid = true ∧ t.degen = false ∧ t.last = .ok ∧
      t.arena[(256 : Fin 511)].children = some (symbolLeaf 0#8, symbolLeaf 0x61#8))) (by decide +kernel)
  exact ⟨t, h, of_decide_eq_true hp⟩

/-- The first and the last node of a BUILD that merges twice. -/
theorem witness_MergesTakeLightest : 2 ≤ nabCounts.distinctSymbols ∧ ∃ t, exec .build nabCounts = .next t ∧
    256 ≤ (256 : Fin 511).val ∧ (256 : Fin 511).val < t.nextFree ∧ (257 : Fin 511).val < t.nextFree := by
  refine ⟨nabCounts_two, ?_⟩
  obtain ⟨t, h, hp⟩ := nextSat_exists (o := exec .build nabCounts) (p := fun t => decide (257 < t.nextFree))
    (by decide +kernel)
  have hp := of_decide_eq_true hp
  exact ⟨t, h, le_refl _, Nat.lt_of_succ_lt hp, hp⟩

theorem witness_BuildIsFunctionOfFreq : nabStream.freq = nabCounts.freq := rfl

theorem witness_GenCompletesOnTree : nabTree.treeValid = true ∧ nabTree.TreeOk ∧ nabTree.codebuf.wf = true :=
  ⟨rfl, nabTree_tree, rfl⟩

/-- The codes GEN leaves there: NUL "10" is left of a "11", and nothing is left of b "0". -/
theorem witness_codes_left_first : nextSat (exec .gen nabTree) (fun t =>
    (t.codeAt 0#8).valid && (t.codeAt 0x61#8).valid && leftOf (t.codeBitsOf 0#8) (t.codeBitsOf 0x61#8) &&
      (t.codeAt 0x62#8).valid && decide (t.codeBitsOf 0x62#8 = [false])) = true ∧
    ∀ xs, leftOf xs [false] = false := by
  refine ⟨by decide +kernel, fun xs => ?_⟩
  match xs with
  | [] => rfl
  | true :: _ => rfl
  | [false] => rfl
  | false :: _ :: _ => rfl

/-- A GEN that completes, for CodeFillIsSumOfLengths, GenKeepsBitsAboveFill and GenIsFunctionOfTree. -/
theorem witness_gen_completes : nabTree.TreeOk ∧ nabTree.codebuf.wf = true ∧
    ∃ t, exec .gen nabTree = .next t ∧ t.last = .ok := by
  refine ⟨nabTree_tree, rfl, ?_⟩
  obtain ⟨t, h, hp⟩ := nextSat_exists (o := exec .gen nabTree) (p := fun t => decide (t.last = .ok)) (by decide +kernel)
  exact ⟨t, h, of_decide_eq_true hp⟩

/-- A second state with the same tree, for GenIsFunctionOfTree. -/
theorem witness_GenIsFunctionOfTree : nabStream.codebuf.wf = true ∧ nabStream.treeValid = nabTree.treeValid ∧
    nabStream.root = nabTree.root ∧ nabStream.arena = nabTree.arena :=
  ⟨by decide, rfl, by rw [nabStream, nabCodes], by rw [nabStream, nabCodes]⟩

/-- The counts a = 3, b = 1 of V-BLD-1. -/
def aaabCounts : State := { State.reset with freq := ((Vector.replicate 256 0).set 0x61 3).set 0x62 1 }

theorem witness_LengthsAreMonotonic : ∃ t u, exec .build aaabCounts = .next t ∧ exec .gen t = .next u ∧ u.last = .ok ∧
    (u.codeAt 0x61#8).valid = true ∧ (u.codeAt 0x62#8).valid = true ∧ u.freqAt 0x62#8 < u.freqAt 0x61#8 := by
  obtain ⟨t, ht, hp⟩ := nextSat_exists (o := exec .build aaabCounts) (p := fun t => nextSat (exec .gen t) fun u =>
    decide (u.last = .ok ∧ (u.codeAt 0x61#8).valid = true ∧ (u.codeAt 0x62#8).valid = true ∧
      u.freqAt 0x62#8 < u.freqAt 0x61#8)) (by decide +kernel)
  obtain ⟨u, hu, hq⟩ := nextSat_exists hp
  exact ⟨t, u, ht, hu, of_decide_eq_true hq⟩

theorem witness_CodesArePrefixFree : nabCodes.TreeOk ∧ nabCodes.CodesOk ∧ (0#8 : Symbol) ≠ 0x61#8 ∧
    (nabCodes.codeAt 0#8).valid = true ∧ (nabCodes.codeAt 0x61#8).valid = true :=
  ⟨nabCodes_tree, nabCodes_codes, by decide, by decide +kernel, by decide +kernel⟩

/-- A stream of 16 bits, with codes. -/
def shortStream : State := { nabCodes with params := { Config.Params.standard with streamBits := 16 } }

/-- The smallest and the largest bit count; the largest fills the stream exactly. -/
theorem witness_SwbitsAppends : (Instr.swbits 1#5 1#16).wellFormed = true ∧
    (Instr.swbits 16#5 0xFFFF#16).wellFormed = true ∧ shortStream.stream.wf = true ∧
    shortStream.sCur + (16#5).toNat ≤ shortStream.params.streamBits ∧
    shortStream.sCur + (1#5).toNat ≤ shortStream.params.streamBits := by decide

/-- One bit too many, for SWBITS and for ENC. -/
theorem witness_CapacityIsAllOrNothing : shortStream.params.streamBits < 15 + (2#5).toNat ∧
    shortStream.codesValid = true ∧ (shortStream.codeAt 0x61#8).valid = true ∧
    shortStream.params.streamBits < ({ shortStream with sCur := 15, sWlen := 15 } : State).sCur +
      (shortStream.codeAt 0x61#8).len := by decide +kernel

/-- The last written bit, and the position after it. -/
theorem witness_SrbitReads : ({ nabStream with sCur := 4 } : State).sCur < nabStream.sWlen ∧
    nabStream.sWlen ≤ ({ nabStream with sCur := 5 } : State).sCur := by decide

/-- A code that fills the stream exactly. -/
theorem witness_EncAppendsCode : shortStream.codesValid = true ∧ (shortStream.codeAt 0x61#8).valid = true ∧
    shortStream.stream.wf = true ∧ ({ shortStream with sCur := 14, sWlen := 14 } : State).sCur ≤ 14 ∧
    ({ shortStream with sCur := 14, sWlen := 14 } : State).sCur + (shortStream.codeAt 0x61#8).len ≤
      shortStream.params.streamBits := by decide +kernel

theorem witness_EncErrors : nabTree.codesValid = false ∧ nabCodes.codesValid = true ∧
    (nabCodes.codeAt 0x7A#8).valid = false := by decide +kernel

theorem witness_NotReadyWithoutTree : State.reset.treeValid = false ∧
    (Instr.drun 0#24 = .gen ∨ Instr.drun 0#24 = .dsym ∨ Instr.drun 0#24 = .drun 0#24 ∨ Instr.drun 0#24 = .dsent) :=
  ⟨rfl, .inr (.inr (.inl rfl))⟩

theorem nabStream_leads (xs : List Bool) (b : Symbol) (h : nabTree.leadsTo xs b) : nabStream.leadsTo xs b :=
  (State.leadsTo_congr (s := nabTree) (by rw [nabStream, nabCodes]) (by rw [nabStream, nabCodes]) xs b).2 h

/-- A code that ends with the written stream, and a stream that ends inside and before a code. -/
theorem witness_DsymDecodesOrRollsBack : nabStream.treeValid = true ∧
    (nabStream.leadsTo [true, false] 0#8 ∧ nabStream.stream.readBits 3 2 = [true, false] ∧ 3 + 2 ≤ nabStream.sWlen) ∧
    ({ nabStream with sWlen := 4 } : State).endsInsideCode 3 = true ∧ nabStream.endsInsideCode 5 = true :=
  ⟨rfl, ⟨nabStream_leads _ _ nabTree_nul, by decide, by decide⟩, by decide +kernel, by decide +kernel⟩

/-- "ab" and then NUL, to the end of the written stream. -/
theorem nabStream_holds : nabStream.holdsSymbols 0 ([0x61#8, 0x62#8] ++ [0#8]) 5 :=
  ⟨[true, true], by decide, nabStream_leads _ _ nabTree_a, by decide, by decide,
    [false], by decide, nabStream_leads _ _ nabTree_b, by decide, by decide,
    [true, false], by decide, nabStream_leads _ _ nabTree_nul, by decide, by decide, rfl⟩

theorem nabStream_holds_ab : nabStream.holdsSymbols 0 [0x61#8, 0x62#8] 3 :=
  ⟨[true, true], by decide, nabStream_leads _ _ nabTree_a, by decide, by decide,
    [false], by decide, nabStream_leads _ _ nabTree_b, by decide, by decide, rfl⟩

/-- All of the stream, and no symbol at all. -/
theorem witness_DrunDecodes : nabStream.treeValid = true ∧ nabStream.outbuf.wf = true ∧
    (nabStream.holdsSymbols nabStream.sCur [0x61#8, 0x62#8, 0#8] 5 ∧ [0x61#8, 0x62#8, 0#8].length = (3#24).toNat ∧
      nabStream.oCnt + 3 ≤ nabStream.params.outBytes) ∧
    nabStream.holdsSymbols nabStream.sCur [] 0 ∧ ([] : List Symbol).length = (0#24).toNat :=
  ⟨rfl, rfl, ⟨nabStream_holds, rfl, by decide⟩, rfl, rfl⟩

/-- Room for two bytes of output. -/
def fullOutput : State := { nabStream with params := { Config.Params.standard with outBytes := 2 } }

/-- The stream cut inside its last code. -/
def cutStream : State := { nabStream with sWlen := 4 }

theorem fullOutput_holds : fullOutput.holdsSymbols 0 [0x61#8, 0x62#8] 3 :=
  (holdsSymbols_congr (s := nabStream) (by rw [fullOutput]) (by rw [fullOutput]) (by rw [fullOutput])
    (by rw [fullOutput]) _ 0 3).2 nabStream_holds_ab

theorem cutStream_leads (xs : List Bool) (b : Symbol) (h : nabTree.leadsTo xs b) : cutStream.leadsTo xs b :=
  (State.leadsTo_congr (s := nabStream) (by rw [cutStream]) (by rw [cutStream]) xs b).2 (nabStream_leads xs b h)

theorem cutStream_holds : cutStream.holdsSymbols 0 [0x61#8, 0x62#8] 3 :=
  ⟨[true, true], by decide, cutStream_leads _ _ nabTree_a, by decide, by decide,
    [false], by decide, cutStream_leads _ _ nabTree_b, by decide, by decide, rfl⟩

/-- A full output buffer after two symbols, and a stream that ends inside the third code. -/
theorem witness_DrunStopsEarly : fullOutput.treeValid = true ∧ fullOutput.outbuf.wf = true ∧
    (fullOutput.holdsSymbols 0 [0x61#8, 0x62#8] 3 ∧ [0x61#8, 0x62#8].length < (3#24).toNat ∧
      fullOutput.oCnt + 2 = fullOutput.params.outBytes) ∧
    cutStream.treeValid = true ∧ cutStream.outbuf.wf = true ∧ cutStream.holdsSymbols 0 [0x61#8, 0x62#8] 3 ∧
    cutStream.endsInsideCode 3 = true ∧ cutStream.oCnt + 2 < cutStream.params.outBytes :=
  ⟨rfl, rfl, ⟨fullOutput_holds, by decide, rfl⟩, rfl, rfl, cutStream_holds, by decide +kernel, by decide⟩

theorem witness_DsentDecodes : nabStream.treeValid = true ∧ nabStream.outbuf.wf = true ∧
    0#8 ∉ [0x61#8, 0x62#8] ∧ nabStream.holdsSymbols nabStream.sCur ([0x61#8, 0x62#8] ++ [0#8]) 5 ∧
    nabStream.oCnt + [0x61#8, 0x62#8].length + 1 ≤ nabStream.params.outBytes :=
  ⟨rfl, rfl, by decide, nabStream_holds, by decide⟩

/-- As for DRUN; neither of the two symbols is the sentinel. -/
theorem witness_DsentStopsEarly : 0#8 ∉ [0x61#8, 0x62#8] ∧
    (fullOutput.holdsSymbols 0 [0x61#8, 0x62#8] 3 ∧ fullOutput.oCnt + 2 = fullOutput.params.outBytes) ∧
    cutStream.holdsSymbols 0 [0x61#8, 0x62#8] 3 ∧ cutStream.endsInsideCode 3 = true ∧
    cutStream.oCnt + 2 < cutStream.params.outBytes :=
  ⟨by decide, ⟨fullOutput_holds, rfl⟩, cutStream_holds, by decide +kernel, by decide⟩

theorem witness_CompletionBookkeeping : Instr.srbit ≠ .srst ∧ (∃ t, exec .srbit State.reset = .next t) ∧
    Instr.clrerr ≠ .srst ∧ ∃ t, exec .clrerr State.reset = .next t :=
  ⟨by decide, ⟨_, rfl⟩, by decide, ⟨_, rfl⟩⟩

theorem witness_ResultCodesOfCommands : ∃ t, exec .srbit State.reset = .next t ∧ t.last = .overread := ⟨_, rfl, rfl⟩

/-- Twelve nodes over leaf 255, each the parent of the one below it twice: no tree, and 4096 codes of 12 bits. -/
def doubling : State :=
  { State.reset with
    treeValid := true
    root := some 267
    arena := Vector.ofFn fun i => {
      weight := 1, consumed := true
      children := if h : i.val < 256 then none else some (⟨i.val - 1, by omega⟩, ⟨i.val - 1, by omega⟩) } }

theorem doubling_children (i : Fin 511) : doubling.arena[i].children =
    if h : i.val < 256 then none else some (⟨i.val - 1, by omega⟩, ⟨i.val - 1, by omega⟩) := by
  simp [doubling]

theorem doubling_weight (i : Fin 511) : doubling.arena[i].weight ≠ 0 := by
  simp [doubling]

theorem doubling_descends : doubling.arena.Descends := by
  have key : ∀ i l r : Fin 511, doubling.arena[i].children = some (l, r) →
      256 ≤ i.val ∧ l.val = i.val - 1 ∧ r.val = i.val - 1 := by
    intro i l r h
    rw [doubling_children] at h
    split at h
    · exact absurd h (by simp)
    · obtain ⟨rfl, rfl⟩ := Prod.mk.inj (Option.some.inj h)
      exact ⟨by omega, rfl, rfl⟩
  refine ⟨fun i l r h => (key i l r h).1, fun i l r h => ?_⟩
  obtain ⟨h₁, h₂, h₃⟩ := key i l r h
  exact ⟨Fin.lt_def.2 (by omega), Fin.lt_def.2 (by omega)⟩

theorem doubling_bits (m fuel : Nat) (i : Fin 511) (path : List Bool) (hi : i.val = 255 + m) (hfuel : i.val < fuel) :
    pathBits (counted doubling.arena (leafPaths doubling.arena fuel i path)) = 2 ^ m * (path.length + m) := by
  induction m generalizing fuel i path with
  | zero =>
    obtain ⟨fuel, rfl⟩ := Nat.exists_eq_add_of_lt hfuel
    obtain ⟨b, hb, _⟩ := leafSymbol_of_lt (i := i) (by omega)
    rw [leafPaths, doubling_children, dif_pos (by omega)]
    simp only [hb, counted, List.filter_cons, doubling_weight, ne_eq, not_false_eq_true, decide_true, if_true,
      List.filter_nil]
    simp [pathBits]
  | succ m ih =>
    obtain ⟨fuel, rfl⟩ := Nat.exists_eq_add_of_lt hfuel
    rw [leafPaths, doubling_children, dif_neg (by omega)]
    simp only
    rw [counted_append, pathBits_append, ih _ _ _ (by simp only; omega) (by simp only; omega),
      ih _ _ _ (by simp only; omega) (by simp only; omega)]
    simp only [List.length_append, List.length_cons, List.length_nil, pow_succ]
    ring

/-- GEN's capacity failure, in a state that no run reaches. -/
theorem doubling_gen : ∃ t, exec .gen doubling = .next t ∧ t.last = .capacityExceeded := by
  obtain ⟨g, hg⟩ := visit_full doubling_descends (top := 267) (i := 267)
    (fun k _ hk => by by_contra hge; rw [doubling_children, dif_neg hge] at hk; exact absurd hk (by simp))
    511 (le_refl _) (by decide) [] { table := clearedTable, buf := doubling.codebuf, cur := 0 } (Nat.zero_le _)
    (by rw [doubling_bits 12 511 267 [] rfl (by decide)]; decide)
  have hw : doubling.genWalk = .full g := hg
  refine ⟨State.complete { doubling with codeTable := g.table, codebuf := g.buf, codesValid := false }
    .capacityExceeded 0, ?_, rfl⟩
  show execGen doubling = _
  unfold execGen
  rw [if_pos (show doubling.treeValid = true from rfl), hw]
  rfl

theorem cursorsOk_of {s : State} (h : (decide (s.sCur ≤ s.sWlen) && decide (s.sWlen ≤ s.params.streamBits) &&
    decide (s.oCnt ≤ s.params.outBytes)) = true) : s.CursorsOk := by
  simp only [Bool.and_eq_true, decide_eq_true_eq] at h
  exact ⟨h.1.1, h.1.2, h.2⟩

/-- A raise of BUILD; of DRUN with a full OUTBUF and of DSENT at the end of the stream, each after two symbols; of
GEN; and of two commands that change nothing, a DRUN with no tree among them. -/
theorem witness_ErrorsChangeNothingElse :
    (State.reset.CursorsOk ∧ State.reset.outbuf.wf = true ∧ ∃ t, exec .build State.reset = .next t ∧ t.last ≠ .ok) ∧
    (fullOutput.CursorsOk ∧ fullOutput.outbuf.wf = true ∧
      ∃ t, exec (.drun 3#24) fullOutput = .next t ∧ t.last = .capacityExceeded ∧ t.oCnt = 2) ∧
    (cutStream.CursorsOk ∧ cutStream.outbuf.wf = true ∧
      ∃ t, exec .dsent cutStream = .next t ∧ t.last = .overread ∧ t.oCnt = 2) ∧
    (doubling.CursorsOk ∧ doubling.outbuf.wf = true ∧ ∃ t, exec .gen doubling = .next t ∧ t.last = .capacityExceeded) ∧
    (∃ t, exec .srbit State.reset = .next t ∧ t.last = .overread) ∧
    ∃ t, exec (.drun 3#24) State.reset = .next t ∧ t.last = .notReady := by
  refine ⟨⟨cursorsOk_of rfl, rfl, ?_⟩, ⟨cursorsOk_of rfl, rfl, ?_⟩, ⟨cursorsOk_of rfl, rfl, ?_⟩,
    ⟨cursorsOk_of rfl, rfl, doubling_gen⟩, ⟨_, rfl, rfl⟩, ⟨_, rfl, rfl⟩⟩
  · obtain ⟨t, h, hp⟩ := nextSat_exists (o := exec .build State.reset) (p := fun t => decide (t.last ≠ .ok))
      (by decide +kernel)
    exact ⟨t, h, of_decide_eq_true hp⟩
  · obtain ⟨t, h, hp⟩ := nextSat_exists (o := exec (.drun 3#24) fullOutput) (p := fun t =>
      decide (t.last = .capacityExceeded ∧ t.oCnt = 2)) (by decide +kernel)
    exact ⟨t, h, of_decide_eq_true hp⟩
  · obtain ⟨t, h, hp⟩ := nextSat_exists (o := exec .dsent cutStream) (p := fun t =>
      decide (t.last = .overread ∧ t.oCnt = 2)) (by decide +kernel)
    exact ⟨t, h, of_decide_eq_true hp⟩

/-- The smallest and the largest parameters. -/
theorem witness_ResetMeetsInv : Config.Params.Legal { cntW := 1, streamBits := 1, outBytes := 1, base := 0 } ∧
    Config.Params.Legal { cntW := 24, streamBits := 8388608, outBytes := 1048576, base := 0xFF000000 } := by decide

theorem witness_ParametersAreConstant : ∃ t, step State.reset = .next t := ⟨_, rfl⟩

/-- A DSYM issued to a state of the invariant with a tree and codes, for every StepKeeps statement. -/
theorem witness_step_keeps : (host nabStream (.write 0x10 4 0x50000000#32)).Inv ∧
    ∃ t, step (host nabStream (.write 0x10 4 0x50000000#32)) = .next t ∧ t.treeValid = true ∧ t.codesValid = true := by
  constructor
  · exact inv_of_nabCodes (by decide) rfl ⟨by decide, by decide, by decide⟩
      ⟨by decide, by decide, by decide, by decide, by decide, by decide⟩
      ⟨by rw [host, nabStream], by rw [host, nabStream], by rw [host, nabStream], by rw [host, nabStream],
        by rw [host, nabStream], by rw [host, nabStream], by rw [host, nabStream], by decide +kernel,
        by decide +kernel, by decide +kernel⟩
  · obtain ⟨t, h, hp⟩ := nextSat_exists (o := step (host nabStream (.write 0x10 4 0x50000000#32)))
      (p := fun t => decide (t.treeValid = true ∧ t.codesValid = true)) (by decide +kernel)
    exact ⟨t, h, of_decide_eq_true hp⟩

theorem witness_EveryCommandCompletes : nabStream.Inv := nabStream_inv

theorem witness_SymbolRoundTrip : nabCodes.Inv ∧ ∃ t, exec (.enc 0x61#8) nabCodes = .next t ∧ t.last = .ok := by
  refine ⟨nabCodes_inv, ?_⟩
  obtain ⟨t, h, hp⟩ := nextSat_exists (o := exec (.enc 0x61#8) nabCodes) (p := fun t => decide (t.last = .ok))
    (by decide +kernel)
  exact ⟨t, h, of_decide_eq_true hp⟩

/-- The input "b", NUL, whose only 0 is its last symbol. -/
theorem witness_RoundTrip : ([0x62#8, 0#8] : List Symbol) ≠ [] ∧ [0x62#8, 0#8].length < 2 ^ 24 ∧
    State.reset.BuffersOk ∧ [0x62#8, 0#8] = [0x62#8] ++ [0#8] ∧ 0#8 ∉ [0x62#8] ∧
    ∃ t, runOk (.freset :: [0x62#8, 0#8].map .facc ++ [.build, .gen, .sclear] ++ [0x62#8, 0#8].map .enc ++ [.sreset])
      State.reset = some t ∧ t.oCnt = 0 ∧ [0x62#8, 0#8].length ≤ t.params.outBytes := by
  refine ⟨by decide, by decide, ⟨by decide, by decide, by decide, by decide, by decide, by decide⟩, rfl, by decide, ?_⟩
  obtain ⟨t, ht, hp⟩ := optSat_exists (o := runOk (.freset :: [0x62#8, 0#8].map .facc ++ [.build, .gen, .sclear] ++
      [0x62#8, 0#8].map .enc ++ [.sreset]) State.reset)
    (p := fun t => decide (t.oCnt = 0 ∧ [0x62#8, 0#8].length ≤ t.params.outBytes)) (by decide +kernel)
  exact ⟨t, ht, of_decide_eq_true hp⟩

end Sys2Proof.Tests
end

section
/-! Every step keeps the basic invariant (O55), the reset state meets the invariant (O52), and a CMD write runs the
decoded command (O5). -/

namespace Sys2Proof.Machine

/-! ## What a step can do -/

theorem runCommand_of_decode {w : Word} {i : Instr} (hd : decode w = .ok i) (s : State) :
    runCommand w s = exec i s := by
  simp only [runCommand, hd]

theorem runCommand_of_illegal {w : Word} {e : IllegalWord} (hd : decode w = .error e) (s : State) :
    runCommand w s = illegalCommand s := by
  simp only [runCommand, hd]

/-- What a step from `s` that answers a next state has done: nothing, or an access taken and then a read answered, a
poll, a hardware reset, a command run, or an illegal word rejected (R252). -/
inductive StepNext (s t : State) : Prop where
  | idle (ht : t = s) : StepNext s t
  | answer (rest : List HostAccess) (w : Word) (ht : t = (s.take rest).answer w) : StepNext s t
  | poll (rest : List HostAccess) (ht : t = (s.take rest).poll) : StepNext s t
  | reset (rest : List HostAccess) (ht : t = (s.take rest).hardwareReset) : StepNext s t
  | command (rest : List HostAccess) (w : Word) (i : Instr) (hd : decode w = .ok i)
      (ht : exec i ((s.take rest).issue w) = .next t) : StepNext s t
  | illegal (rest : List HostAccess) (w : Word) (e : IllegalWord) (hd : decode w = .error e)
      (ht : t = ((s.take rest).issue w).complete .illegalCommand 0) : StepNext s t

theorem step_next {s t : State} (h : step s = .next t) : StepNext s t := by
  cases hr : s.port.requests with
  | nil =>
    rw [step_nil hr] at h
    exact .idle (Host.Outcome.next.inj h).symm
  | cons a rest =>
    rw [step_cons hr] at h
    cases ha : s.busAction a with
    | answer w => rw [ha] at h; exact .answer rest w (Host.Outcome.next.inj h).symm
    | poll => rw [ha] at h; exact .poll rest (Host.Outcome.next.inj h).symm
    | reset => rw [ha] at h; exact .reset rest (Host.Outcome.next.inj h).symm
    | fault f => rw [ha] at h; exact absurd h (by simp [perform])
    | issue w =>
      rw [ha] at h
      change runCommand w ((s.take rest).issue w) = .next t at h
      cases hd : decode w with
      | ok i => rw [runCommand_of_decode hd] at h; exact .command rest w i hd h
      | error e => rw [runCommand_of_illegal hd] at h; exact .illegal rest w e hd (raise_next h)

/-! ## One rule per group of elements that a command writes together -/

/-- The bounds of RegistersOk on one code-table entry (R42). -/
structure CodeEntry.InRange (e : CodeEntry) : Prop where
  len : e.len ≤ 255
  off : e.off ≤ 32895
  absent : e.valid = false → e = CodeEntry.absent

namespace State.BasicInv
variable {s : State}

/-- The host's port, CMD, PENDING, LAST and RESULT are free; STICKY keeps its reserved bits 0 (R41). -/
theorem withControl (h : s.BasicInv) (cmd : Word) (pending : Bool) (last : ResultCode) (result : Word)
    {sticky : Word} (port : HostPort) (hs : sticky &&& 0xFFFFFF01#32 = 0#32) :
    BasicInv { s with
      cmd := cmd, pending := pending, last := last, result := result, sticky := sticky, port := port } where
  params := h.params
  flags := { h.flags with }
  cursors := { h.cursors with }
  buffers := { h.buffers with }
  counters := { h.counters with }
  registers := { h.registers with sticky := hs }

/-- STREAM and its cursors (R44). -/
theorem withStream (h : s.BasicInv) {m : Memory} {cur len : Nat} (hc : cur ≤ len) (hl : len ≤ s.params.streamBits)
    (hm : m.wf = true) (hb : m.below ((s.params.streamBits + 7) / 8) = true) :
    BasicInv { s with stream := m, sCur := cur, sWlen := len } where
  params := h.params
  flags := { h.flags with }
  cursors := ⟨hc, hl, h.cursors.output⟩
  buffers := { h.buffers with stream := hm, streamSize := hb }
  counters := { h.counters with }
  registers := { h.registers with }

/-- OUTBUF and O_CNT, with the cursor of the symbols decoded into it (R44, R45). -/
theorem withOutput (h : s.BasicInv) {m : Memory} {cnt cur : Nat} (hc : cur ≤ s.sWlen)
    (hn : cnt ≤ s.params.outBytes) (hm : m.wf = true) (hb : m.below s.params.outBytes = true) :
    BasicInv { s with outbuf := m, oCnt := cnt, sCur := cur } where
  params := h.params
  flags := { h.flags with }
  cursors := ⟨hc, h.cursors.written, hn⟩
  buffers := { h.buffers with outbuf := hm, outbufSize := hb }
  counters := { h.counters with }
  registers := { h.registers with }

/-- The counts, with the flags their change clears (R23, R35). -/
theorem withFreq (h : s.BasicInv) {freq : Vector Nat 256}
    (hf : ∀ b : Symbol, freq[b.toNat]'b.isLt < 2 ^ s.params.cntW) :
    BasicInv (State.invalidate { s with freq := freq }) where
  params := h.params
  flags := ⟨fun hc => absurd hc (by simp), fun hd => absurd hd (by simp)⟩
  cursors := { h.cursors with }
  buffers := { h.buffers with }
  counters := ⟨hf, h.counters.weight⟩
  registers := { h.registers with }

/-- What BUILD writes (R24, R27, R28, R35 to R37). -/
theorem withTree (h : s.BasicInv) {arena : Arena} {n : Nat} {root : Option (Fin 511)} {valid degen : Bool}
    (hd : degen = true → valid = true) (hw : ∀ i : Fin 511, arena[i].weight < 2 ^ s.params.wtW)
    (hlow : 256 ≤ n) (hhigh : n ≤ 511) (hr : ∀ r, root = some r → 256 ≤ r.val) :
    BasicInv { s with
      arena := arena, nextFree := n, root := root, treeValid := valid, codesValid := false, degen := degen } where
  params := h.params
  flags := ⟨fun hc => absurd hc (by simp), hd⟩
  cursors := { h.cursors with }
  buffers := { h.buffers with }
  counters := ⟨h.counters.freq, hw⟩
  registers := { h.registers with nextFreeLow := hlow, nextFreeHigh := hhigh, root := hr }

/-- What GEN writes while TREE_VALID = 1 (R36, R42, R43). -/
theorem withCodes (h : s.BasicInv) (hv : s.treeValid = true) {table : Vector CodeEntry 256} {m : Memory} {fill : Nat}
    (ht : ∀ b : Symbol, (table[b.toNat]'b.isLt).InRange) (hm : m.wf = true)
    (hb : m.below (Config.codeBits / 8) = true) (hf : fill ≤ Config.codeBits) :
    BasicInv { s with codeTable := table, codebuf := m, codeFill := fill, codesValid := true } where
  params := h.params
  flags := ⟨fun _ => hv, h.flags.degen⟩
  cursors := { h.cursors with }
  buffers := { h.buffers with codebuf := hm, codebufSize := hb }
  counters := { h.counters with }
  registers := { h.registers with
    codeFill := hf, codeLen := fun b => (ht b).len, codeOff := fun b => (ht b).off, absent := fun b => (ht b).absent }

/-- The bookkeeping of a completion sets no reserved bit of STICKY (R41, R232). -/
theorem complete (h : s.BasicInv) (c : ResultCode) (r : Nat) : (s.complete c r).BasicInv := by
  refine h.withControl s.cmd s.pending c (BitVec.ofNat 32 r) s.port ?_
  have hbit : c.stickyBit &&& 0xFFFFFF01#32 = 0#32 := by cases c <;> decide
  rw [BitVec.and_or_distrib_right, h.registers.sticky, hbit]
  rfl

theorem of_finish (h : s.BasicInv) {t : State} {r : Nat} (ht : finish s r = .next t) : t.BasicInv :=
  finish_next ht ▸ h.complete .ok r

theorem of_raise (h : s.BasicInv) {t : State} {c : ResultCode} {r : Nat} (ht : raise s c r = .next t) : t.BasicInv :=
  raise_next ht ▸ h.complete c r

end State.BasicInv

/-! ## Reset and the host's accesses -/

theorem State.basicInv_resetWith {p : Config.Params} (hp : p.Legal) : (State.resetWith p).BasicInv where
  params := hp
  flags := ⟨fun h => absurd h (by simp [State.resetWith]), fun h => absurd h (by simp [State.resetWith])⟩
  cursors := ⟨Nat.zero_le _, Nat.zero_le _, Nat.zero_le _⟩
  buffers := ⟨rfl, rfl, rfl, rfl, rfl, rfl⟩
  counters := by
    constructor
    · intro b
      simp [State.resetWith, State.freqAt]
    · intro i
      simp [State.resetWith, Node.empty]
  registers := by
    have hentry : ∀ b, (State.resetWith p).codeAt b = CodeEntry.absent := by
      intro b
      simp [State.codeAt, State.resetWith]
    exact
      { nextFreeLow := le_refl 256
        nextFreeHigh := (by decide : 256 ≤ 511)
        root := fun r h => absurd h (by simp [State.resetWith])
        codeFill := Nat.zero_le _
        sticky := BitVec.zero_and
        codeLen := fun b => by rw [hentry]; exact Nat.zero_le _
        codeOff := fun b => by rw [hentry]; exact Nat.zero_le _
        absent := fun b _ => hentry b }

namespace State.BasicInv
variable {s : State}

theorem take (h : s.BasicInv) (rest : List HostAccess) : (s.take rest).BasicInv :=
  h.withControl s.cmd s.pending s.last s.result _ h.registers.sticky

theorem answer (h : s.BasicInv) (w : Word) : (s.answer w).BasicInv :=
  h.withControl s.cmd s.pending s.last s.result _ h.registers.sticky

theorem issue (h : s.BasicInv) (w : Word) : (s.issue w).BasicInv :=
  h.withControl w true s.last s.result s.port h.registers.sticky

theorem poll (h : s.BasicInv) : s.poll.BasicInv := by
  unfold State.poll
  split
  · exact h.withControl s.cmd s.pending s.last s.result _ h.registers.sticky
  · exact h.withControl s.cmd false s.last s.result _ h.registers.sticky

theorem hardwareReset (h : s.BasicInv) : s.hardwareReset.BasicInv :=
  (State.basicInv_resetWith h.params).withControl _ true _ _ s.port BitVec.zero_and

end State.BasicInv

/-! ## The stream, the output buffer and the counts -/

theorem State.BasicInv.streamWriteBits {s : State} (h : s.BasicInv) {xs : List Bool}
    (hfit : s.sCur + xs.length ≤ s.params.streamBits) : (s.streamWriteBits xs).BasicInv := by
  obtain ⟨hcur, hlen, _⟩ := h.cursors
  rw [State.streamWriteBits_eq s xs (.inr hcur)]
  exact h.withStream (le_max_right _ _) (max_le hlen hfit) (Memory.wf_writeBits _ xs h.buffers.stream)
    (Memory.below_writeBits xs (by omega) h.buffers.streamSize)

theorem Memory.below_writeBytes {m : Memory} {n k : Nat} (bs : List Symbol) (hk : k + bs.length ≤ n)
    (hm : m.below n = true) : (m.writeBytes k bs).below n = true := by
  induction bs generalizing m k with
  | nil => exact hm
  | cons b bs ih =>
    rw [List.length_cons] at hk
    exact ih (by omega) (Memory.below_write b (by omega) hm)

/-- The symbols a decode loop has emitted fit in OUTBUF, and its cursor has not passed S_WLEN. -/
theorem State.BasicInv.emitAll {s : State} (h : s.BasicInv) {bs : List Symbol} {e : Nat} (hb : Emitted s bs e) :
    (s.emitAll bs e).BasicInv := by
  obtain ⟨hcur, _, hout⟩ := h.cursors
  have hend : e ≤ s.sWlen := by
    cases bs with
    | nil => exact (show s.sCur = e from hb.held) ▸ hcur
    | cons b bs => exact (holdsSymbols_length _ hb.held).2 (List.cons_ne_nil b bs)
  exact h.withOutput hend (hb.fits hout) (Memory.wf_writeBytes _ bs h.buffers.outbuf)
    (Memory.below_writeBytes bs (hb.fits hout) h.buffers.outbufSize)

/-! ## The weights BUILD computes -/

/-- A sum of 256 counters fits in a weight (R10). -/
theorem State.CountersOk.totalFreq_lt {s : State} (h : s.CountersOk) : s.totalFreq < 2 ^ s.params.wtW := by
  have hmax : ∀ n ∈ s.freq.toList, n ≤ 2 ^ s.params.cntW - 1 := by
    intro n hn
    obtain ⟨k, hk, rfl⟩ := List.getElem_of_mem hn
    have hk : k < 256 := by simpa using hk
    have := h.freq (BitVec.ofNat 8 k)
    simp only [State.freqAt, BitVec.toNat_ofNat, Nat.mod_eq_of_lt hk] at this
    rw [Vector.getElem_toList]
    omega
  have hsum := List.sum_le_card_nsmul s.freq.toList _ hmax
  rw [Vector.length_toList, smul_eq_mul] at hsum
  have hpow : 2 ^ s.params.wtW = 2 ^ s.params.cntW * 256 := by rw [Config.Params.wtW, pow_add]; norm_num
  have hpos : 0 < 2 ^ s.params.cntW := Nat.two_pow_pos _
  rw [State.totalFreq]
  omega

theorem freshArena_weight_le (freq : Vector Nat 256) (i : Fin 511) :
    (freshArena freq)[i].weight ≤ freq.toList.sum := by
  have h := le_tally Node.weight (freshArena freq) i
  rw [tally_fresh Node.weight rfl] at h
  simpa [leafNode] using h

theorem singleArena_weight_le (freq : Vector Nat 256) (i k : Fin 511) :
    (singleArena freq i)[k].weight ≤ freq.toList.sum := by
  rw [getElem_singleArena]
  split
  · exact freshArena_weight_le freq i
  · rw [consume_weight, consume_weight]
    exact freshArena_weight_le freq k

/-- No node below another outweighs it, since an internal node's weight is the sum of its children's (R29). -/
theorem Merging.weight_le_of_follow {freq : Vector Nat 256} {a : Arena} {n : Nat} (h : Merging freq a n)
    {i k : Fin 511} {xs : List Bool} (hf : a.follow i xs = some k) : a[k].weight ≤ a[i].weight := by
  induction xs generalizing i with
  | nil => rw [Option.some.inj hf]
  | cons x xs ih =>
    obtain ⟨l, r, hc, hf⟩ := Arena.follow_cons.1 hf
    obtain ⟨hlow, hn⟩ := h.children_lt hc
    obtain ⟨l', r', hc', _, _, _, hw, _⟩ := h.inner i hlow hn
    rw [hc] at hc'
    obtain ⟨rfl, rfl⟩ := Prod.mk.inj (Option.some.inj hc')
    refine le_trans (ih hf) ?_
    cases x with
    | false => exact hw ▸ Nat.le_add_right _ _
    | true => exact hw ▸ Nat.le_add_left _ _

/-- Every node of the merged tree is below ROOT, whose weight is the sum of the counts (R142). -/
theorem mergedArena_weight_le {freq : Vector Nat 256} (h : 2 ≤ countNonzero freq) (k : Fin 511) :
    (mergeLoop 256 (freshArena freq) 256).1[k].weight ≤ freq.toList.sum := by
  obtain ⟨a, root, hm, _, hactive, hrest, e⟩ := mergedArena_spec h
  rw [e, consume_weight, ← hm.rootWeight hactive hrest]
  by_cases hk : a[k].weight = 0
  · omega
  · obtain ⟨xs, hf⟩ := hm.reach hrest k hk
    exact hm.weight_le_of_follow hf

/-- A tree's ROOT and NEXT_FREE keep the ranges of R27 and R28. -/
theorem State.TreeOk.ranges {s : State} (h : s.TreeOk) :
    256 ≤ s.nextFree ∧ s.nextFree ≤ 511 ∧ ∀ r, s.root = some r → 256 ≤ r.val := by
  obtain ⟨r, hroot, hr, hn⟩ := h.root
  refine ⟨by omega, by omega, fun r' hr' => ?_⟩
  rw [hroot] at hr'
  exact Option.some.inj hr' ▸ hr

theorem execBuild_keepsBasicInv {s t : State} (h : s.BasicInv) (ht : execBuild s = .next t) : t.BasicInv := by
  have hfit : ∀ w, w ≤ s.freq.toList.sum → w < 2 ^ s.params.wtW := fun w hw =>
    lt_of_le_of_lt hw h.counters.totalFreq_lt
  rcases hn : countNonzero s.freq with _ | _ | n
  · rw [execBuild_none hn] at ht
    refine State.BasicInv.of_raise (s := s.initBuild) ?_ ht
    exact h.withTree (fun hd => hd) (fun i => hfit _ (freshArena_weight_le s.freq i)) (le_refl 256)
      (by decide : 256 ≤ 511)
      fun r hr => absurd hr (by simp)
  · obtain ⟨b, _, hothers, e⟩ := execBuild_one hn
    rw [e] at ht
    obtain ⟨hlow, hhigh, hroot⟩ := (State.buildSingle_treeOk hothers).ranges
    refine State.BasicInv.of_finish (s := s.buildSingle (symbolLeaf b)) ?_ ht
    exact h.withTree (fun _ => rfl) (fun k => hfit _ (singleArena_weight_le s.freq (symbolLeaf b) k)) hlow hhigh hroot
  · have hmany : 2 ≤ countNonzero s.freq := by omega
    rw [execBuild_many hmany] at ht
    obtain ⟨hlow, hhigh, hroot⟩ := (s.buildMerged_treeOk hmany).ranges
    refine State.BasicInv.of_finish (s := s.buildMerged) ?_ ht
    exact h.withTree (fun _ => rfl) (fun k => hfit _ (mergedArena_weight_le hmany k)) hlow hhigh hroot

/-! ## The entries GEN records -/

theorem CodeEntry.inRange_absent : CodeEntry.absent.InRange := ⟨Nat.zero_le _, Nat.zero_le _, fun _ => rfl⟩

/-- Recorded from a cleared table, an entry is absent or holds one of the codes (R151, R155). -/
theorem recordAll_inRange {ps : List (Symbol × List Bool)} (hn : (ps.map Prod.fst).Nodup) {m : Memory}
    (hm : m.wf = true) (hbits : pathBits ps ≤ 32895) (hlen : ∀ b xs, (b, xs) ∈ ps → xs.length ≤ 255) (b : Symbol) :
    ((CodeGen.recordAll { table := clearedTable, buf := m, cur := 0 } ps).table[b.toNat]'b.isLt).InRange := by
  obtain ⟨hkeep, hrec⟩ := recordAll_spec ps hn { table := clearedTable, buf := m, cur := 0 } hm
  by_cases hb : b ∈ ps.map Prod.fst
  · obtain ⟨⟨_, xs⟩, hmem, rfl⟩ := List.mem_map.1 hb
    obtain ⟨off, _, hoff, e, _⟩ := hrec _ xs hmem
    simp only [recordAll_cur, Nat.zero_add] at hoff
    rw [e]
    exact ⟨hlen _ xs hmem, (by omega : off ≤ 32895), fun hv => absurd hv (by simp)⟩
  · rw [hkeep b hb]
    simpa [clearedTable] using CodeEntry.inRange_absent

theorem execGen_keepsBasicInv {s t : State} (h : s.BasicInv) (htree : s.treeValid = true → s.TreeOk)
    (ht : execGen s = .next t) : t.BasicInv := by
  unfold execGen at ht
  split at ht
  · next hv =>
    obtain ⟨r, _, hwalk, hnodup, hbits, hmem⟩ := (htree hv).genWalk
    simp only [hwalk] at ht
    refine State.BasicInv.of_finish ?_ ht
    refine h.withCodes hv (fun b => ?_) ?_ ?_ ?_
    · refine recordAll_inRange hnodup h.buffers.codebuf hbits (fun c xs hc => ?_) b
      exact ((htree hv).depth xs c ((hmem c xs).1 hc).1).2
    · rw [recordAll_buf]
      exact Memory.wf_writeBits _ _ h.buffers.codebuf
    · rw [recordAll_buf]
      refine Memory.below_writeBits (k := 0) _ ?_ h.buffers.codebufSize
      rw [length_flatMap_paths, Config.codeBits]
      omega
    · simp only [recordAll_cur, Nat.zero_add]
      exact le_trans hbits (by decide)
  · exact h.of_raise ht

/-! ## The other commands that can raise -/

theorem execFacc_keepsBasicInv {b : Symbol} {s t : State} (h : s.BasicInv) (ht : execFacc b s = .next t) :
    t.BasicInv := by
  unfold execFacc at ht
  split at ht
  · exact h.of_raise ht
  · next hmax =>
    refine State.BasicInv.of_finish (h.withFreq fun c => ?_) ht
    change (s.setFreq b (s.freqAt b + 1)).freqAt c < _
    rw [State.freqAt_setFreq]
    have hb := h.counters.freq b
    split
    · omega
    · exact h.counters.freq c

theorem execSwbits_keepsBasicInv {k : BitVec 5} {v : BitVec 16} {s t : State} (h : s.BasicInv)
    (ht : execSwbits k v s = .next t) : t.BasicInv := by
  unfold execSwbits at ht
  split at ht
  · exact h.of_raise ht
  · next hfit => exact (h.streamWriteBits (by rw [length_swbitsBits]; omega)).of_finish ht

theorem execSrbit_keepsBasicInv {s t : State} (h : s.BasicInv) (ht : execSrbit s = .next t) : t.BasicInv := by
  unfold execSrbit at ht
  split at ht
  · exact h.of_raise ht
  · next hcur =>
    refine State.BasicInv.of_finish (s := s.streamAdvance) ?_ ht
    exact h.withStream (by omega) h.cursors.written h.buffers.stream h.buffers.streamSize

theorem execEnc_keepsBasicInv {b : Symbol} {s t : State} (h : s.BasicInv) (ht : execEnc b s = .next t) :
    t.BasicInv := by
  unfold execEnc at ht
  split at ht
  · split at ht
    · split at ht
      · exact h.of_raise ht
      · next hfit => exact (h.streamWriteBits (by rw [State.length_codeBitsOf]; omega)).of_finish ht
    · exact h.of_raise ht
  · exact h.of_raise ht

theorem execDsym_keepsBasicInv {s t : State} (h : s.BasicInv) (ht : execDsym s = .next t) : t.BasicInv := by
  unfold execDsym at ht
  split at ht
  · split at ht
    · next b cur hd =>
      obtain ⟨xs, _, _, _, rfl, hle⟩ := State.decodeOne_symbol_inv hd
      refine State.BasicInv.of_finish ?_ ht
      exact h.withStream hle h.cursors.written h.buffers.stream h.buffers.streamSize
    · exact h.of_raise ht
    · exact absurd ht (by simp)
  · exact h.of_raise ht

theorem execDrun_keepsBasicInv {n : BitVec 24} {s t : State} (h : s.BasicInv) (ht : execDrun n s = .next t) :
    t.BasicInv := by
  unfold execDrun at ht
  split at ht
  · obtain ⟨c, bs, e, _, hb, rfl⟩ := drunLoop_next _ _ ht
    exact (h.emitAll hb).complete c _
  · exact h.of_raise ht

theorem execDsent_keepsBasicInv {s t : State} (h : s.BasicInv) (ht : execDsent s = .next t) : t.BasicInv := by
  unfold execDsent at ht
  split at ht
  · obtain ⟨c, bs, e, _, hb, rfl⟩ := dsentLoop_next _ _ ht
    exact (h.emitAll hb).complete c _
  · exact h.of_raise ht

/-! ## Every command, every step -/

/-- Every command keeps the basic invariant; GEN's codes fit because the arena holds a tree (R153, R160). -/
theorem exec_keepsBasicInv {i : Instr} {s t : State} (h : s.BasicInv) (htree : s.treeValid = true → s.TreeOk)
    (ht : exec i s = .next t) : t.BasicInv := by
  cases i with
  | nop => exact h.of_finish ht
  | freset =>
    exact State.BasicInv.of_finish (h.withFreq (freq := Vector.replicate 256 0) fun b => by simp) ht
  | facc b => exact execFacc_keepsBasicInv h ht
  | build => exact execBuild_keepsBasicInv h ht
  | gen => exact execGen_keepsBasicInv h htree ht
  | sreset =>
    exact (h.withStream (Nat.zero_le _) h.cursors.written h.buffers.stream h.buffers.streamSize).of_finish ht
  | sclear =>
    exact (h.withStream (le_refl 0) (Nat.zero_le _) h.buffers.stream h.buffers.streamSize).of_finish ht
  | swbits k v => exact execSwbits_keepsBasicInv h ht
  | srbit => exact execSrbit_keepsBasicInv h ht
  | enc b => exact execEnc_keepsBasicInv h ht
  | dsym => exact execDsym_keepsBasicInv h ht
  | drun n => exact execDrun_keepsBasicInv h ht
  | dsent => exact execDsent_keepsBasicInv h ht
  | oclear =>
    exact (h.withOutput h.cursors.cursor (Nat.zero_le _) h.buffers.outbuf h.buffers.outbufSize).of_finish ht
  | clrerr => exact (h.withControl s.cmd s.pending s.last s.result (sticky := 0#32) s.port BitVec.zero_and).of_finish ht
  | srst =>
    obtain rfl := Host.Outcome.next.inj ht
    exact (State.basicInv_resetWith h.params).withControl _ s.pending _ _ s.port BitVec.zero_and

/-- Settles O55, by the cases of `step_next`: a command keeps the basic invariant by `exec_keepsBasicInv`, and the
other accesses write control elements alone or reset the block. -/
theorem stepKeepsBasicInv : Obligations.StepKeepsBasicInv := by
  intro s t h hstep
  cases step_next hstep with
  | idle ht => exact ht ▸ h.basic
  | answer rest w ht => exact ht ▸ (h.basic.take rest).answer w
  | poll rest ht => exact ht ▸ (h.basic.take rest).poll
  | reset rest ht => exact ht ▸ (h.basic.take rest).hardwareReset
  | command rest w i _ ht =>
    have htree : ((s.take rest).issue w).treeValid = true → ((s.take rest).issue w).TreeOk :=
      fun hv => (h.tree hv).congr rfl rfl rfl rfl
    exact exec_keepsBasicInv ((h.basic.take rest).issue w) htree ht
  | illegal rest w _ _ ht => exact ht ▸ ((h.basic.take rest).issue w).complete .illegalCommand 0

/-- Settles O5: the write is issued, and the word it issues decodes. -/
theorem stepRunsDecodedCommand : Obligations.StepRunsDecodedCommand := by
  intro s w i rest hp hd hr
  rw [step_issue hp hr, runCommand_of_decode hd]
  rfl

/-- Settles O52: the basic invariant holds at reset, where TREE_VALID and CODES_VALID are 0. -/
theorem resetMeetsInv : Obligations.ResetMeetsInv := by
  intro p hp
  exact
    { basic := State.basicInv_resetWith hp
      tree := fun hv => absurd hv (by simp [State.resetWith])
      codes := fun hv => absurd hv (by simp [State.resetWith]) }


end Sys2Proof.Machine
end

section
/-! Every step keeps the flag rule (O54), the tree (O56) and the codes (O57), because it either keeps the tree and the
code table, or drops them, or is a BUILD or a GEN; CODE_FILL is the sum of the code lengths (O33). -/

namespace Sys2Proof.Machine

/-! ## The elements the tree and the codes stand in -/

/-- FREQ and everything BUILD writes but CODES_VALID. -/
structure TreeData where
  valid : Bool
  degen : Bool
  freq : Vector Nat 256
  arena : Arena
  root : Option (Fin 511)
  nextFree : Nat

/-- Everything GEN writes. -/
structure CodeData where
  valid : Bool
  table : Vector CodeEntry 256
  bits : Memory
  fill : Nat

/-- The tree of a state, with its flags and the counts it is built from (R23 to R28, R35, R37). -/
def State.treeData (s : State) : TreeData :=
  { valid := s.treeValid, degen := s.degen, freq := s.freq, arena := s.arena, root := s.root, nextFree := s.nextFree }

/-- The code table of a state, with its flag and its bits (R36, R42, R43). -/
def State.codeData (s : State) : CodeData :=
  { valid := s.codesValid, table := s.codeTable, bits := s.codebuf, fill := s.codeFill }

section
variable {s t : State}

theorem State.treeValid_of_treeData (e : t.treeData = s.treeData) : t.treeValid = s.treeValid :=
  congrArg TreeData.valid e

theorem State.degen_of_treeData (e : t.treeData = s.treeData) : t.degen = s.degen :=
  congrArg TreeData.degen e

theorem State.codesValid_of_codeData (e : t.codeData = s.codeData) : t.codesValid = s.codesValid :=
  congrArg CodeData.valid e

theorem State.TreeOk.of_treeData (h : s.TreeOk) (e : t.treeData = s.treeData) : t.TreeOk :=
  h.congr (congrArg TreeData.arena e) (congrArg TreeData.root e) (congrArg TreeData.nextFree e)
    (congrArg TreeData.freq e)

theorem State.CodesOk.of_treeData_codeData (h : s.CodesOk) (e : t.treeData = s.treeData)
    (e' : t.codeData = s.codeData) : t.CodesOk :=
  h.congr (congrArg TreeData.arena e) (congrArg TreeData.root e) (congrArg TreeData.freq e)
    (congrArg CodeData.table e') (congrArg CodeData.bits e') (congrArg CodeData.fill e')

theorem State.genWalk_of_data (e : t.treeData = s.treeData) (e' : t.codeData = s.codeData) :
    t.genWalk = s.genWalk := by
  have harena : t.arena = s.arena := congrArg TreeData.arena e
  have hroot : t.root = s.root := congrArg TreeData.root e
  have hbits : t.codebuf = s.codebuf := congrArg CodeData.bits e'
  simp only [State.genWalk, harena, hroot, hbits]

end

/-! ## What a command does to them -/

/-- What a command or a step from `s` has made of the tree and the codes in `t`. -/
inductive DataNext (s t : State) : Prop where
  /-- Neither is touched. -/
  | kept (htree : t.treeData = s.treeData) (hcodes : t.codeData = s.codeData)
  /-- FREQ has changed, BUILD has failed, or the block is reset (R35 to R37). -/
  | dropped (htree : t.treeValid = false) (hcodes : t.codesValid = false) (hdegen : t.degen = false)
  /-- BUILD has completed (R137). -/
  | built (hvalid : t.treeValid = true) (htree : t.TreeOk) (hcodes : t.codesValid = false)
  /-- GEN has completed (R150). -/
  | generated (g : CodeGen) (hvalid : s.treeValid = true) (hwalk : s.genWalk = .done g)
      (htree : t.treeData = s.treeData)
      (hcodes : t.codeData = { valid := true, table := g.table, bits := g.buf, fill := g.cur })
  /-- GEN has run out of room (R153). -/
  | full (htree : t.treeData = s.treeData) (hcodes : t.codesValid = false)

namespace DataNext
variable {s u t : State}

/-- A state with the same tree and codes may stand in for the one a step began in. -/
theorem after_kept (h : DataNext u t) (htree : u.treeData = s.treeData) (hcodes : u.codeData = s.codeData) :
    DataNext s t := by
  cases h with
  | kept ht hc => exact .kept (ht.trans htree) (hc.trans hcodes)
  | dropped ht hc hd => exact .dropped ht hc hd
  | built hv ht hc => exact .built hv ht hc
  | generated g hv hw ht hc =>
    exact .generated g (State.treeValid_of_treeData htree ▸ hv) (State.genWalk_of_data htree hcodes ▸ hw)
      (ht.trans htree) hc
  | full ht hc => exact .full (ht.trans htree) hc

/-- The completion of a command writes neither the tree nor the codes (R232). -/
theorem complete (h : DataNext s u) (c : ResultCode) (r : Nat) : DataNext s (u.complete c r) := by
  cases h with
  | kept ht hc => exact .kept ht hc
  | dropped ht hc hd => exact .dropped ht hc hd
  | built hv ht hc => exact .built hv (ht.of_treeData rfl) hc
  | generated g hv hw ht hc => exact .generated g hv hw ht hc
  | full ht hc => exact .full ht hc

theorem of_finish {r : Nat} (ht : finish u r = .next t) (h : DataNext s u) : DataNext s t :=
  finish_next ht ▸ h.complete .ok r

theorem of_raise {c : ResultCode} {r : Nat} (ht : raise u c r = .next t) (h : DataNext s u) : DataNext s t :=
  raise_next ht ▸ h.complete c r

end DataNext

section
variable {s t : State}

theorem DataNext.streamWriteBits (s : State) (xs : List Bool) : DataNext s (s.streamWriteBits xs) := by
  obtain ⟨m, k, w, e⟩ := streamWriteBits_frame s xs
  exact e ▸ .kept rfl rfl

theorem execFacc_dataNext {b : Symbol} (ht : execFacc b s = .next t) : DataNext s t := by
  unfold execFacc at ht
  split at ht
  · exact DataNext.of_raise ht (.kept rfl rfl)
  · exact DataNext.of_finish ht (.dropped rfl rfl rfl)

/-- BUILD drops the tree or leaves the tree of FREQ (R135 to R137). -/
theorem execBuild_dataNext (ht : execBuild s = .next t) : DataNext s t := by
  rcases hn : countNonzero s.freq with _ | _ | n
  · rw [execBuild_none hn] at ht
    exact DataNext.of_raise ht (.dropped rfl rfl rfl)
  · obtain ⟨b, _, hothers, e⟩ := execBuild_one hn
    rw [e] at ht
    exact DataNext.of_finish ht (.built rfl (State.buildSingle_treeOk hothers) rfl)
  · have hmany : 2 ≤ countNonzero s.freq := by omega
    rw [execBuild_many hmany] at ht
    exact DataNext.of_finish ht (.built rfl (s.buildMerged_treeOk hmany) rfl)

theorem execGen_dataNext (ht : execGen s = .next t) : DataNext s t := by
  unfold execGen at ht
  split at ht
  · next hv =>
    split at ht
    · next g hg => exact DataNext.of_finish ht (.generated g hv hg rfl rfl)
    · exact DataNext.of_raise ht (.full rfl rfl)
    · exact absurd ht (by simp)
  · exact DataNext.of_raise ht (.kept rfl rfl)

theorem execSwbits_dataNext {k : BitVec 5} {v : BitVec 16} (ht : execSwbits k v s = .next t) : DataNext s t := by
  unfold execSwbits at ht
  split at ht
  · exact DataNext.of_raise ht (.kept rfl rfl)
  · exact DataNext.of_finish ht (.streamWriteBits s _)

theorem execSrbit_dataNext (ht : execSrbit s = .next t) : DataNext s t := by
  unfold execSrbit at ht
  split at ht
  · exact DataNext.of_raise ht (.kept rfl rfl)
  · exact DataNext.of_finish ht (.kept rfl rfl)

theorem execEnc_dataNext {b : Symbol} (ht : execEnc b s = .next t) : DataNext s t := by
  unfold execEnc at ht
  split at ht
  · split at ht
    · split at ht
      · exact DataNext.of_raise ht (.kept rfl rfl)
      · exact DataNext.of_finish ht (.streamWriteBits s _)
    · exact DataNext.of_raise ht (.kept rfl rfl)
  · exact DataNext.of_raise ht (.kept rfl rfl)

theorem execDsym_dataNext (ht : execDsym s = .next t) : DataNext s t := by
  unfold execDsym at ht
  split at ht
  · split at ht
    · exact DataNext.of_finish ht (.kept rfl rfl)
    · exact DataNext.of_raise ht (.kept rfl rfl)
    · exact absurd ht (by simp)
  · exact DataNext.of_raise ht (.kept rfl rfl)

theorem execDrun_dataNext {n : BitVec 24} (ht : execDrun n s = .next t) : DataNext s t := by
  unfold execDrun at ht
  split at ht
  · obtain ⟨c, bs, e, _, _, rfl⟩ := drunLoop_next _ _ ht
    exact .kept rfl rfl
  · exact DataNext.of_raise ht (.kept rfl rfl)

theorem execDsent_dataNext (ht : execDsent s = .next t) : DataNext s t := by
  unfold execDsent at ht
  split at ht
  · obtain ⟨c, bs, e, _, _, rfl⟩ := dsentLoop_next _ _ ht
    exact .kept rfl rfl
  · exact DataNext.of_raise ht (.kept rfl rfl)

/-- Every command keeps the tree and the codes, drops them, or is a BUILD or a GEN (R35 to R38). -/
theorem exec_dataNext {i : Instr} (ht : exec i s = .next t) : DataNext s t := by
  cases i with
  | nop => exact DataNext.of_finish ht (.kept rfl rfl)
  | freset => exact DataNext.of_finish ht (.dropped rfl rfl rfl)
  | facc b => exact execFacc_dataNext ht
  | build => exact execBuild_dataNext ht
  | gen => exact execGen_dataNext ht
  | sreset => exact DataNext.of_finish ht (.kept rfl rfl)
  | sclear => exact DataNext.of_finish ht (.kept rfl rfl)
  | swbits k v => exact execSwbits_dataNext ht
  | srbit => exact execSrbit_dataNext ht
  | enc b => exact execEnc_dataNext ht
  | dsym => exact execDsym_dataNext ht
  | drun n => exact execDrun_dataNext ht
  | dsent => exact execDsent_dataNext ht
  | oclear => exact DataNext.of_finish ht (.kept rfl rfl)
  | clrerr => exact DataNext.of_finish ht (.kept rfl rfl)
  | srst =>
    obtain rfl := Host.Outcome.next.inj ht
    exact .dropped rfl rfl rfl

/-! ## What a step does to them -/

theorem DataNext.poll (s : State) : DataNext s s.poll := by
  unfold State.poll
  split
  · exact .kept rfl rfl
  · exact .kept rfl rfl

/-- A step does to the tree and the codes what the command it runs does; the resets drop them (R224, R262). -/
theorem step_dataNext (h : step s = .next t) : DataNext s t := by
  cases step_next h with
  | idle ht => exact ht ▸ .kept rfl rfl
  | answer rest w ht => exact ht ▸ .kept rfl rfl
  | poll rest ht => exact ht ▸ (DataNext.poll (s.take rest)).after_kept rfl rfl
  | reset rest ht => exact ht ▸ .dropped rfl rfl rfl
  | command rest w i _ ht => exact (exec_dataNext ht).after_kept rfl rfl
  | illegal rest w _ _ ht => exact ht ▸ .kept rfl rfl

/-! ## What GEN's walk leaves for each symbol -/

/-- On a tree GEN leaves an uncounted symbol's entry absent, and a counted symbol's path in CODEBUF, with an entry that
says where (R151, R155, R157). -/
theorem State.TreeOk.genWalk_entry {g : CodeGen} (h : s.TreeOk) (hwf : s.codebuf.wf = true)
    (hg : s.genWalk = .done g) (b : Symbol) :
    (s.freqAt b = 0 ∧ g.table[b.toNat]'b.isLt = CodeEntry.absent) ∨
      ∃ xs off, s.freqAt b ≠ 0 ∧ s.leadsTo xs b ∧
        g.table[b.toNat]'b.isLt = { valid := true, len := xs.length, off := off } ∧
        off + xs.length ≤ g.cur ∧ g.buf.readBits off xs.length = xs := by
  obtain ⟨r, _, hwalk, hnodup, _, hmem⟩ := h.genWalk
  obtain rfl := GenOutcome.done.inj (hg.symm.trans hwalk)
  obtain ⟨hkeep, hrec⟩ := recordAll_spec _ hnodup { table := clearedTable, buf := s.codebuf, cur := 0 } hwf
  by_cases hb : b ∈ (s.genCodes r).map Prod.fst
  · obtain ⟨⟨_, xs⟩, hcode, rfl⟩ := List.mem_map.1 hb
    obtain ⟨hleads, hfreq⟩ := (hmem _ xs).1 hcode
    obtain ⟨off, _, hend, hentry, hbits⟩ := hrec _ xs hcode
    exact .inr ⟨xs, off, hfreq, hleads, hentry, hend, hbits⟩
  · have hfreq : s.freqAt b = 0 := by
      by_contra hne
      obtain ⟨xs, hleads⟩ := h.reach b hne
      exact hb (List.mem_map.2 ⟨(b, xs), (hmem b xs).2 ⟨hleads, hne⟩, rfl⟩)
    refine .inl ⟨hfreq, ?_⟩
    rw [hkeep b hb]
    simp [clearedTable]

/-- The code table of a GEN that completes on a tree (R151, R157). -/
theorem State.TreeOk.codesOk_of_genWalk {g : CodeGen} (h : s.TreeOk) (hwf : s.codebuf.wf = true)
    (hg : s.genWalk = .done g) (htree : t.treeData = s.treeData)
    (hcodes : t.codeData = { valid := true, table := g.table, bits := g.buf, fill := g.cur }) : t.CodesOk := by
  have hfreq : ∀ b, t.freqAt b = s.freqAt b := State.freqAt_congr (congrArg TreeData.freq htree)
  have hleads := State.leadsTo_congr (congrArg TreeData.arena htree) (congrArg TreeData.root htree)
  have htable : t.codeTable = g.table := congrArg CodeData.table hcodes
  have hbuf : t.codebuf = g.buf := congrArg CodeData.bits hcodes
  have hfill : t.codeFill = g.cur := congrArg CodeData.fill hcodes
  have hentry : ∀ b, t.codeAt b = g.table[b.toNat]'b.isLt := fun b => by simp only [State.codeAt, htable]
  refine ⟨fun b => ?_, fun b hv => ?_, fun b hv => ?_⟩ <;>
    rcases h.genWalk_entry hwf hg b with ⟨hzero, habsent⟩ | ⟨xs, off, hne, hpath, hrec, hend, hbits⟩
  · simp [hentry, hfreq, habsent, hzero, CodeEntry.absent]
  · simp [hentry, hfreq, hrec, hne]
  · simp [hentry, habsent, CodeEntry.absent] at hv
  · simpa [hentry, hrec, hfill] using hend
  · simp [hentry, habsent, CodeEntry.absent] at hv
  · rw [hleads, State.codeBitsOf, hentry, hrec, hbuf, hbits]
    exact hpath

end

/-! ## The invariants along a step -/

/-- Settles O54, by the cases of `step_dataNext`: TREE_VALID is never cleared without CODES_VALID and DEGEN, and GEN
needs it. -/
theorem stepKeepsFlags : Obligations.StepKeepsFlags := by
  intro s t h hstep
  obtain ⟨hcodesValid, hdegenValid⟩ := h
  have hdegenKept : t.treeData = s.treeData → t.degen = true → t.treeValid = true := fun e hd => by
    rw [State.degen_of_treeData e] at hd
    exact (State.treeValid_of_treeData e).trans (hdegenValid hd)
  cases step_dataNext hstep with
  | kept ht hc =>
    refine ⟨fun hv => ?_, hdegenKept ht⟩
    rw [State.codesValid_of_codeData hc] at hv
    exact (State.treeValid_of_treeData ht).trans (hcodesValid hv)
  | dropped _ hc hd => exact ⟨fun hv => absurd hv (by simp [hc]), fun hv => absurd hv (by simp [hd])⟩
  | built hv => exact ⟨fun _ => hv, fun _ => hv⟩
  | generated g hv _ ht => exact ⟨fun _ => (State.treeValid_of_treeData ht).trans hv, hdegenKept ht⟩
  | full ht hc => exact ⟨fun hv => absurd hv (by simp [hc]), hdegenKept ht⟩

/-- Settles O56, by the cases of `step_dataNext`: only BUILD makes a tree valid, and every other step keeps the arena,
ROOT, NEXT_FREE and FREQ or clears TREE_VALID. -/
theorem stepKeepsTree : Obligations.StepKeepsTree := by
  intro s t h hstep hvalid
  have hkept : t.treeData = s.treeData → t.TreeOk := fun e =>
    (h ((State.treeValid_of_treeData e).symm.trans hvalid)).of_treeData e
  cases step_dataNext hstep with
  | kept ht => exact hkept ht
  | dropped ht => exact absurd hvalid (by simp [ht])
  | built _ ht => exact ht
  | generated _ _ _ ht => exact hkept ht
  | full ht => exact hkept ht

/-- Settles O57, by the cases of `step_dataNext`: only GEN on a tree makes the codes valid, and every other step keeps
the tree with its codes or clears CODES_VALID. -/
theorem stepKeepsCodes : Obligations.StepKeepsCodes := by
  intro s t h hstep hvalid
  cases step_dataNext hstep with
  | kept ht hc =>
    have hv : s.codesValid = true := (State.codesValid_of_codeData hc).symm.trans hvalid
    exact (h.codes hv).of_treeData_codeData ht hc
  | dropped _ hc => exact absurd hvalid (by simp [hc])
  | built _ _ hc => exact absurd hvalid (by simp [hc])
  | generated g hv hw ht hc => exact (h.tree hv).codesOk_of_genWalk h.basic.buffers.codebuf hw ht hc
  | full _ hc => exact absurd hvalid (by simp [hc])

/-- Settles O33: GEN records the codes one after another from offset 0, in a table that it has cleared. -/
theorem codeFillIsSumOfLengths : Obligations.CodeFillIsSumOfLengths := by
  intro s t h _ hgen hok
  obtain ⟨r, g, _, hroot, hvisit, rfl⟩ := execGen_ok hgen hok
  obtain ⟨r', hroot', hwalk, hnodup, _, _⟩ := h.genWalk
  have hg : s.genWalk = .done g := by simp only [State.genWalk, hroot, hvisit]
  obtain rfl := GenOutcome.done.inj (hg.symm.trans hwalk)
  have hlens := recordAll_lens (s.genCodes r') hnodup { table := clearedTable, buf := s.codebuf, cur := 0 }
    fun b _ => by simp [clearedTable, CodeEntry.absent]
  have hcleared : (clearedTable.toList.map CodeEntry.len).sum = 0 := by
    rw [clearedTable, Vector.toList_replicate, List.map_replicate, List.sum_replicate]
    rfl
  rw [State.complete_codeFill, State.complete_codeTable, recordAll_cur, hlens, hcleared]

end Sys2Proof.Machine
end

section
/-! A command's end and STICKY (O49), the parameters (O53), the register words (O11), the STATUS word (O12) and the
reset state (O18). -/

namespace Sys2Proof.Machine

/-! ## Completion and parameters -/

theorem ResultCode.stickyBit_eq (c : ResultCode) :
    c.stickyBit = if c.code = 0 then 0#32 else 1#32 <<< c.code := by
  cases c <;> rfl

/-- Settles O49: every next state of `exec_next` is a completion, which sets the STICKY bit of its code. -/
theorem completionBookkeeping : Obligations.CompletionBookkeeping := by
  intro i s t hi h
  obtain ⟨u, c, r, rfl, _, hu, _⟩ := exec_next hi h
  rw [State.complete_sticky, State.complete_last, hu.sticky, ResultCode.stickyBit_eq]

theorem State.poll_params (s : State) : s.poll.params = s.params := by
  unfold State.poll
  split <;> rfl

/-- Settles O53: no host access and no command writes the parameters, and the resets take them over. -/
theorem parametersAreConstant : Obligations.ParametersAreConstant := by
  intro s t h
  cases step_next h with
  | idle ht => rw [ht]
  | answer rest w ht => rw [ht, State.answer_params, State.take_params]
  | poll rest ht => rw [ht, State.poll_params, State.take_params]
  | reset rest ht => rw [ht]; rfl
  | command rest w i _ ht => rw [(exec_port ht).1, State.issue_params, State.take_params]
  | illegal rest w _ _ ht => rw [ht, State.complete_params, State.issue_params, State.take_params]

/-! ## Register words -/

/-- A register field shows its register's value where that fits in the field (R62). -/
theorem fieldWord_eq {w n : Nat} (hn : n < 2 ^ w) : fieldWord w n = BitVec.ofNat 32 n := by
  apply BitVec.eq_of_toNat_eq
  rw [fieldWord, BitVec.toNat_setWidth, BitVec.toNat_ofNat, BitVec.toNat_ofNat, Nat.mod_eq_of_lt hn]

/-- A register whose value fits in its field of `w` bits is read whole (R62). -/
theorem State.reads_field {s : State} {o w n : Nat} (hn : n < 2 ^ w) (ha : o % 4 = 0)
    (ho : o < 0x1000000) (h : { s with pending := false }.mapWord o = .ok (fieldWord w n)) :
    s.Reads o (BitVec.ofNat 32 n) :=
  fieldWord_eq hn ▸ State.reads_of_mapWord ha ho h

/-- Settles O11: each offset of R62 selects its register's word, and the ranges make the fields wide enough. -/
theorem registerWords : Obligations.RegisterWords := by
  intro s hparams hcursors hregs
  obtain ⟨_, hcntW, _, hstream, _, hout, _⟩ := hparams
  obtain ⟨hcur, hlen, hcount⟩ := hcursors
  have hnext := hregs.nextFreeHigh
  have hfill : s.codeFill ≤ 32896 := hregs.codeFill
  have hroot : s.Reads 0x24 ((linkBits s.root).setWidth 32) := State.reads_of_mapWord rfl (by decide) rfl
  refine ⟨?_, ?_, ?_, ?_, ?_, ?_, ?_, ?_, ?_, ?_, ?_, ?_, ?_, ?_⟩
  · exact State.reads_of_mapWord rfl (by decide) rfl
  · exact State.reads_field (w := 5) (by omega) rfl (by decide) rfl
  · exact State.reads_of_mapWord rfl (by decide) rfl
  · exact State.reads_of_mapWord rfl (by decide) rfl
  · exact State.reads_of_mapWord rfl (by decide) rfl
  · exact State.reads_of_mapWord rfl (by decide) rfl
  · exact State.reads_of_mapWord rfl (by decide) rfl
  · exact State.reads_field (w := 10) (by omega) rfl (by decide) rfl
  · intro hr
    rw [hr] at hroot
    exact hroot
  · intro r hr
    have hlt := r.isLt
    rw [hr] at hroot
    rw [← fieldWord_eq (w := 9) (n := r.val) (by omega)]
    exact hroot
  · exact State.reads_field (w := 16) (by omega) rfl (by decide) rfl
  · exact State.reads_field (w := 24) (by omega) rfl (by decide) rfl
  · exact State.reads_field (w := 24) (by omega) rfl (by decide) rfl
  · exact State.reads_field (w := 21) (by omega) rfl (by decide) rfl

/-! ## The STATUS word and the reset state -/

/-- Above its four flags the STATUS word holds LAST between reserved bits (R34). -/
theorem State.extractLsb'_statusWord (s : State) (k len : Nat) :
    s.statusWord.extractLsb' (k + 4) len = (0#20 ++ BitVec.ofNat 4 s.last.code ++ 0#4).extractLsb' k len := by
  rw [State.statusWord, BitVec.extractLsb'_append_eq_of_le (by omega), BitVec.extractLsb'_append_eq_of_le (by omega),
    BitVec.extractLsb'_append_eq_of_le (by omega), BitVec.extractLsb'_append_eq_of_le (by omega)]
  rfl

/-- Once no command is pending, the STATUS word shows the fields of R34. -/
theorem State.statusShows_statusWord (s : State) : s.StatusShows { s with pending := false }.statusWord where
  busy := by simp only [State.statusWord, BitVec.getLsbD_append]; simp
  treeValid := by simp only [State.statusWord, BitVec.getLsbD_append]; simp
  codesValid := by simp only [State.statusWord, BitVec.getLsbD_append]; simp
  degen := by simp only [State.statusWord, BitVec.getLsbD_append]; simp
  reservedLow := by
    rw [State.extractLsb'_statusWord _ 0]
    exact BitVec.extractLsb'_append_eq_right
  last := by
    rw [State.extractLsb'_statusWord _ 4, BitVec.extractLsb'_append_eq_of_le (by decide)]
    exact BitVec.extractLsb'_append_eq_right
  reservedHigh := by
    rw [State.extractLsb'_statusWord _ 8, BitVec.extractLsb'_append_eq_of_le (by decide)]
    exact BitVec.extractLsb'_append_eq_left

/-- Settles O12: with no command pending a read at 0x14 answers the STATUS word. -/
theorem statusFields : Obligations.StatusFields := by
  intro s
  exact ⟨_, State.reads_of_mapWord rfl (by decide) rfl, s.statusShows_statusWord⟩

theorem Memory.readBit_nil (k : Nat) : Memory.readBit [] k = false := by
  simp [Memory.readBit, Memory.read, unlistedByte]

/-- Settles O18: the reset state is written out, and its tables repeat one value. -/
theorem resetStateValues : Obligations.ResetStateValues := by
  intro p s hs
  subst hs
  refine ⟨rfl, rfl, rfl, rfl, rfl, rfl, rfl, rfl, rfl, rfl, rfl, rfl, rfl, rfl, ?_, ?_, ?_, ?_, ?_, ?_⟩
  · intro b
    simp [State.resetWith, State.freqAt]
  · intro i
    simp [State.resetWith, Node.empty, Node.left, Node.right]
  · intro b
    simp [State.resetWith, State.codeAt, CodeEntry.absent]
  · exact Memory.readBit_nil
  · exact Memory.readBit_nil
  · exact fun _ => rfl

end Sys2Proof.Machine
end

section
/-! The accesses the host bus rejects (O9), reads without side effect (O10), and the words of the array windows (O13),
of the bit windows (O14) and of the OUTBUF window (O15). -/

namespace Sys2Proof.Machine

/-! ## The windows of the address map (R62) -/

section
variable (s : State) {k : Nat}

theorem State.mapWord_freq (hk : k < 256) :
    s.mapWord (0x400 + 4 * k) = windowWord s.freq (BitVec.ofNat 32) k := by
  simp (disch := omega) only [State.mapWord, if_neg, if_pos, Nat.add_sub_cancel_left, Nat.mul_div_cancel_left]

theorem State.mapWord_weight (hk : k < 512) :
    s.mapWord (0x800 + 4 * k) = windowWord s.arena (fun nd => BitVec.ofNat 32 nd.weight) k := by
  simp (disch := omega) only [State.mapWord, if_neg, if_pos, Nat.add_sub_cancel_left, Nat.mul_div_cancel_left]

theorem State.mapWord_node (hk : k < 512) : s.mapWord (0x1000 + 4 * k) = windowWord s.arena nodeWord k := by
  simp (disch := omega) only [State.mapWord, if_neg, if_pos, Nat.add_sub_cancel_left, Nat.mul_div_cancel_left]

theorem State.mapWord_code (hk : k < 256) : s.mapWord (0x1800 + 4 * k) = windowWord s.codeTable codeWord k := by
  simp (disch := omega) only [State.mapWord, if_neg, if_pos, Nat.add_sub_cancel_left, Nat.mul_div_cancel_left]

theorem State.mapWord_codebuf (hk : k < 1028) :
    s.mapWord (0x2000 + 4 * k) = .ok (s.codebuf.packedWord Config.codeBits k) := by
  simp (disch := omega) only [State.mapWord, if_neg, if_pos, Nat.add_sub_cancel_left, Nat.mul_div_cancel_left]

theorem State.mapWord_stream (hk : k < 0x40000) : s.mapWord (0x100000 + 4 * k) = s.streamWord k := by
  simp (disch := omega) only [State.mapWord, if_neg, if_pos, Nat.add_sub_cancel_left, Nat.mul_div_cancel_left]

theorem State.mapWord_out (hk : k < 0x40000) : s.mapWord (0x200000 + 4 * k) = s.outWord k := by
  simp (disch := omega) only [State.mapWord, if_neg, if_pos, Nat.add_sub_cancel_left, Nat.mul_div_cancel_left]

end

/-! ## What the map rejects -/

theorem windowWord_reserved {α : Type} {n : Nat} (v : Vector α n) (f : α → Word) (k : Nat) (h : n ≤ k) :
    windowWord v f k = .error .reserved := by
  simp [windowWord, h]

theorem State.registerWord_reserved (s : State) {a : Nat} (h : 0x38 ≤ a) : s.registerWord a = .error .reserved := by
  unfold State.registerWord
  split
  case h_15 => rfl
  all_goals omega

/-- Every aligned offset that R62 reserves, or that lies past a capacity, is rejected. -/
theorem State.mapWord_of_reservedOffset {s : State} {o : Nat} (ha : o % 4 = 0)
    (h : reservedOffset s.params.streamBits s.params.outBytes o) : ∃ e, s.mapWord o = .error e := by
  rcases h with ⟨hlo, hhi⟩ | rfl | rfl | ⟨hlo, hhi⟩ | ⟨hlo, hhi⟩ | ⟨hlo, hhi⟩ | ⟨hlo, hhi⟩ | ⟨hlo, hhi⟩
  · exact ⟨_, by rw [State.mapWord, if_pos hhi, State.registerWord_reserved s hlo]⟩
  · exact ⟨_, (s.mapWord_weight (k := 511) (by decide)).trans (windowWord_reserved _ _ _ (le_refl _))⟩
  · exact ⟨_, (s.mapWord_node (k := 511) (by decide)).trans (windowWord_reserved _ _ _ (le_refl _))⟩
  · exact ⟨.reserved, by simp (disch := omega) only [State.mapWord, if_neg, if_pos]⟩
  · exact ⟨.reserved, by simp (disch := omega) only [State.mapWord, if_neg, if_pos]⟩
  · obtain ⟨k, rfl⟩ : ∃ k, o = 0x100000 + 4 * k := ⟨(o - 0x100000) / 4, by omega⟩
    exact ⟨_, by rw [s.mapWord_stream (by omega), State.streamWord, if_neg (by omega)]⟩
  · obtain ⟨k, rfl⟩ : ∃ k, o = 0x200000 + 4 * k := ⟨(o - 0x200000) / 4, by omega⟩
    exact ⟨_, by rw [s.mapWord_out (by omega), State.outWord, if_neg (by omega)]⟩
  · exact ⟨.reserved, by simp (disch := omega) only [State.mapWord, if_neg]⟩

/-- A read of another size than 4, misaligned, or of a word the map rejects is rejected (R63). -/
theorem State.readAt_error {s : State} {o n : Nat}
    (h : n ≠ 4 ∨ o % 4 ≠ 0 ∨ reservedOffset s.params.streamBits s.params.outBytes o) :
    ∃ e, s.readAt o n = .error e := by
  by_cases hn : n = 4
  · by_cases ha : o % 4 = 0
    · obtain ⟨e, he⟩ := s.mapWord_of_reservedOffset ha ((h.resolve_left (not_not_intro hn)).resolve_left
        (not_not_intro ha))
      exact ⟨e, by rw [State.readAt, if_pos hn, if_pos ha, he]⟩
    · exact ⟨_, by rw [State.readAt, if_pos hn, if_neg ha]⟩
  · exact ⟨_, by rw [State.readAt, if_neg hn]⟩

/-- A write of another size than 4, misaligned or not to CMD is rejected with no command pending (R63, R64). -/
theorem State.writeAction_error {s : State} {a n : Nat} (d : Word) (hw : s.inWindow a = true) (hp : s.pending = false)
    (h : n ≠ 4 ∨ (a - s.params.base) % 4 ≠ 0 ∨ a - s.params.base ≠ cmdOffset) :
    ∃ e, s.writeAction a n d = .fault (.busError e) := by
  simp only [State.writeAction, hw, hp, if_true]
  by_cases hn : n = 4
  · by_cases ha : (a - s.params.base) % 4 = 0
    · have hc := (h.resolve_left (not_not_intro hn)).resolve_left (not_not_intro ha)
      exact ⟨.notWritable, by simp [hn, ha, hc]⟩
    · exact ⟨.misaligned, by simp [hn, ha]⟩
  · exact ⟨.size, by simp [hn]⟩

/-- Settles O9: a read the map rejects and a write that is none of CMD both become faults of the step. -/
theorem busErrorsFault : Obligations.BusErrorsFault := by
  constructor
  · intro s a n rest hp hlo hhi h hr
    obtain ⟨e, he⟩ := State.readAt_error h
    exact ⟨e, step_read_error hr (State.inWindow_iff.2 ⟨hlo, by omega⟩) hp he⟩
  · intro s a n d rest hp hlo hhi h hr
    obtain ⟨e, he⟩ := State.writeAction_error d (State.inWindow_iff.2 ⟨hlo, by omega⟩) hp h
    exact ⟨e, by rw [step_cons hr, State.busAction, he, perform]⟩

/-! ## Reads have no side effect -/

/-- A read that goes on with no command pending is a word of the map, answered (R70). -/
theorem step_read_next {s t : State} {a n : Nat} {rest : List HostAccess} (hp : s.pending = false)
    (hr : s.port.requests = .read a n :: rest) (h : step s = .next t) :
    s.inWindow a = true ∧ ∃ w, s.readAt (a - s.params.base) n = .ok w ∧ t = (s.take rest).answer w := by
  by_cases hw : s.inWindow a = true
  · cases hm : s.readAt (a - s.params.base) n with
    | ok w =>
      rw [step_read_ok hr hw hp hm] at h
      exact ⟨hw, w, rfl, (Host.Outcome.next.inj h).symm⟩
    | error e =>
      rw [step_read_error hr hw hp hm] at h
      exact absurd h (by simp)
  · rw [step_cons hr, State.busAction, State.readAction, if_neg hw] at h
    exact absurd h (by simp [perform])

/-- Settles O10: an answer changes the host's port alone, and the map does not read the port. -/
theorem readsHaveNoSideEffect : Obligations.ReadsHaveNoSideEffect := by
  intro s t a n rest hp hr h
  obtain ⟨hw, w, hm, rfl⟩ := step_read_next hp hr h
  exact ⟨w, rfl, step_read_ok (s := (s.take (.read a n :: rest)).answer w) rfl hw hp hm⟩

/-! ## Fields of the array windows' words -/

theorem nodeWord_consumed (nd : Node) : (nodeWord nd).getLsbD 31 = nd.consumed := by
  simp only [nodeWord, BitVec.getLsbD_append]
  simp

theorem nodeWord_right (nd : Node) : (nodeWord nd).extractLsb' 16 9 = linkBits nd.right := by
  rw [nodeWord, BitVec.extractLsb'_append_eq_of_le (by decide), BitVec.extractLsb'_append_eq_of_le (by decide)]
  exact BitVec.extractLsb'_append_eq_right

theorem nodeWord_left (nd : Node) : (nodeWord nd).extractLsb' 0 9 = linkBits nd.left :=
  BitVec.extractLsb'_append_eq_right

theorem nodeWord_reservedHigh (nd : Node) : (nodeWord nd).extractLsb' 25 6 = 0#6 := by
  rw [nodeWord, BitVec.extractLsb'_append_eq_of_le (by decide), BitVec.extractLsb'_append_eq_of_le (by decide),
    BitVec.extractLsb'_append_eq_of_le (by decide)]
  exact BitVec.extractLsb'_append_eq_right

theorem nodeWord_reservedLow (nd : Node) : (nodeWord nd).extractLsb' 9 7 = 0#7 := by
  rw [nodeWord, BitVec.extractLsb'_append_eq_of_le (by decide)]
  exact BitVec.extractLsb'_append_eq_right

theorem codeWord_valid (e : CodeEntry) : (codeWord e).getLsbD 31 = e.valid := by
  simp only [codeWord, BitVec.getLsbD_append]
  simp

theorem codeWord_reserved (e : CodeEntry) : (codeWord e).extractLsb' 24 7 = 0#7 := by
  rw [codeWord, BitVec.extractLsb'_append_eq_of_le (by decide), BitVec.extractLsb'_append_eq_of_le (by decide)]
  exact BitVec.extractLsb'_append_eq_right

theorem codeWord_len (e : CodeEntry) : (codeWord e).extractLsb' 16 8 = BitVec.ofNat 8 e.len := by
  rw [codeWord, BitVec.extractLsb'_append_eq_of_le (by decide)]
  exact BitVec.extractLsb'_append_eq_right

theorem codeWord_off (e : CodeEntry) : (codeWord e).extractLsb' 0 16 = BitVec.ofNat 16 e.off :=
  BitVec.extractLsb'_append_eq_right

/-- Settles O13: each window's word is its table's entry, and the fields of a NODE and a CT word stand side by side. -/
theorem arrayWindowWords : Obligations.ArrayWindowWords := by
  intro s
  refine ⟨fun b => ?_, fun i => ?_, fun i => ?_, fun b => ?_⟩
  · have hb := b.isLt
    exact State.reads_of_mapWord (by omega) (by omega) ((State.mapWord_freq _ hb).trans (windowWord_ok _ _ _ hb))
  · have hi := i.isLt
    exact State.reads_of_mapWord (by omega) (by omega)
      ((State.mapWord_weight _ (by omega)).trans (windowWord_ok _ _ _ hi))
  · have hi := i.isLt
    exact ⟨nodeWord s.arena[i], State.reads_of_mapWord (by omega) (by omega)
      ((State.mapWord_node _ (by omega)).trans (windowWord_ok _ _ _ hi)), nodeWord_consumed _,
      nodeWord_reservedHigh _, nodeWord_right _, nodeWord_reservedLow _, nodeWord_left _⟩
  · have hb := b.isLt
    exact ⟨codeWord (s.codeAt b), State.reads_of_mapWord (by omega) (by omega)
      ((State.mapWord_code _ hb).trans (windowWord_ok _ _ _ hb)), codeWord_valid _, codeWord_reserved _,
      codeWord_len _, codeWord_off _⟩

/-! ## Words of the STREAM, CODEBUF and OUTBUF windows -/

/-- A STREAM word below the capacity is the buffer's packed word (R62, R66). -/
theorem State.reads_streamWord {s : State} {j : Nat} (hs : s.params.streamBits ≤ 8388608)
    (hj : j < (s.params.streamBits + 31) / 32) :
    s.Reads (0x100000 + 4 * j) (s.stream.packedWord s.params.streamBits j) :=
  State.reads_of_mapWord (by omega) (by omega) ((State.mapWord_stream _ (by omega)).trans (if_pos hj))

/-- An OUTBUF word below the capacity is the buffer's packed word (R62, R67). -/
theorem State.reads_outWord {s : State} {j : Nat} (ho : s.params.outBytes ≤ 1048576)
    (hj : j < (s.params.outBytes + 3) / 4) :
    s.Reads (0x200000 + 4 * j) (s.outbuf.packedWord (8 * s.params.outBytes) j) :=
  State.reads_of_mapWord (by omega) (by omega) ((State.mapWord_out _ (by omega)).trans (if_pos hj))

/-- Settles O14: the packed words hold the bits in stream order; CODEBUF's 1028 words end at its capacity. -/
theorem bitWindowWords : Obligations.BitWindowWords := by
  intro s hparams
  obtain ⟨_, _, _, hstream, _⟩ := hparams
  refine ⟨fun j hj => ?_, fun j hj => ?_⟩
  · exact ⟨_, State.reads_streamWord hstream hj, fun i hi => Memory.packedWord_getLsbD _ _ _ _ hi⟩
  · refine ⟨_, State.reads_of_mapWord (by omega) (by omega) (State.mapWord_codebuf _ hj), fun i hi => ?_⟩
    have hcap : 32 * j + i < Config.codeBits := by
      rw [Config.codeBits]
      omega
    rw [Memory.packedWord_getLsbD _ _ _ _ hi, decide_eq_true hcap, Bool.true_and]

/-- Byte `m` of a packed word, from the top (R67). -/
theorem Memory.packedWord_byte (b : Memory) (cap j : Nat) {m : Nat} (hm : m < 4) :
    (b.packedWord cap j).extractLsb' (24 - 8 * m) 8 = b.cappedByte cap (4 * j + m) := by
  rw [Memory.packedWord]
  match m, hm with
  | 0, _ =>
    rw [BitVec.extractLsb'_append_eq_of_le (by decide), BitVec.extractLsb'_append_eq_of_le (by decide)]
    exact BitVec.extractLsb'_append_eq_left
  | 1, _ =>
    rw [BitVec.extractLsb'_append_eq_of_le (by decide), BitVec.extractLsb'_append_eq_of_le (by decide)]
    exact BitVec.extractLsb'_append_eq_right
  | 2, _ =>
    rw [BitVec.extractLsb'_append_eq_of_le (by decide)]
    exact BitVec.extractLsb'_append_eq_right
  | 3, _ => exact BitVec.extractLsb'_append_eq_right

/-- Settles O15: each byte of the packed word is the buffer's byte where that lies below the capacity. -/
theorem outbufWindowWords : Obligations.OutbufWindowWords := by
  intro s hparams j hj
  obtain ⟨_, _, _, _, _, hout, _⟩ := hparams
  refine ⟨_, State.reads_outWord hout hj, fun m hm => ?_⟩
  rw [Memory.packedWord_byte _ _ _ hm, Memory.cappedByte_bytes]

end Sys2Proof.Machine
end

section
/-! Decoding and encoding undo each other (O1, O2), and a word selects a row of the opcode map by mask and match (O3);
sample words (O4). -/

namespace Sys2Proof.Machine

/-! ## A word is its fields (R91, R92) -/

section
variable (w : Word)

theorem opField_append_operandField : opField w ++ operandField w = w := BitVec.extractLsb'_append_extractLsb'

theorem append_byteFields : opField w ++ upperOperandField w ++ byteField w = w := by
  have htop : opField w ++ upperOperandField w = w.extractLsb' 8 24 :=
    BitVec.extractLsb'_append_extractLsb'_eq_extractLsb' rfl
  rw [htop]
  exact BitVec.extractLsb'_append_extractLsb'

theorem append_bitsFields : opField w ++ topOperandField w ++ countField w ++ valueField w = w := by
  have htop : opField w ++ topOperandField w = w.extractLsb' 21 11 :=
    BitVec.extractLsb'_append_extractLsb'_eq_extractLsb' rfl
  have hcount : w.extractLsb' 21 11 ++ countField w = w.extractLsb' 16 16 :=
    BitVec.extractLsb'_append_extractLsb'_eq_extractLsb' rfl
  rw [htop, hcount]
  exact BitVec.extractLsb'_append_extractLsb'

end

/-! ## The fields of a word written out from them -/

section
variable (op : BitVec 8)

theorem opField_append (n : BitVec 24) : opField (op ++ n) = op := BitVec.extractLsb'_append_eq_left

theorem operandField_append (n : BitVec 24) : operandField (op ++ n) = n := BitVec.extractLsb'_append_eq_right

variable (z : BitVec 16) (b : BitVec 8)

theorem opField_byteWord : opField (op ++ z ++ b) = op := by
  rw [opField, BitVec.extractLsb'_append_eq_of_le (by decide)]
  exact BitVec.extractLsb'_append_eq_left

theorem upperOperandField_byteWord : upperOperandField (op ++ z ++ b) = z := by
  rw [upperOperandField, BitVec.extractLsb'_append_eq_of_le (by decide)]
  exact BitVec.extractLsb'_append_eq_right

theorem byteField_byteWord : byteField (op ++ z ++ b) = b := BitVec.extractLsb'_append_eq_right

variable (y : BitVec 3) (k : BitVec 5) (v : BitVec 16)

theorem opField_bitsWord : opField (op ++ y ++ k ++ v) = op := by
  rw [opField, BitVec.extractLsb'_append_eq_of_le (by decide), BitVec.extractLsb'_append_eq_of_le (by decide)]
  exact BitVec.extractLsb'_append_eq_left

theorem topOperandField_bitsWord : topOperandField (op ++ y ++ k ++ v) = y := by
  rw [topOperandField, BitVec.extractLsb'_append_eq_of_le (by decide), BitVec.extractLsb'_append_eq_of_le (by decide)]
  exact BitVec.extractLsb'_append_eq_right

theorem countField_bitsWord : countField (op ++ y ++ k ++ v) = k := by
  rw [countField, BitVec.extractLsb'_append_eq_of_le (by decide)]
  exact BitVec.extractLsb'_append_eq_right

theorem valueField_bitsWord : valueField (op ++ y ++ k ++ v) = v := BitVec.extractLsb'_append_eq_right

end

/-! ## The operand check of R94 -/

theorem wellFormed_swbits {k : BitVec 5} {v : BitVec 16} :
    (Instr.swbits k v).wellFormed = true ↔ 1 ≤ k.toNat ∧ k.toNat ≤ 16 ∧ v.toNat < 2 ^ k.toNat := by
  simp [Instr.wellFormed, Instr.bitCountOk, Instr.valueFits, and_assoc]

/-- R94 item 3 checks the operands of SWBITS's row alone, as they stand in the command's word. -/
theorem wellFormed_iff (i : Instr) :
    i.wellFormed = true ↔ (opMatch i = 0x32000000#32 →
      1 ≤ (countField (encode i)).toNat ∧ (countField (encode i)).toNat ≤ 16 ∧
        (valueField (encode i)).toNat < 2 ^ (countField (encode i)).toNat) := by
  cases i with
  | swbits k v =>
    rw [wellFormed_swbits, encode, countField_bitsWord, valueField_bitsWord]
    exact ⟨fun h _ => h, fun h => h rfl⟩
  | _ => exact iff_of_true rfl fun h => absurd h (by simp [opMatch])

/-! ## Each format's decoder (R99) -/

theorem decodeByte_append (f : BitVec 8 → Instr) (op b : BitVec 8) :
    decodeByte f (op ++ 0#16 ++ b) = .ok (f b) := by
  rw [decodeByte, if_pos (upperOperandField_byteWord ..), byteField_byteWord]

theorem decodeBits_append (f : BitVec 5 → BitVec 16 → Instr) (op : BitVec 8) {k : BitVec 5} {v : BitVec 16}
    (h : 1 ≤ k.toNat ∧ k.toNat ≤ 16 ∧ v.toNat < 2 ^ k.toNat) :
    decodeBits f (op ++ 0#3 ++ k ++ v) = .ok (f k v) := by
  obtain ⟨hlo, hhi, hv⟩ := h
  rw [decodeBits, if_pos (topOperandField_bitsWord ..), countField_bitsWord, valueField_bitsWord,
    if_pos ⟨hlo, hhi⟩, if_pos hv]

/-- Settles O1: the fields of a command's word are its opcode and its operands, and its row's format decodes them. -/
theorem decodeEncode : Obligations.DecodeEncode := by
  intro i hi
  cases i with
  | facc b =>
    rw [decode, encode, opField_byteWord]
    exact decodeByte_append .facc _ b
  | enc b =>
    rw [decode, encode, opField_byteWord]
    exact decodeByte_append .enc _ b
  | swbits k v =>
    rw [decode, encode, opField_bitsWord]
    exact decodeBits_append .swbits _ (wellFormed_swbits.1 hi)
  | drun n =>
    rw [decode, encode, opField_append, operandField_append]
    rfl
  | _ => rfl -- Format N: the word is closed, and the decoder computes.

/-! ## What a decoded word was (R94, R99) -/

section
variable {w : Word} {op : BitVec 8} {j : Instr}

theorem encode_of_decodeNone {i : Instr} (h : decodeNone i w = .ok j) (hi : i.wellFormed = true)
    (he : encode i = op ++ 0#24) (hop : (opField w).toNat = op.toNat) : j.wellFormed = true ∧ encode j = w := by
  unfold decodeNone at h
  split at h
  · next hz =>
    obtain rfl := Except.ok.inj h
    exact ⟨hi, by rw [he, ← BitVec.eq_of_toNat_eq hop, ← hz, opField_append_operandField]⟩
  · cases h

theorem encode_of_decodeByte {f : BitVec 8 → Instr} (h : decodeByte f w = .ok j) (hf : ∀ b, (f b).wellFormed = true)
    (he : ∀ b, encode (f b) = op ++ 0#16 ++ b) (hop : (opField w).toNat = op.toNat) :
    j.wellFormed = true ∧ encode j = w := by
  unfold decodeByte at h
  split at h
  · next hz =>
    obtain rfl := Except.ok.inj h
    exact ⟨hf _, by rw [he, ← BitVec.eq_of_toNat_eq hop, ← hz, append_byteFields]⟩
  · cases h

theorem encode_of_decodeBits (h : decodeBits .swbits w = .ok j) (hop : (opField w).toNat = (0x32#8).toNat) :
    j.wellFormed = true ∧ encode j = w := by
  unfold decodeBits at h
  split at h
  · next hz =>
    split at h
    · next hk =>
      split at h
      · next hv =>
        obtain rfl := Except.ok.inj h
        exact ⟨wellFormed_swbits.2 ⟨hk.1, hk.2, hv⟩, by
          rw [encode, ← BitVec.eq_of_toNat_eq hop, ← hz, append_bitsFields]⟩
      · cases h
    · cases h
  · cases h

end

/-- Settles O2: the row that the opcode selects answers only for a word that its format's fields make up. -/
theorem decodedWordIsEncoding : Obligations.DecodedWordIsEncoding := by
  intro w i h
  unfold decode at h
  split at h
  -- The rows of R95 in order: first those of format N, then B, K and C, and last the unlisted opcodes.
  case h_1 hop | h_2 hop | h_4 hop | h_5 hop | h_6 hop | h_7 hop | h_9 hop | h_11 hop | h_13 hop | h_14 hop | h_15 hop |
      h_16 hop => exact encode_of_decodeNone h rfl rfl hop
  case h_3 hop | h_10 hop => exact encode_of_decodeByte h (fun _ => rfl) (fun _ => rfl) hop
  case h_8 hop => exact encode_of_decodeBits h hop
  case h_12 hop =>
    obtain rfl := Except.ok.inj h
    have hop : opField w = 0x51#8 := BitVec.eq_of_toNat_eq hop
    exact ⟨rfl, by rw [encode, ← hop, opField_append_operandField]⟩
  case h_17 => cases h

/-! ## Rows by mask and match (R95) -/

/-- R95's mask of the row with a given match. -/
def rowMask (m : Word) : Word :=
  if m = 0x02000000#32 ∨ m = 0x40000000#32 then 0xFFFFFF00#32
  else if m = 0x32000000#32 then 0xFFE00000#32
  else if m = 0x51000000#32 then 0xFF000000#32
  else 0xFFFFFFFF#32

theorem opMask_eq_rowMask (i : Instr) : opMask i = rowMask (opMatch i) := by cases i <;> rfl

theorem encode_and_opMask (i : Instr) : encode i &&& opMask i = opMatch i := by
  cases i with
  | facc b => exact Laws.OpcodeMap.facc b
  | enc b => exact Laws.OpcodeMap.enc b
  | swbits k v => exact Laws.OpcodeMap.swbits k v
  | drun n => exact Laws.OpcodeMap.drun n
  | _ => decide

/-- A word whose bits above the low `n` are `x` is `x` followed by its low `n` bits. -/
theorem append_of_and_mask {m n : Nat} {w : BitVec (m + n)} {x : BitVec m}
    (h : w &&& (BitVec.allOnes m ++ 0#n) = x ++ 0#n) : x ++ w.extractLsb' 0 n = w := by
  have hw : w.extractLsb' n m ++ w.extractLsb' 0 n = w := BitVec.extractLsb'_append_extractLsb'
  have hx : w.extractLsb' n m = x := by
    rwa [← hw, BitVec.and_append, BitVec.and_allOnes, BitVec.and_zero, BitVec.append_left_inj] at h
  rw [← hx, hw]

/-- A word with a row's match under the row's mask is the word of one of the row's commands, legal or not. -/
theorem exists_encode_of_mask {w : Word} {j : Instr} (h : w &&& opMask j = opMatch j) :
    ∃ i, encode i = w ∧ opMatch i = opMatch j := by
  cases j with
  | facc => exact ⟨.facc (byteField w), append_of_and_mask (m := 24) (n := 8) h, rfl⟩
  | enc => exact ⟨.enc (byteField w), append_of_and_mask (m := 24) (n := 8) h, rfl⟩
  | swbits =>
    have hlow : countField w ++ valueField w = w.extractLsb' 0 21 :=
      BitVec.extractLsb'_append_extractLsb'_eq_extractLsb' rfl
    refine ⟨.swbits (countField w) (valueField w), ?_, rfl⟩
    calc encode (.swbits (countField w) (valueField w))
      _ = (0x32#8 ++ 0#3) ++ (countField w ++ valueField w) := BitVec.append_assoc
      _ = (0x32#8 ++ 0#3) ++ w.extractLsb' 0 21 := by rw [hlow]
      _ = w := append_of_and_mask (m := 11) (n := 21) h
  | drun => exact ⟨.drun (operandField w), append_of_and_mask (m := 8) (n := 24) h, rfl⟩
  | _ =>
    refine ⟨_, ?_, rfl⟩
    rw [← BitVec.and_allOnes (x := w)]
    exact h.symm

/-- Settles O3: the word is the encoding of a command of the row (O2), and such a command decodes (O1) exactly when
its operands are legal. -/
theorem wordSelectsRow : Obligations.WordSelectsRow := by
  intro w j
  constructor
  · rintro ⟨i, hd, hm⟩
    obtain ⟨hwf, rfl⟩ := decodedWordIsEncoding w i hd
    rw [opMask_eq_rowMask, ← hm, ← opMask_eq_rowMask]
    exact ⟨encode_and_opMask i, (wellFormed_iff i).1 hwf⟩
  · rintro ⟨hmask, hops⟩
    obtain ⟨i, rfl, hm⟩ := exists_encode_of_mask hmask
    exact ⟨i, decodeEncode i ((wellFormed_iff i).2 (hm ▸ hops)), hm⟩

/-- Settles O4: each word decodes as its row's format says. -/
theorem sampleWordsDecode : Obligations.SampleWordsDecode := by
  unfold Obligations.SampleWordsDecode
  exact ⟨rfl, rfl, rfl, rfl, rfl, rfl, rfl, rfl, rfl, rfl⟩

end Sys2Proof.Machine
end

section
/-! An illegal word only raises ILLEGAL_COMMAND (O6), a run that only polls ends (O17), and SWBITS appends its bits
(O38). -/

namespace Sys2Proof.Machine

/-- Settles O6: the write is issued, and the word it issues does not decode. -/
theorem illegalWordOnlyRaises : Obligations.IllegalWordOnlyRaises := by
  intro s w e rest hp hd hr
  rw [step_issue hp hr, runCommand_of_illegal hd, illegalCommand, raise_eq]
  rfl

/-! ## Polling until BUSY is 0 (R266) -/

/-- `s` with `n` STATUS reads as all that the host will still do. -/
def State.polling (s : State) (n : Nat) : State :=
  { s with port := { s.port with requests := List.replicate n (.read (s.params.base + 0x14) 4) } }

theorem State.poll_of_busy {s : State} (h : Config.busyDraw s.port.draws = true) :
    s.poll = { s with port := { s.port with
      lastRead := some (Config.busyStatus s.port.draws ||| 1#32), draws := s.port.draws + 1 } } := by
  rw [State.poll, if_pos h]

theorem State.poll_of_ready {s : State} (h : Config.busyDraw s.port.draws = false) :
    s.poll = { s with
      pending := false
      port := { s.port with
        lastRead := some { s with pending := false }.statusWord, draws := s.port.draws + 1 } } := by
  rw [State.poll, if_neg (by simp [h])]

theorem State.poll_polling (s : State) (n : Nat) : (s.polling n).poll = s.poll.polling n := by
  cases hd : Config.busyDraw s.port.draws with
  | true => rw [State.poll_of_busy hd, State.poll_of_busy (s := s.polling n) hd]; rfl
  | false => rw [State.poll_of_ready hd, State.poll_of_ready (s := s.polling n) hd]; rfl

theorem State.step_polling_succ {s : State} (hp : s.pending = true) (n : Nat) :
    step (s.polling (n + 1)) = .next (s.poll.polling n) := by
  rw [← State.poll_polling]
  exact step_poll hp rfl

theorem runSteps_succ_of_next {s t : State} (h : step s = .next t) (n : Nat) :
    runSteps (n + 1) s = runSteps n t := by
  simp only [runSteps, h]

theorem State.run_polling (s : State) (n : Nat) : (s.polling n).run = runSteps n (s.polling n) := by
  rw [State.run]
  exact congrArg (runSteps · _) List.length_replicate

theorem State.run_polling_succ {s : State} (hp : s.pending = true) (n : Nat) :
    (s.polling (n + 1)).run = (s.poll.polling n).run := by
  rw [State.run_polling, State.run_polling, runSteps_succ_of_next (State.step_polling_succ hp n)]

/-- `n` polls end the run: no fault is recorded, and nothing of the block but PENDING has changed (R253). -/
structure State.PollsEnd (s : State) (n : Nat) : Prop where
  ended : (s.polling n).run.ended = true
  faults : (s.polling n).run.faults = []
  block : (s.polling n).run.block = { s with pending := false, port := (s.polling n).run.block.port }

theorem State.pollsEnd_one {s : State} (hp : s.pending = true) (hd : Config.busyDraw s.port.draws = false) :
    s.PollsEnd 1 := by
  have hrun : (s.polling 1).run = { block := s.poll.polling 0, faults := [] } := State.run_polling_succ hp 0
  rw [State.poll_of_ready hd] at hrun
  exact ⟨by rw [hrun]; rfl, by rw [hrun], by rw [hrun]; rfl⟩

theorem State.PollsEnd.succ {s : State} {n : Nat} (hp : s.pending = true)
    (hd : Config.busyDraw s.port.draws = true) (h : s.poll.PollsEnd n) : s.PollsEnd (n + 1) := by
  obtain ⟨hended, hfaults, hblock⟩ := h
  rw [← State.run_polling_succ hp] at hended hfaults hblock
  exact ⟨hended, hfaults, by rw [hblock, State.poll_of_busy hd]⟩

/-- The polls up to the first draw of BUSY = 0 end the run. -/
theorem State.exists_pollsEnd {s : State} (hp : s.pending = true) (k : Nat)
    (hk : Config.busyDraw (s.port.draws + k) = false) : ∃ n, s.PollsEnd n := by
  induction k generalizing s with
  | zero => exact ⟨1, State.pollsEnd_one hp hk⟩
  | succ k ih =>
    cases hd : Config.busyDraw s.port.draws with
    | false => exact ⟨1, State.pollsEnd_one hp hd⟩
    | true =>
      have hpoll : s.poll.pending = true ∧ s.poll.port.draws = s.port.draws + 1 := by
        rw [State.poll_of_busy hd]
        exact ⟨hp, rfl⟩
      obtain ⟨n, h⟩ := ih hpoll.1 (by rwa [hpoll.2, Nat.add_assoc, Nat.add_comm 1])
      exact ⟨n + 1, h.succ hp hd⟩

/-- Settles O17: under fairness some later draw is 0, and the polls up to the first such draw end the run. -/
theorem pollingEndsUnderFairness : Obligations.PollingEndsUnderFairness := by
  intro s hp
  by_cases hfair : Config.BusyFair
  · obtain ⟨m, hm, hd⟩ := hfair s.port.draws
    obtain ⟨n, hended, hfaults, hblock⟩ :=
      State.exists_pollsEnd hp (m - s.port.draws) (by rwa [Nat.add_sub_cancel' hm])
    exact .inl ⟨n, _, rfl, hended, hfaults, hblock⟩
  · exact .inr hfair

/-! ## SWBITS -/

/-- SWBITS with room for its bits (R174). -/
theorem execSwbits_of_fits {s : State} {k : BitVec 5} (v : BitVec 16) (hk : 1 ≤ k.toNat)
    (hfit : s.sCur + k.toNat ≤ s.params.streamBits) :
    execSwbits k v s = .next { s with
      stream := s.stream.writeBits s.sCur (swbitsBits k v)
      sCur := s.sCur + k.toNat
      sWlen := max s.sWlen (s.sCur + k.toNat)
      last := .ok
      result := BitVec.ofNat 32 k.toNat } := by
  have hne : swbitsBits k v ≠ [] := List.ne_nil_of_length_pos (by rwa [length_swbitsBits])
  rw [execSwbits, if_neg (by omega), State.streamWriteBits_eq s _ (.inl hne), length_swbitsBits, finish_eq]

/-- Settles O38: the bits written are those of `v` from bit `k - 1` down, and every other position is outside them. -/
theorem swbitsAppends : Obligations.SwbitsAppends := by
  intro s k v hwf hm hfit
  obtain ⟨hk, _, _⟩ := wellFormed_swbits.1 hwf
  refine ⟨_, execSwbits_of_fits v hk hfit, fun j hj => ?_, fun p hp => ?_, rfl⟩
  · have hj : j < (swbitsBits k v).length := by rwa [length_swbitsBits]
    exact (Memory.readBit_writeBits s.sCur j _ hm hj).trans (getElem_swbitsBits k v j hj)
  · exact Memory.readBit_writeBits_of_outside s.sCur p _ hm (by rwa [length_swbitsBits])

end Sys2Proof.Machine
end

section
/-! FRESET clears the counts (O21), FACC counts one occurrence (O22), and the counts after a reset are the numbers of
the FACCs that ran (O23). -/

namespace Sys2Proof.Machine

/-! ## FRESET -/

theorem State.freqAt_eq_zero {s : State} (h : s.freq = Vector.replicate 256 0) (b : Symbol) : s.freqAt b = 0 := by
  simp [State.freqAt, h]

theorem execFreset_eq (s : State) :
    execFreset s = .next { s with
      freq := Vector.replicate 256 0
      treeValid := false
      codesValid := false
      degen := false
      last := .ok
      result := 0#32 } := by
  rw [execFreset, finish_eq]
  rfl

/-- Settles O21: FRESET's state is written out by `execFreset_eq`. -/
theorem fresetClears : Obligations.FresetClears :=
  fun s => ⟨_, execFreset_eq s, State.freqAt_eq_zero rfl, rfl⟩

/-! ## FACC -/

theorem execFacc_of_ne {s : State} {b : Symbol} (h : s.freqAt b ≠ 2 ^ s.params.cntW - 1) :
    execFacc b s = finish (s.setFreq b (s.freqAt b + 1)).invalidate (s.freqAt b + 1) := by
  rw [execFacc, if_neg h]

theorem execFacc_of_eq {s : State} {b : Symbol} (h : s.freqAt b = 2 ^ s.params.cntW - 1) :
    execFacc b s = raise s .countOverflow 0 := by
  rw [execFacc, if_pos h]

/-- Settles O22, by the two cases of FACC's check: the count below the largest, and the largest. -/
theorem faccCountsOrOverflows : Obligations.FaccCountsOrOverflows := by
  intro s b
  constructor
  · intro hlt
    refine ⟨_, (execFacc_of_ne hlt.ne).trans (finish_eq _ _), ?_, fun c hc => ?_, rfl⟩
    · exact (State.freqAt_setFreq s b b _).trans (if_pos rfl)
    · exact (State.freqAt_setFreq s b c _).trans (if_neg hc)
  · intro hmax
    exact (execFacc_of_eq hmax).trans (raise_eq s .countOverflow 0)

/-! ## What a command does to the counts -/

section
variable {s u t : State}

theorem freq_of_finish {r : Nat} (ht : finish u r = .next t) (hu : u.freq = s.freq) : t.freq = s.freq :=
  finish_next ht ▸ hu

theorem freq_of_raise {c : ResultCode} {r : Nat} (ht : raise u c r = .next t) (hu : u.freq = s.freq) :
    t.freq = s.freq :=
  raise_next ht ▸ hu

theorem State.streamWriteBits_freq (s : State) (xs : List Bool) : (s.streamWriteBits xs).freq = s.freq := by
  obtain ⟨m, k, w, e⟩ := streamWriteBits_frame s xs
  rw [e]

theorem execBuild_freq (ht : execBuild s = .next t) : t.freq = s.freq := by
  unfold execBuild at ht
  split at ht
  · exact freq_of_raise ht rfl
  · exact freq_of_finish ht rfl
  · exact freq_of_finish ht rfl

theorem execGen_freq (ht : execGen s = .next t) : t.freq = s.freq := by
  unfold execGen at ht
  split at ht
  · split at ht
    · exact freq_of_finish ht rfl
    · exact freq_of_raise ht rfl
    · exact absurd ht (by simp)
  · exact freq_of_raise ht rfl

theorem execSwbits_freq {k : BitVec 5} {v : BitVec 16} (ht : execSwbits k v s = .next t) : t.freq = s.freq := by
  unfold execSwbits at ht
  split at ht
  · exact freq_of_raise ht rfl
  · exact freq_of_finish ht (s.streamWriteBits_freq _)

theorem execSrbit_freq (ht : execSrbit s = .next t) : t.freq = s.freq := by
  unfold execSrbit at ht
  split at ht
  · exact freq_of_raise ht rfl
  · exact freq_of_finish ht rfl

theorem execEnc_freq {b : Symbol} (ht : execEnc b s = .next t) : t.freq = s.freq := by
  unfold execEnc at ht
  split at ht
  · split at ht
    · split at ht
      · exact freq_of_raise ht rfl
      · exact freq_of_finish ht (s.streamWriteBits_freq _)
    · exact freq_of_raise ht rfl
  · exact freq_of_raise ht rfl

theorem execDsym_freq (ht : execDsym s = .next t) : t.freq = s.freq := by
  unfold execDsym at ht
  split at ht
  · split at ht
    · exact freq_of_finish ht rfl
    · exact freq_of_raise ht rfl
    · exact absurd ht (by simp)
  · exact freq_of_raise ht rfl

theorem execDrun_freq {n : BitVec 24} (ht : execDrun n s = .next t) : t.freq = s.freq := by
  unfold execDrun at ht
  split at ht
  · obtain ⟨c, bs, e, _, _, rfl⟩ := drunLoop_next _ _ ht
    rfl
  · exact freq_of_raise ht rfl

theorem execDsent_freq (ht : execDsent s = .next t) : t.freq = s.freq := by
  unfold execDsent at ht
  split at ht
  · obtain ⟨c, bs, e, _, _, rfl⟩ := dsentLoop_next _ _ ht
    rfl
  · exact freq_of_raise ht rfl

/-- No command but FRESET, FACC and SRST writes FREQ (R23). -/
theorem exec_freq {i : Instr} (hi : i ≠ .freset ∧ i ≠ .srst) (hfacc : ∀ b, i ≠ .facc b)
    (ht : exec i s = .next t) : t.freq = s.freq := by
  cases i with
  | freset => exact absurd rfl hi.1
  | srst => exact absurd rfl hi.2
  | facc b => exact absurd rfl (hfacc b)
  | nop => exact freq_of_finish ht rfl
  | build => exact execBuild_freq ht
  | gen => exact execGen_freq ht
  | sreset => exact freq_of_finish ht rfl
  | sclear => exact freq_of_finish ht rfl
  | swbits k v => exact execSwbits_freq ht
  | srbit => exact execSrbit_freq ht
  | enc b => exact execEnc_freq ht
  | dsym => exact execDsym_freq ht
  | drun n => exact execDrun_freq ht
  | dsent => exact execDsent_freq ht
  | oclear => exact freq_of_finish ht rfl
  | clrerr => exact freq_of_finish ht rfl

/-- FACC that does not end with COUNT_OVERFLOW counts its operand alone (R122, R125). -/
theorem execFacc_freqAt {b : Symbol} (ht : execFacc b s = .next t) (hl : t.last ≠ .countOverflow) (c : Symbol) :
    t.freqAt c = s.freqAt c + if b = c then 1 else 0 := by
  by_cases hmax : s.freqAt b = 2 ^ s.params.cntW - 1
  · rw [execFacc_of_eq hmax] at ht
    exact absurd (raise_next ht ▸ rfl) hl
  · rw [execFacc_of_ne hmax] at ht
    have hset : t.freqAt c = if c = b then s.freqAt b + 1 else s.freqAt c :=
      finish_next ht ▸ s.freqAt_setFreq b c _
    by_cases hc : b = c
    · subst hc; simp [hset]
    · simp [hset, hc, Ne.symm hc]

/-- A command but FRESET and SRST that does not end with COUNT_OVERFLOW raises the count of the symbol whose FACC it
is, and no other. -/
theorem exec_freqAt {i : Instr} (hi : i ≠ .freset ∧ i ≠ .srst) (ht : exec i s = .next t)
    (hl : t.last ≠ .countOverflow) (b : Symbol) : t.freqAt b = s.freqAt b + if i = .facc b then 1 else 0 := by
  by_cases hfacc : ∃ c, i = .facc c
  · obtain ⟨c, rfl⟩ := hfacc
    simpa only [Instr.facc.injEq] using execFacc_freqAt ht hl b
  · have hno : ∀ c, i ≠ .facc c := fun c e => hfacc ⟨c, e⟩
    rw [if_neg (hno b), State.freqAt_congr (exec_freq hi hno ht), Nat.add_zero]

/-- FRESET and SRST clear every count (R120, R224). -/
theorem exec_clears_freq {i : Instr} (hi : i = .freset ∨ i = .srst) (ht : exec i s = .next t) :
    t.freq = Vector.replicate 256 0 := by
  rcases hi with rfl | rfl
  · exact finish_next ht ▸ rfl
  · exact Host.Outcome.next.inj ht ▸ rfl

/-! ## What a list of commands does to them -/

/-- A run's first command answers, not with COUNT_OVERFLOW, and the others run from there. -/
theorem runNoOverflow_cons {i : Instr} {is : List Instr} (h : runNoOverflow (i :: is) s = some t) :
    ∃ u, exec i s = .next u ∧ u.last ≠ .countOverflow ∧ runNoOverflow is u = some t := by
  rw [runNoOverflow] at h
  split at h
  · next u hu =>
    split at h
    · exact absurd h (by simp)
    · next hl => exact ⟨u, hu, hl, h⟩
  · exact absurd h (by simp)
  · exact absurd h (by simp)

theorem runNoOverflow_freqAt {is : List Instr} (his : ∀ i ∈ is, i ≠ .freset ∧ i ≠ .srst)
    (h : runNoOverflow is s = some t) (b : Symbol) : t.freqAt b = s.freqAt b + is.count (.facc b) := by
  induction is generalizing s with
  | nil =>
    obtain rfl := Option.some.inj h
    rfl
  | cons i is ih =>
    obtain ⟨hi, his⟩ := List.forall_mem_cons.1 his
    obtain ⟨u, hu, hl, hrun⟩ := runNoOverflow_cons h
    rw [ih his hrun, exec_freqAt hi hu hl b, List.count_cons]
    simp only [beq_iff_eq]
    omega

theorem runNoOverflow_counts {is : List Instr} (his : ∀ i ∈ is, i ≠ .freset ∧ i ≠ .srst)
    (hs : s.freq = Vector.replicate 256 0) (h : runNoOverflow is s = some t) (b : Symbol) :
    t.freqAt b = is.count (.facc b) := by
  rw [runNoOverflow_freqAt his h b, State.freqAt_eq_zero hs, Nat.zero_add]

end

/-- Settles O23, by induction on the list of commands: each adds one to the count its FACC names, and the run begins
with every count 0. -/
theorem accumulationCounts : Obligations.AccumulationCounts := by
  intro is t his
  constructor
  · intro s i₀ hi₀ h
    obtain ⟨u, hu, _, hrun⟩ := runNoOverflow_cons h
    exact runNoOverflow_counts his (exec_clears_freq hi₀ hu) hrun
  · intro p pending port h
    exact runNoOverflow_counts his rfl h

end Sys2Proof.Machine
end

section
/-! The tree builder: what scanmin returns (O24), what BUILD leaves with no, one, or several counted symbols (O25 to
O29), the weights of its tree (O30), and that the counts alone decide it (O31). -/

namespace Sys2Proof.Machine

/-! ## scanmin -/

/-- The converse of `scanMin_none`. -/
theorem scanMin_eq_none {a : Arena} {n : Nat} (h : ∀ i : Fin 511, i.val < n → ¬a[i].active = true) :
    scanMin a n = none := by
  cases hs : scanMin a n with
  | none => rfl
  | some i =>
    obtain ⟨hi, hactive, _⟩ := scanMin_some hs
    exact absurd hactive (h i hi)

/-- Settles O24: scanmin's answer is the lightest active slot, by `scanMin_some` and `scanMin_eq_some`. -/
theorem scanMinPicksLightest : Obligations.ScanMinPicksLightest := by
  intro a n _
  simp only [← Node.active_iff]
  refine ⟨⟨fun h i hi => Bool.eq_false_iff.1 (scanMin_none h i hi), scanMin_eq_none⟩, fun i => ⟨fun h => ?_, ?_⟩⟩
  · obtain ⟨hi, hactive, hmin⟩ := scanMin_some h
    exact ⟨⟨hi, hactive⟩, fun j hj hc hw => hmin j hj ((Node.active_iff _).2 ⟨hc, hw⟩)⟩
  · rintro ⟨⟨hi, hactive⟩, hmin⟩
    refine scanMin_eq_some hi hactive fun j hj hj' => ?_
    obtain ⟨hc, hw⟩ := (Node.active_iff _).1 hj'
    exact hmin j hj hc hw

/-! ## No counted symbol (R135) -/

/-- A slot of the fresh arena that is no counted symbol's leaf is empty. -/
theorem freshArena_eq_empty {freq : Vector Nat 256} {i : Fin 511}
    (h : ∀ b : Symbol, i = symbolLeaf b → freq[b.toNat]'b.isLt = 0) : (freshArena freq)[i] = Node.empty := by
  rcases slot_cases i with ⟨b, rfl⟩ | hi
  · rw [freshArena_leaf, h b rfl]; rfl
  · exact freshArena_empty freq i hi

/-- With no counted symbol the fresh arena is empty. -/
theorem freshArena_of_countNonzero_eq_zero {freq : Vector Nat 256} (h : countNonzero freq = 0) (i : Fin 511) :
    (freshArena freq)[i] = Node.empty :=
  freshArena_eq_empty fun b _ => countNonzero_eq_zero.1 h b

/-- Settles O25: BUILD raises from the initialised state, whose arena is empty. -/
theorem buildDegenerate : Obligations.BuildDegenerate := by
  intro s hzero
  have hn : countNonzero s.freq = 0 := countNonzero_eq_zero.2 hzero
  exact ⟨_, (execBuild_none hn).trans (raise_eq _ _ _), freshArena_of_countNonzero_eq_zero hn, rfl⟩

/-! ## One counted symbol (R136) -/

/-- BUILD where `b` is the only counted symbol. -/
theorem execBuild_single {s : State} {b : Symbol} (hb : s.freqAt b ≠ 0) (hothers : ∀ c, c ≠ b → s.freqAt c = 0) :
    execBuild s = finish (s.buildSingle (symbolLeaf b)) 256 := by
  obtain ⟨c, hc, _, e⟩ := execBuild_one (countNonzero_eq_one hb hothers)
  have hcb : c = b := by
    by_contra hne
    exact hc (hothers c hne)
  rw [e, hcb]

section
variable (freq : Vector Nat 256) (b : Symbol)

theorem singleArena_root : (singleArena freq (symbolLeaf b))[(256 : Fin 511)] =
    { weight := freq[b.toNat]'b.isLt
      children := some (symbolLeaf b, symbolLeaf (padSymbol b))
      consumed := true } := by
  rw [getElem_singleArena, if_pos rfl, freshArena_leaf, padLeaf_symbolLeaf]
  rfl

theorem singleArena_symbol : (singleArena freq (symbolLeaf b))[symbolLeaf b] =
    { weight := freq[b.toNat]'b.isLt, children := none, consumed := true } := by
  have hne : symbolLeaf b ≠ symbolLeaf (padSymbol b) := fun e => padSymbol_ne b (symbolLeaf_inj e).symm
  rw [getElem_singleArena, if_neg (symbolLeaf_ne_256 b), padLeaf_symbolLeaf, getElem_consume, if_neg hne,
    getElem_consume, if_pos rfl, freshArena_leaf]
  rfl

theorem singleArena_pad : (singleArena freq (symbolLeaf b))[symbolLeaf (padSymbol b)] =
    { weight := freq[(padSymbol b).toNat]'(padSymbol b).isLt, children := none, consumed := true } := by
  have hne : symbolLeaf (padSymbol b) ≠ symbolLeaf b := fun e => padSymbol_ne b (symbolLeaf_inj e)
  rw [getElem_singleArena, if_neg (symbolLeaf_ne_256 _), padLeaf_symbolLeaf, getElem_consume, if_pos rfl,
    getElem_consume, if_neg hne, freshArena_leaf]
  rfl

theorem singleArena_of_ne {i : Fin 511} (hroot : i ≠ 256) (hb : i ≠ symbolLeaf b)
    (hpad : i ≠ symbolLeaf (padSymbol b)) : (singleArena freq (symbolLeaf b))[i] = (freshArena freq)[i] := by
  rw [getElem_singleArena, if_neg hroot, padLeaf_symbolLeaf, getElem_consume, if_neg hpad, getElem_consume,
    if_neg hb]

end

/-- Settles O26: BUILD finishes with the single-symbol arena, whose slots are written out above. -/
theorem buildSingleSymbol : Obligations.BuildSingleSymbol := by
  rintro s b _ hb hothers rfl
  refine ⟨_, (execBuild_single hb hothers).trans (finish_eq _ _), singleArena_root s.freq b,
    singleArena_symbol s.freq b, ?_, fun i hroot hi hpad => ?_, rfl⟩
  · have hzero : s.freqAt (padSymbol b) = 0 := hothers _ (padSymbol_ne b)
    exact (singleArena_pad s.freq b).trans (congrArg (Node.mk · none true) hzero)
  · refine (singleArena_of_ne s.freq b hroot hi hpad).trans (freshArena_eq_empty fun c hc => hothers c ?_)
    rintro rfl
    exact hi hc

/-! ## Two or more counted symbols (R134, R137) -/

/-- The arena `a` in which the merge loop of a BUILD is left with one active slot, `r`, the node created last. -/
structure MergeEnd (freq : Vector Nat 256) (a : Arena) (r : Fin 511) : Prop where
  merging : Merging freq a (255 + countNonzero freq)
  root : r.val = 254 + countNonzero freq
  active : a[r].active = true
  rest : ∀ k : Fin 511, k ≠ r → a[k].active = false

/-- A BUILD that merges consumes the last active slot and makes it ROOT. -/
theorem execBuild_merges {s : State} (h : 2 ≤ countNonzero s.freq) :
    ∃ a r, MergeEnd s.freq a r ∧ execBuild s = .next { s with
      arena := a.consume r
      nextFree := 255 + countNonzero s.freq
      root := some (Fin.ofNat 511 (254 + countNonzero s.freq))
      treeValid := true
      codesValid := false
      degen := false
      last := .ok
      result := BitVec.ofNat 32 (254 + countNonzero s.freq) } := by
  obtain ⟨a, r, hm, hr, hactive, hrest, e⟩ := mergedArena_spec h
  refine ⟨a, r, ⟨hm, by omega, hactive, hrest⟩, ?_⟩
  have hlast : 255 + countNonzero s.freq - 1 = 254 + countNonzero s.freq := by omega
  rw [execBuild_many h, finish_eq]
  simp only [State.buildMerged, e, hlast]
  rfl

/-- The children of a node of the loop's arena, in the order of R134. -/
theorem Merging.children_order {freq : Vector Nat 256} {a : Arena} {n : Nat} (h : Merging freq a n)
    {k l r : Fin 511} (hc : a[k].children = some (l, r)) :
    a[l].weight < a[r].weight ∨ (a[l].weight = a[r].weight ∧ l < r) := by
  obtain ⟨hlow, hn⟩ := h.children_lt hc
  obtain ⟨l', r', hc', _, _, _, _, _, hlight, _⟩ := h.inner k hlow hn
  obtain ⟨rfl, rfl⟩ := Prod.mk.inj (Option.some.inj (hc.symm.trans hc'))
  exact hlight

namespace MergeEnd
variable {freq : Vector Nat 256} {a : Arena} {r : Fin 511} (h : MergeEnd freq a r)
include h

/-- The nodes of the tree, and no others, are consumed: the loop consumes what it merges, and ROOT at its end. -/
theorem consumed_iff (k : Fin 511) : (a.consume r)[k].consumed = true ↔ a[k].weight ≠ 0 := by
  rw [consume_consumed]
  by_cases hk : k = r
  · have hw := ((Node.active_iff _).1 h.active).2
    exact iff_of_true (.inl hk) (hk ▸ hw)
  · have hrest := h.rest k hk
    simp only [hk, false_or]
    refine ⟨fun hc => (h.merging.parent k hc).1, fun hw => ?_⟩
    by_contra hc
    rw [(Node.active_iff _).2 ⟨by simpa using hc, hw⟩] at hrest
    exact absurd hrest (by simp)

theorem leaf (b : Symbol) : (a.consume r)[symbolLeaf b] =
    { weight := freq[b.toNat]'b.isLt, children := none, consumed := decide (freq[b.toNat]'b.isLt ≠ 0) } := by
  obtain ⟨hchildren, hweight⟩ := h.merging.leafShape b
  have hconsumed : (a.consume r)[symbolLeaf b].consumed = decide (freq[b.toNat]'b.isLt ≠ 0) := by
    rw [← hweight, Bool.eq_iff_iff, h.consumed_iff, decide_eq_true_eq]
  rw [← hconsumed, ← hweight, ← hchildren, ← consume_weight a r, ← consume_children a r]

theorem internal (k : Fin 511) (hlow : 256 ≤ k.val) (hn : k.val < 255 + countNonzero freq) :
    (a.consume r)[k].consumed = true ∧ (a.consume r)[k].children ≠ none := by
  obtain ⟨l, r', hchildren, _, _, _, _, hweight, _⟩ := h.merging.inner k hlow hn
  refine ⟨(h.consumed_iff k).2 hweight, ?_⟩
  rw [consume_children, hchildren]
  exact Option.some_ne_none _

theorem above (k : Fin 511) (hn : 255 + countNonzero freq ≤ k.val) : (a.consume r)[k] = Node.empty := by
  have hk : k ≠ r := fun e => by rw [e, h.root] at hn; omega
  rw [getElem_consume, if_neg hk]
  exact h.merging.outer k hn

theorem takesLightest (k : Fin 511) (hlow : 256 ≤ k.val) (hn : k.val < 255 + countNonzero freq) :
    (a.consume r).takesLightest k :=
  Arena.takesLightest_congr (fun i _ => consume_children a r i) (fun i _ => consume_weight a r i)
    (h.merging.light k hlow hn)

end MergeEnd

/-- Settles O27: the loop's arena is that of `MergeEnd`, with ROOT consumed. -/
theorem buildMergesSymbols : Obligations.BuildMergesSymbols := by
  intro s hs
  obtain ⟨a, r, hend, e⟩ := execBuild_merges hs
  exact ⟨_, e, hend.leaf, hend.internal, hend.above, rfl⟩

/-- A BUILD that leaves a tree of no single symbol has counted two or more. -/
theorem two_le_countNonzero_of_build {s t : State} (ht : execBuild s = .next t) (hv : t.treeValid = true)
    (hd : t.degen = false) : 2 ≤ countNonzero s.freq := by
  rcases hn : countNonzero s.freq with _ | _ | n
  · rw [raise_next ((execBuild_none hn).symm.trans ht)] at hv
    exact absurd hv (by simp)
  · obtain ⟨b, _, _, e⟩ := execBuild_one hn
    rw [finish_next (e.symm.trans ht)] at hd
    exact absurd hd (by simp [State.buildSingle])
  · omega

/-- Settles O28: the loop's invariant orders the children of each node, and the loop's end changes neither. -/
theorem leftChildIsLighter : Obligations.LeftChildIsLighter := by
  intro s t ht hv hd k l r hc
  obtain ⟨a, root, hend, e⟩ := execBuild_merges (two_le_countNonzero_of_build ht hv hd)
  obtain rfl := Host.Outcome.next.inj (e.symm.trans ht)
  simp only [consume_children, consume_weight] at hc ⊢
  exact hend.merging.children_order hc

/-- Settles O29: the loop's invariant says which two nodes each merge takes, and later merges change neither. -/
theorem mergesTakeLightest : Obligations.MergesTakeLightest := by
  intro s t hs ht
  obtain ⟨a, r, hend, e⟩ := execBuild_merges hs
  obtain rfl := Host.Outcome.next.inj (e.symm.trans ht)
  exact hend.takesLightest

/-! ## Weights (R142) -/

/-- A BUILD that does not raise leaves the tree of its counts (R136, R137). -/
theorem execBuild_treeOk {s t : State} (ht : execBuild s = .next t) (hok : t.last = .ok) : t.TreeOk := by
  rcases hn : countNonzero s.freq with _ | _ | n
  · rw [raise_next ((execBuild_none hn).symm.trans ht)] at hok
    exact absurd hok (by simp)
  · obtain ⟨b, _, hothers, e⟩ := execBuild_one hn
    rw [finish_next (e.symm.trans ht)]
    exact (State.buildSingle_treeOk hothers).of_treeData rfl
  · have hmany : 2 ≤ countNonzero s.freq := by omega
    rw [finish_next ((execBuild_many hmany).symm.trans ht)]
    exact (s.buildMerged_treeOk hmany).of_treeData rfl

/-- Settles O30: items 1, 2 and 5 of R29, which hold of the tree of a successful BUILD. -/
theorem weightConservation : Obligations.WeightConservation := by
  intro s t ht hok
  have htree := execBuild_treeOk ht hok
  refine ⟨fun k hlow hn => ?_, ?_⟩
  · obtain ⟨⟨l, r⟩, hc⟩ := Option.isSome_iff_exists.1 ((htree.internal k).2 ⟨hlow, hn⟩)
    obtain ⟨_, _, _, hweight⟩ := htree.merged k l r hc
    exact ⟨l, r, hc, hweight⟩
  · obtain ⟨r, hr, _⟩ := htree.root
    have htotal : t.totalFreq = s.totalFreq := by rw [State.totalFreq, State.totalFreq, execBuild_freq ht]
    exact ⟨r, hr, (htree.total r hr).trans htotal⟩

/-! ## The counts decide the tree (R140) -/

/-- The tree BUILD leaves, from the counts alone. -/
def builtTree (freq : Vector Nat 256) : TreeData :=
  match nonzeroLeaves freq with
  | [] =>
    { valid := false, degen := false, freq := freq, arena := freshArena freq, root := none, nextFree := 256 }
  | [i] =>
    { valid := true, degen := true, freq := freq, arena := singleArena freq i, root := some 256, nextFree := 257 }
  | _ :: _ :: _ =>
    { valid := true, degen := false, freq := freq
      arena := (mergeLoop 256 (freshArena freq) 256).1
      root := some (arenaIndex ((mergeLoop 256 (freshArena freq) 256).2 - 1))
      nextFree := (mergeLoop 256 (freshArena freq) 256).2 }

theorem execBuild_treeData (s : State) : ∃ t, execBuild s = .next t ∧ t.treeData = builtTree s.freq := by
  unfold execBuild builtTree
  match nonzeroLeaves s.freq with
  | [] => exact ⟨_, rfl, rfl⟩
  | [_] => exact ⟨_, rfl, rfl⟩
  | _ :: _ :: _ => exact ⟨_, rfl, rfl⟩

/-- Settles O31: from each state BUILD completes and leaves `builtTree` of its counts. -/
theorem buildIsFunctionOfFreq : Obligations.BuildIsFunctionOfFreq := by
  intro s s' hfreq
  obtain ⟨t, ht, hdata⟩ := execBuild_treeData s
  obtain ⟨t', ht', hdata'⟩ := execBuild_treeData s'
  have e : t.treeData = t'.treeData := by rw [hdata, hdata', hfreq]
  exact ⟨t, t', ht, ht', congrArg TreeData.arena e, congrArg TreeData.nextFree e, congrArg TreeData.root e,
    congrArg TreeData.degen e, execBuild_freq ht, execBuild_freq ht'⟩

end Sys2Proof.Machine
end

section
/-! What a command that raises an error has changed (O51). -/

namespace Sys2Proof.Machine

/-- The completion of an error sets its STICKY bit (R232). -/
theorem State.complete_of_ne_ok (s : State) {c : ResultCode} (hc : c ≠ .ok) (r : Nat) : s.complete c r = { s with
    last := c, result := BitVec.ofNat 32 r, sticky := s.sticky ||| 1#32 <<< c.code } := by
  cases c with
  | ok => exact absurd rfl hc
  | _ => rfl

/-- Settles O51, by what `exec_next` says each command has changed where it ends with an error; SRST raises none. -/
theorem errorsChangeNothingElse : Obligations.ErrorsChangeNothingElse := by
  intro i s t hcursors hwf h herror
  have hi : i ≠ .srst := by
    rintro rfl
    exact herror (Host.Outcome.next.inj h ▸ rfl)
  obtain ⟨u, c, r, rfl, _, _, hchanged⟩ := exec_next hi h
  rw [State.complete_last] at herror
  cases hchanged with
  | ok => exact absurd rfl herror
  | degenerate hi hu hr hf =>
    subst hu hr
    exact .inl ⟨hi, freshArena_of_countNonzero_eq_zero hf, rfl⟩
  | run _ bs e hi hc hu hb hr =>
    subst hu hr
    obtain ⟨hnew, hold⟩ := Memory.read_writeBytes s.oCnt bs hwf
    exact .inr (.inl ⟨hi, hc.resolve_left herror, bs, hb.held, hb.fits hcursors.output, hnew, hold,
      State.complete_of_ne_ok _ herror _⟩)
  | full g hi hr hu =>
    subst hu hr
    exact .inr (.inr (.inl ⟨hi, rfl⟩))
  | nothing _ hu hr =>
    subst hu hr
    exact .inr (.inr (.inr (State.complete_of_ne_ok _ herror _)))

end Sys2Proof.Machine
end

section
/-! The code-table generator: GEN needs a tree (O43) and completes on one (O32), what it leaves of CODEBUF (O34), that
the tree alone decides its codes (O35), that no code begins another (O37) and that lengths follow the counts (O36), and
that a symbol just encoded is decoded again (O59). -/

namespace Sys2Proof.Machine

/-! ## NOT_READY (R150, R201, R203, R205) -/

/-- Settles O43: each of the four tests TREE_VALID first. -/
theorem notReadyWithoutTree : Obligations.NotReadyWithoutTree := by
  intro s n i hv hi
  have hnotReady : exec i s = raise s .notReady 0 := by
    rcases hi with rfl | rfl | rfl | rfl
    · simp [exec, execGen, hv]
    · simp [exec, execDsym, hv]
    · simp [exec, execDrun, hv]
    · simp [exec, execDsent, hv]
  rw [hnotReady, raise_eq]
  rfl

/-! ## A GEN that completes -/

/-- Where GEN's walk starts: with the table cleared, at offset 0 (R150, R151). -/
def CodeGen.start (m : Memory) : CodeGen := { table := clearedTable, buf := m, cur := 0 }

/-- The state after a GEN whose walk has left `g`. -/
def State.generated (s : State) (g : CodeGen) : State :=
  { s with
    codeTable := g.table
    codebuf := g.buf
    codeFill := g.cur
    codesValid := true
    last := .ok
    result := BitVec.ofNat 32 g.cur }

section
variable {s : State} {g : CodeGen}

theorem execGen_of_genWalk (hv : s.treeValid = true) (hg : s.genWalk = .done g) :
    exec .gen s = .next (s.generated g) := by
  change execGen s = _
  rw [execGen, if_pos hv, hg]
  exact finish_eq _ _

/-- The converse of `execGen_of_genWalk`. -/
theorem genWalk_of_execGen {t : State} (h : exec .gen s = .next t) (hok : t.last = .ok) :
    ∃ g, s.treeValid = true ∧ s.genWalk = .done g ∧ t = s.generated g := by
  obtain ⟨r, g, hv, hroot, hvisit, _⟩ := execGen_ok h hok
  have hg : s.genWalk = .done g := by simp only [State.genWalk, hroot, hvisit]
  exact ⟨g, hv, hg, Host.Outcome.next.inj (h.symm.trans (execGen_of_genWalk hv hg))⟩

/-- GEN's walk is a visit from ROOT. -/
theorem visit_of_genWalk (hg : s.genWalk = .done g) :
    ∃ r, s.root = some r ∧ visit s.arena 511 r [] (.start s.codebuf) = .done g := by
  unfold State.genWalk at hg
  split at hg
  · exact absurd hg (by simp)
  · next r hroot => exact ⟨r, hroot, hg⟩

/-- GEN's walk records the codes of the counted leaves. -/
theorem genWalk_eq_recordAll (hg : s.genWalk = .done g) :
    ∃ r, s.root = some r ∧ g = (CodeGen.start s.codebuf).recordAll (s.genCodes r) := by
  obtain ⟨r, hroot, hvisit⟩ := visit_of_genWalk hg
  exact ⟨r, hroot, visit_done 511 hvisit⟩

end

/-! ## The bits recorded -/

section
variable {m : Memory} (hm : m.wf = true) (ps : List (Symbol × List Bool)) {k : Nat}

theorem recordAll_start_cur (m : Memory) : ((CodeGen.start m).recordAll ps).cur = pathBits ps := by
  rw [recordAll_cur]
  exact Nat.zero_add _

include hm

/-- At and above the cursor CODEBUF keeps its bits (R162). -/
theorem recordAll_readBit_of_ge (hk : pathBits ps ≤ k) :
    ((CodeGen.start m).recordAll ps).buf.readBit k = m.readBit k := by
  rw [recordAll_buf]
  exact Memory.readBit_writeBits_of_outside 0 k _ hm (.inr (by rwa [Nat.zero_add, length_flatMap_paths]))

/-- Below the cursor CODEBUF holds the paths one after another. -/
theorem recordAll_readBit_of_lt (hk : k < (ps.flatMap Prod.snd).length) :
    ((CodeGen.start m).recordAll ps).buf.readBit k = (ps.flatMap Prod.snd)[k] := by
  have h := Memory.readBit_writeBits 0 k _ hm hk
  rw [Nat.zero_add] at h
  rw [recordAll_buf]
  exact h

end

/-- Settles O34: GEN writes its codes from offset 0 up to CODE_FILL. -/
theorem genKeepsBitsAboveFill : Obligations.GenKeepsBitsAboveFill := by
  intro s t hwf hgen hok k hk
  obtain ⟨g, _, hg, rfl⟩ := genWalk_of_execGen hgen hok
  obtain ⟨r, _, rfl⟩ := genWalk_eq_recordAll hg
  exact recordAll_readBit_of_ge hwf _ ((recordAll_start_cur _ _).symm.trans_le hk)

/-! ## The tree alone decides the codes (R161) -/

section
variable {a a' : Arena} (hchildren : ∀ i : Fin 511, a'[i].children = a[i].children)
  (hweight : ∀ b, a'[symbolLeaf b].weight = a[symbolLeaf b].weight)

include hweight in
theorem visitLeaf_congr (i : Fin 511) (path : List Bool) (g : CodeGen) :
    visitLeaf a' i path g = visitLeaf a i path g := by
  unfold visitLeaf
  cases hb : leafSymbol i with
  | none => rfl
  | some b =>
    obtain rfl := leafSymbol_eq_some.1 hb
    simp only [hweight]

include hchildren hweight in
/-- A visit reads of the arena the children and the leaves' weights alone. -/
theorem visit_congr (fuel : Nat) (i : Fin 511) (path : List Bool) (g : CodeGen) :
    visit a' fuel i path g = visit a fuel i path g := by
  induction fuel generalizing i path g with
  | zero => rfl
  | succ fuel ih =>
    rw [visit, visit, hchildren]
    cases a[i].children with
    | none => exact visitLeaf_congr hweight i path g
    | some p => simp only [ih]

end

/-- What two walks have in common that record the same codes. -/
structure CodeGen.SameCodes (g' g : CodeGen) : Prop where
  table : g'.table = g.table
  cur : g'.cur = g.cur
  bits : ∀ k, k < g.cur → g'.buf.readBit k = g.buf.readBit k

theorem recordAll_sameCodes {m m' : Memory} (hm : m.wf = true) (hm' : m'.wf = true) (ps : List (Symbol × List Bool)) :
    ((CodeGen.start m').recordAll ps).SameCodes ((CodeGen.start m).recordAll ps) where
  table := recordAll_table _ _ _ _ _
  cur := by rw [recordAll_start_cur, recordAll_start_cur]
  bits k hk := by
    rw [recordAll_start_cur, ← length_flatMap_paths] at hk
    rw [recordAll_readBit_of_lt hm' ps hk, recordAll_readBit_of_lt hm ps hk]

/-- From a second state with the same tree the walk comes back too, with the same codes. -/
theorem genWalk_sameCodes {s s' : State} {g : CodeGen} (hwf : s.codebuf.wf = true) (hwf' : s'.codebuf.wf = true)
    (hroot : s'.root = s.root) (hchildren : ∀ i : Fin 511, s'.arena[i].children = s.arena[i].children)
    (hweight : ∀ b, s'.arena[symbolLeaf b].weight = s.arena[symbolLeaf b].weight) (hg : s.genWalk = .done g) :
    ∃ g', s'.genWalk = .done g' ∧ g'.SameCodes g := by
  obtain ⟨r, hr, hvisit⟩ := visit_of_genWalk hg
  obtain ⟨g', hvisit'⟩ := visit_done_congr (g₂ := .start s'.codebuf) 511 hvisit rfl
  refine ⟨g', ?_, ?_⟩
  · simp only [State.genWalk, hroot, hr]
    exact (visit_congr hchildren hweight 511 r [] _).trans hvisit'
  · rw [visit_done 511 hvisit, visit_done 511 hvisit']
    exact recordAll_sameCodes hwf hwf' _

theorem genWalk_wf {s : State} {g : CodeGen} (hwf : s.codebuf.wf = true) (hg : s.genWalk = .done g) :
    g.buf.wf = true := by
  obtain ⟨r, _, rfl⟩ := genWalk_eq_recordAll hg
  rw [recordAll_buf]
  exact Memory.wf_writeBits _ _ hwf

/-- Settles O35: a GEN leaves the tree as it was, so a second one is the first clause with that state. -/
theorem genIsFunctionOfTree : Obligations.GenIsFunctionOfTree := by
  refine ⟨fun s s' t hwf hwf' hvalid hroot hchildren hweight hgen hok => ?_, fun s t hwf hgen hok => ?_⟩ <;>
    obtain ⟨g, hv, hg, rfl⟩ := genWalk_of_execGen hgen hok
  · obtain ⟨g', hg', htable, hcur, hbits⟩ := genWalk_sameCodes hwf hwf' hroot hchildren hweight hg
    exact ⟨_, execGen_of_genWalk (hvalid.trans hv) hg', rfl, htable, hcur, hbits⟩
  · obtain ⟨g', hg', htable, hcur, hbits⟩ :=
      genWalk_sameCodes (s' := s.generated g) hwf (genWalk_wf hwf hg) rfl (fun _ => rfl) (fun _ => rfl) hg
    exact ⟨_, execGen_of_genWalk hv hg', rfl, htable, hcur, hbits⟩

/-! ## GEN on a tree (R150 to R157) -/

/-- The codes GEN records are listed from left to right (R154). -/
theorem State.genCodes_leftOf (s : State) (r : Fin 511) : (s.genCodes r).Pairwise fun p q => leftOf p.2 q.2 = true :=
  (leafPaths_leftOf s.arena 511 r []).filter _

/-- The code with no other to its left is the first recorded, at offset 0. -/
theorem recordAll_off_eq_zero {ps : List (Symbol × List Bool)} (hn : (ps.map Prod.fst).Nodup)
    (hp : ps.Pairwise fun p q => leftOf p.2 q.2 = true) (m : Memory) {c : Symbol} {ys : List Bool} (hc : (c, ys) ∈ ps)
    (hfirst : ∀ p ∈ ps, leftOf p.2 ys = false) :
    (((CodeGen.start m).recordAll ps).table[c.toNat]'c.isLt).off = 0 := by
  cases ps with
  | nil => exact absurd hc List.not_mem_nil
  | cons p ps =>
    rcases List.mem_cons.1 hc with rfl | hc
    · exact congrArg CodeEntry.off (recordAll_offset [] ps c ys (List.nodup_cons.1 hn).1 (.start m))
    · have hleft := (List.pairwise_cons.1 hp).1 _ hc
      exact absurd hleft (by simp [hfirst p List.mem_cons_self])

/-- Settles O32: on a tree the walk comes back (`State.TreeOk.genWalk`), having recorded the codes from left to right
in a cleared table. -/
theorem genCompletesOnTree : Obligations.GenCompletesOnTree := by
  intro s hv htree hwf
  obtain ⟨r, _, hg, hnodup, hbits, hmem⟩ := htree.genWalk
  have hcodes := htree.codesOk_of_genWalk (t := s.generated _) hwf hg rfl rfl
  have hcode : ∀ b, ((s.generated _).codeAt b).valid = true → (b, (s.generated _).codeBitsOf b) ∈ s.genCodes r :=
    fun b hb => (hmem b _).2 ⟨hcodes.path b hb, (hcodes.valid b).1 hb⟩
  refine ⟨_, execGen_of_genWalk hv hg, hcodes, fun b hb => ?_, ?_, fun b c hb hc hleft => ?_,
    fun c hc hfirst => ?_, rfl⟩
  · rcases htree.genWalk_entry hwf hg b with ⟨_, habsent⟩ | ⟨xs, off, _, _, hentry, _⟩
    · exact habsent
    · exact absurd (hb.symm.trans (congrArg CodeEntry.valid hentry)) (by simp)
  · exact (recordAll_start_cur _ _).trans_le hbits
  · rw [← State.length_codeBitsOf]
    exact recordAll_leftOf hnodup (State.genCodes_leftOf s r) _ (hcode b hb) (hcode c hc) hleft
  · refine recordAll_off_eq_zero hnodup (State.genCodes_leftOf s r) _ (hcode c hc) fun ⟨b, xs⟩ hp => ?_
    have hb := (hcodes.valid b).2 ((hmem b xs).1 hp).2
    obtain rfl := (Prod.mk.inj (List.inj_on_of_nodup_map hnodup hp (hcode b hb) rfl)).2
    exact hfirst b hb

/-! ## No code begins another (R158) -/

theorem follow_of_leadsTo {s : State} {r : Fin 511} {xs : List Bool} {b : Symbol} (hroot : s.root = some r)
    (h : s.leadsTo xs b) : s.arena.follow r xs = some (symbolLeaf b) := by
  obtain ⟨r', hroot', hf⟩ := followRoot_some h.1
  obtain rfl := Option.some.inj (hroot.symm.trans hroot')
  exact hf

/-- Settles O37: the shorter code's path ends at a leaf, so the longer one does not go on from there. -/
theorem codesArePrefixFree : Obligations.CodesArePrefixFree := by
  rintro s _ hcodes b c hne hb hc ⟨ys, hprefix⟩
  obtain ⟨hb, hleaf⟩ := hcodes.path b hb
  obtain ⟨r, hroot, hb⟩ := followRoot_some hb
  have hc := follow_of_leadsTo hroot (hcodes.path c hc)
  rw [← hprefix] at hc
  obtain rfl := Arena.follow_leaf_end hb hleaf hc
  rw [List.append_nil, hb] at hc
  exact hne (symbolLeaf_inj (Option.some.inj hc))

/-! ## The symbol counted more often has no longer a code (R159)

Of two nodes of a merged tree, the one first in scanmin's order is taken no later by a merge, so its parent is the
other's parent or is created before it, which makes it first in scanmin's order in its turn. So the two paths can be
followed up together, and the one from the first node is no shorter. -/

section
variable {a : Arena} {c i j k k' : Fin 511}

theorem Arena.notAfter.weight_le (h : a.notAfter i j) : a[i].weight ≤ a[j].weight := by
  rcases h with h | ⟨h, _⟩
  · exact h.le
  · exact h.le

theorem Arena.notAfter.antisymm (h : a.notAfter i j) (h' : a.notAfter j i) : i = j := by
  have hw := h.weight_le
  have hw' := h'.weight_le
  have hij : i ≤ j := (h.resolve_left (by omega)).2
  have hji : j ≤ i := (h'.resolve_left (by omega)).2
  exact le_antisymm hij hji

/-- A node that merge `k` finds active was active before every earlier merge that came after its own creation. -/
theorem Arena.activeBefore.earlier (h : a.activeBefore k j) (hk : k' ≤ k) (hj : j < k') : a.activeBefore k' j := by
  obtain ⟨_, hw, hfree⟩ := h
  exact ⟨hj, hw, fun i hi => hfree i (hi.trans_le hk)⟩

theorem Arena.activeBefore.not_childOf (h : a.activeBefore k j) (hi : i < k) : ¬a.childOf j i :=
  have ⟨_, _, hfree⟩ := h
  hfree i hi

theorem Arena.childOf_left {l r : Fin 511} (h : a[k].children = some (l, r)) : a.childOf l k :=
  Arena.childOf_iff.2 ⟨l, r, h, .inl rfl⟩

theorem Arena.childOf_right {l r : Fin 511} (h : a[k].children = some (l, r)) : a.childOf r k :=
  Arena.childOf_iff.2 ⟨l, r, h, .inr rfl⟩

theorem Arena.childOf.eq_or_eq {l r : Fin 511} (hc : a.childOf c k) (h : a[k].children = some (l, r)) :
    c = l ∨ c = r := by
  obtain ⟨l', r', h', hlr⟩ := Arena.childOf_iff.1 hc
  obtain ⟨rfl, rfl⟩ := Prod.mk.inj (Option.some.inj (h.symm.trans h'))
  exact hlr

theorem Arena.takesLightest.child_active (h : a.takesLightest k) (hc : a.childOf c k) : a.activeBefore k c := by
  obtain ⟨l, r, hchildren, _, hl, hr, _⟩ := h
  rcases hc.eq_or_eq hchildren with rfl | rfl
  · exact hl
  · exact hr

/-- What a merge takes comes before every active node that it leaves. -/
theorem Arena.takesLightest.child_notAfter (h : a.takesLightest k) (hc : a.childOf c k) (hj : a.activeBefore k j)
    (hleft : ¬a.childOf j k) : a.notAfter c j := by
  obtain ⟨l, r, hchildren, _, _, _, hlmin, hrmin⟩ := h
  rcases hc.eq_or_eq hchildren with rfl | rfl
  · exact hlmin j hj
  · exact hrmin j hj fun e => hleft (e ▸ Arena.childOf_left hchildren)

end

/-- A path's last step is from a parent to its child. -/
theorem Arena.childOf_of_follow_snoc {a : Arena} {i c : Fin 511} {xs : List Bool} {x : Bool}
    (h : a.follow i (xs ++ [x]) = some c) : ∃ k, a.follow i xs = some k ∧ a.childOf c k := by
  obtain ⟨k, l, r, hk, hchildren, rfl⟩ := Arena.follow_snoc.1 h
  refine ⟨k, hk, ?_⟩
  cases x
  · exact Arena.childOf_left hchildren
  · exact Arena.childOf_right hchildren

/-- Every node BUILD created took the two first active nodes (R133, R134). -/
def State.MergesLightest (s : State) : Prop :=
  ∀ k : Fin 511, 256 ≤ k.val → k.val < s.nextFree → s.arena.takesLightest k

section
variable {s : State} (htree : s.TreeOk) (hlight : s.MergesLightest)
include htree

/-- A parent is a created node, above its child and at least as heavy. -/
theorem State.TreeOk.parent_bounds {c k : Fin 511} (hc : s.arena.childOf c k) :
    256 ≤ k.val ∧ k.val < s.nextFree ∧ c < k ∧ s.arena[c].weight ≤ s.arena[k].weight := by
  obtain ⟨l, r, hchildren, hlr⟩ := Arena.childOf_iff.1 hc
  obtain ⟨hlow, hn⟩ := (htree.internal k).1 (by rw [hchildren]; rfl)
  obtain ⟨hl, hr, _, hweight⟩ := htree.merged k l r hchildren
  rcases hlr with rfl | rfl
  · exact ⟨hlow, hn, hl, by omega⟩
  · exact ⟨hlow, hn, hr, by omega⟩

include hlight

/-- The nodes are created in the order of their weights. -/
theorem weight_le_of_created {k k' : Fin 511} (hlow : 256 ≤ k.val) (hk : k ≤ k') (hn : k'.val < s.nextFree) :
    s.arena[k].weight ≤ s.arena[k'].weight := by
  induction k' using WellFoundedLT.induction with
  | ind k' ih =>
    rcases hk.eq_or_lt with rfl | hlt
    · exact le_refl _
    have hlow' : 256 ≤ k'.val := hlow.trans hk
    by_cases hlater : ∃ c, s.arena.childOf c k' ∧ k ≤ c
    · obtain ⟨c, hc, hkc⟩ := hlater
      obtain ⟨_, _, hck, hw⟩ := htree.parent_bounds hc
      exact (ih c hck hkc (hn.trans' hck)).trans hw
    · have htakes := hlight k hlow (hn.trans' hlt)
      have htakes' := hlight k' hlow' hn
      have hbefore : ∀ c c', s.arena.childOf c k → s.arena.childOf c' k' →
          s.arena[c].weight ≤ s.arena[c'].weight := by
        intro c c' hc hc'
        have hactive := htakes'.child_active hc'
        have hold : c' < k := not_le.1 fun hkc => hlater ⟨c', hc', hkc⟩
        exact (htakes.child_notAfter hc (hactive.earlier hk hold) (hactive.not_childOf hlt)).weight_le
      obtain ⟨l, r, hchildren, _⟩ := htakes
      obtain ⟨l', r', hchildren', _⟩ := htakes'
      obtain ⟨_, _, _, hw⟩ := htree.merged k l r hchildren
      obtain ⟨_, _, _, hw'⟩ := htree.merged k' l' r' hchildren'
      have hl := hbefore l l' (Arena.childOf_left hchildren) (Arena.childOf_left hchildren')
      have hr := hbefore r r' (Arena.childOf_right hchildren) (Arena.childOf_right hchildren')
      omega

/-- A node not created before the parent of `d` does not come before `d` in scanmin's order. -/
theorem not_notAfter_of_parent_le {c d p : Fin 511} (hd : s.arena.childOf d p) (hp : p ≤ c)
    (hn : c.val < s.nextFree) : ¬s.arena.notAfter c d := by
  obtain ⟨hlow, _, hdp, hw⟩ := htree.parent_bounds hd
  have hpc := weight_le_of_created htree hlight hlow hp hn
  rintro (hlighter | ⟨_, hcd⟩)
  · omega
  · exact absurd (hdp.trans_le hp) (not_lt.2 hcd)

/-- Of two nodes the first in scanmin's order is taken no later. -/
theorem parent_le_of_notAfter {c d p q : Fin 511} (hc : s.arena.childOf c p) (hd : s.arena.childOf d q)
    (hcd : s.arena.notAfter c d) : p ≤ q := by
  by_contra hqp
  have hqp : q < p := not_le.1 hqp
  obtain ⟨hplow, hpn, hcp, _⟩ := htree.parent_bounds hc
  obtain ⟨hqlow, hqn, _, _⟩ := htree.parent_bounds hd
  have hold : c < q := not_le.1 fun hqc => not_notAfter_of_parent_le htree hlight hd hqc (hpn.trans' hcp) hcd
  have hactive := (hlight p hplow hpn).child_active hc
  have hdc := (hlight q hqlow hqn).child_notAfter hd (hactive.earlier hqp.le hold) (hactive.not_childOf hqp)
  obtain rfl := hcd.antisymm hdc
  exact hactive.not_childOf hqp hd

/-- Of two nodes below ROOT the first in scanmin's order has no shorter a path. -/
theorem path_length_le_of_notAfter {r : Fin 511} (hr : r.val < s.nextFree) (xs ys : List Bool) {c d : Fin 511}
    (hc : s.arena.follow r xs = some c) (hd : s.arena.follow r ys = some d) (hcd : s.arena.notAfter c d) :
    ys.length ≤ xs.length := by
  induction ys using List.reverseRecOn generalizing xs c d with
  | nil => exact Nat.zero_le _
  | append_singleton ys y ih =>
    obtain ⟨q, hq, hdq⟩ := Arena.childOf_of_follow_snoc hd
    rcases List.eq_nil_or_concat' xs with rfl | ⟨xs, x, rfl⟩
    · obtain rfl := Option.some.inj hc
      have hqr : q ≤ r := Fin.le_def.2 (le_of_add_le_left (htree.descends.follow_le hq))
      exact absurd hcd (not_notAfter_of_parent_le htree hlight hdq hqr hr)
    · obtain ⟨p, hp, hcp⟩ := Arena.childOf_of_follow_snoc hc
      obtain ⟨hplow, _⟩ := htree.parent_bounds hcp
      obtain ⟨_, hqn, _⟩ := htree.parent_bounds hdq
      have hpq := parent_le_of_notAfter htree hlight hcp hdq hcd
      have hw := weight_le_of_created htree hlight hplow hpq hqn
      have hpq : s.arena.notAfter p q := hw.lt_or_eq.imp id fun e => ⟨e, hpq⟩
      simpa using ih xs hp hq hpq

/-- Of two symbols the one counted less often has no shorter a path. -/
theorem leadsTo_length_le {b c : Symbol} {xs ys : List Bool} (hb : s.leadsTo xs b) (hc : s.leadsTo ys c)
    (hfreq : s.freqAt c < s.freqAt b) : xs.length ≤ ys.length := by
  obtain ⟨r, hroot, _, hn⟩ := htree.root
  refine path_length_le_of_notAfter htree hlight (by omega) ys xs (follow_of_leadsTo hroot hc)
    (follow_of_leadsTo hroot hb) (.inl ?_)
  rwa [htree.leaves, htree.leaves]

end

/-- On a tree a valid entry has the length of the path to a counted leaf, whatever CODEBUF held before GEN. -/
theorem State.TreeOk.len_of_valid {s : State} {g : CodeGen} (h : s.TreeOk) (hg : s.genWalk = .done g) {b : Symbol}
    (hb : (g.table[b.toNat]'b.isLt).valid = true) :
    ∃ xs, s.leadsTo xs b ∧ s.freqAt b ≠ 0 ∧ (g.table[b.toNat]'b.isLt).len = xs.length := by
  have hempty : State.TreeOk { s with codebuf := [] } := h.congr rfl rfl rfl rfl
  obtain ⟨r, hroot, rfl⟩ := genWalk_eq_recordAll hg
  obtain ⟨r', hroot', hg', _⟩ := hempty.genWalk
  obtain rfl := Option.some.inj (hroot.symm.trans hroot')
  have htable : ((CodeGen.start s.codebuf).recordAll (s.genCodes r)).table =
      ((CodeGen.start []).recordAll (s.genCodes r)).table := recordAll_table ..
  simp only [htable] at hb ⊢
  rcases hempty.genWalk_entry rfl hg' b with ⟨_, habsent⟩ | ⟨xs, off, hfreq, hleads, hentry, _⟩
  · exact absurd (hb.symm.trans (congrArg CodeEntry.valid habsent)) (by simp [CodeEntry.absent])
  · exact ⟨xs, hleads, hfreq, congrArg CodeEntry.len hentry⟩

/-- Two counted symbols are no single one. -/
theorem two_le_distinctSymbols {s : State} {b c : Symbol} (hne : b ≠ c) (hb : s.freqAt b ≠ 0)
    (hc : s.freqAt c ≠ 0) : 2 ≤ s.distinctSymbols := by
  rw [State.distinctSymbols_eq]
  rcases hn : countNonzero s.freq with _ | _ | n
  · exact absurd (countNonzero_eq_zero.1 hn b) hb
  · obtain ⟨d, _, hothers, _⟩ := execBuild_one hn
    have honly : ∀ e, s.freqAt e ≠ 0 → e = d := fun e he => by
      by_contra hed
      exact he (hothers e hed)
    exact absurd ((honly b hb).trans (honly c hc).symm) hne
  · omega

/-- A BUILD that leaves TREE_VALID = 1 has not raised. -/
theorem last_ok_of_build {s t : State} (ht : execBuild s = .next t) (hv : t.treeValid = true) : t.last = .ok := by
  unfold execBuild at ht
  split at ht
  · rw [raise_next ht] at hv
    exact absurd hv (by simp [State.initBuild])
  · rw [finish_next ht, State.complete_last]
  · rw [finish_next ht, State.complete_last]

/-- Settles O36: two symbols counted unequally are two counted symbols, so BUILD has merged, and the path of the one
counted less often is no shorter. -/
theorem lengthsAreMonotonic : Obligations.LengthsAreMonotonic := by
  intro s t u hbuild hgen hok b c hb hc hfreq
  obtain ⟨g, hv, hg, rfl⟩ := genWalk_of_execGen hgen hok
  have htree := execBuild_treeOk hbuild (last_ok_of_build hbuild hv)
  obtain ⟨xs, hxs, hbfreq, hblen⟩ := htree.len_of_valid hg hb
  obtain ⟨ys, hys, hcfreq, hclen⟩ := htree.len_of_valid hg hc
  have hsame := State.freqAt_congr (execBuild_freq hbuild)
  have hne : b ≠ c := fun e => absurd (e ▸ hfreq) (lt_irrefl _)
  have htwo : 2 ≤ s.distinctSymbols := two_le_distinctSymbols hne (hsame b ▸ hbfreq) (hsame c ▸ hcfreq)
  calc (g.table[b.toNat]'b.isLt).len = xs.length := hblen
    _ ≤ ys.length := leadsTo_length_le htree (mergesTakeLightest s t htwo hbuild) hxs hys hfreq
    _ = (g.table[c.toNat]'c.isLt).len := hclen.symm

/-! ## Round trip of one symbol (R157, R192, R200) -/

/-- An ENC that completes has appended the bits of a valid code (R190). -/
theorem execEnc_ok {s t : State} {b : Symbol} (h : exec (.enc b) s = .next t) (hok : t.last = .ok) :
    s.codesValid = true ∧ (s.codeAt b).valid = true ∧
      t = (s.streamWriteBits (s.codeBitsOf b)).complete .ok (s.codeAt b).len := by
  change execEnc b s = _ at h
  unfold execEnc at h
  split at h
  · next hv =>
    split at h
    · next hb =>
      split at h
      · rw [raise_next h] at hok; exact absurd hok (by simp)
      · exact ⟨hv, hb, finish_next h⟩
    · rw [raise_next h] at hok; exact absurd hok (by simp)
  · rw [raise_next h] at hok; exact absurd hok (by simp)

/-- DSYM where the stream holds the branch bits of `b` (R200, R201). -/
theorem execDsym_of_symbol {s : State} {xs : List Bool} {b : Symbol} (hv : s.treeValid = true) (h : s.leadsTo xs b)
    (hne : xs ≠ []) (hx : s.stream.readBits s.sCur xs.length = xs) (hle : s.sCur + xs.length ≤ s.sWlen) :
    exec .dsym s = finish { s with sCur := s.sCur + xs.length } b.toNat := by
  change execDsym s = _
  rw [execDsym, if_pos hv, State.decodeOne_symbol h hne hx hle]

/-- Settles O59: the bits ENC appends are the path to the symbol's leaf, which DSYM follows. -/
theorem symbolRoundTrip : Obligations.SymbolRoundTrip := by
  intro s t b hinv henc hok
  obtain ⟨hcv, hvalid, rfl⟩ := execEnc_ok henc hok
  have htv := hinv.basic.flags.codes hcv
  have hleads := (hinv.codes hcv).path b hvalid
  have hne := List.ne_nil_of_length_pos ((hinv.tree htv).depth _ b hleads).1
  rw [State.streamWriteBits_eq s _ (.inl hne)]
  exact ⟨_, execDsym_of_symbol htv hleads hne
    (Memory.readBits_writeBits s.sCur _ hinv.basic.buffers.stream) (le_max_right _ _), rfl, rfl, rfl⟩

end Sys2Proof.Machine
end

section
/-! The commands that only write registers (O20), the appends that do not fit (O39), and SRBIT (O40). -/

namespace Sys2Proof.Machine

/-- Settles O20: each command finishes, with RESULT 0, on the state with its registers written. -/
theorem simpleCommandsComplete : Obligations.SimpleCommandsComplete := by
  intro s
  refine ⟨?nop, ?clrerr, ?sreset, ?sclear, ?oclear⟩
  case nop => exact finish_eq s 0
  case clrerr => exact finish_eq { s with sticky := 0#32 } 0
  case sreset => exact finish_eq { s with sCur := 0 } 0
  case sclear => exact finish_eq { s with sCur := 0, sWlen := 0 } 0
  case oclear => exact finish_eq { s with oCnt := 0 } 0

/-! ## Appends that do not fit (R175) -/

theorem execSwbits_of_not_fits {s : State} {k : BitVec 5} (v : BitVec 16)
    (h : s.params.streamBits < s.sCur + k.toNat) : execSwbits k v s = raise s .capacityExceeded 0 := by
  rw [execSwbits, if_pos h]

/-- The symbol has a code, so the capacity is the check that fails (R190, R238). -/
theorem execEnc_of_not_fits {s : State} {b : Symbol} (hcodes : s.codesValid = true) (hb : (s.codeAt b).valid = true)
    (h : s.params.streamBits < s.sCur + (s.codeAt b).len) : execEnc b s = raise s .capacityExceeded 0 := by
  rw [execEnc, if_pos hcodes, if_pos hb, if_pos h]

/-- Settles O39: both commands test the room for all their bits before they write the first. -/
theorem capacityIsAllOrNothing : Obligations.CapacityIsAllOrNothing := by
  intro s
  constructor
  · intro k v h
    exact (execSwbits_of_not_fits v h).trans (raise_eq s .capacityExceeded 0)
  · intro b hcodes hb h
    exact (execEnc_of_not_fits hcodes hb h).trans (raise_eq s .capacityExceeded 0)

/-! ## SRBIT (R176, R177) -/

theorem execSrbit_of_lt {s : State} (h : s.sCur < s.sWlen) :
    execSrbit s = finish s.streamAdvance s.streamBit.toNat := by
  rw [execSrbit, if_neg h.not_ge]

theorem execSrbit_of_ge {s : State} (h : s.sWlen ≤ s.sCur) : execSrbit s = raise s .overread 0 := by
  rw [execSrbit, if_pos h]

/-- A bit as a RESULT word. -/
theorem ofNat_toNat_bool (x : Bool) : BitVec.ofNat 32 x.toNat = if x then 1#32 else 0#32 := by
  cases x <;> rfl

/-- Settles O40, by the two cases of SRBIT's check: the cursor inside the written length, and at or past it. -/
theorem srbitReads : Obligations.SrbitReads := by
  intro s
  constructor
  · intro h
    change execSrbit s = _
    rw [execSrbit_of_lt h, finish_eq, ofNat_toNat_bool]
    rfl
  · intro h
    exact (execSrbit_of_ge h).trans (raise_eq s .overread 0)

end Sys2Proof.Machine
end

section
/-! ENC appends the bits of a symbol's code (O41), and its checks before the room for them (O42). -/

namespace Sys2Proof.Machine

/-! ## The cases of ENC, in the order of its checks (R190, R238) -/

theorem execEnc_of_no_codes {s : State} (b : Symbol) (hcodes : s.codesValid = false) :
    execEnc b s = raise s .notReady 0 := by
  rw [execEnc, if_neg (ne_true_of_eq_false hcodes)]

theorem execEnc_of_no_entry {s : State} {b : Symbol} (hcodes : s.codesValid = true)
    (hb : (s.codeAt b).valid = false) : execEnc b s = raise s .unknownSymbol 0 := by
  rw [execEnc, if_pos hcodes, if_neg (ne_true_of_eq_false hb)]

/-- ENC with room for the code. The entry may be empty, so the high-water mark must not lie below the cursor. -/
theorem execEnc_of_fits {s : State} {b : Symbol} (hcodes : s.codesValid = true) (hb : (s.codeAt b).valid = true)
    (hcur : s.sCur ≤ s.sWlen) (hfit : s.sCur + (s.codeAt b).len ≤ s.params.streamBits) :
    execEnc b s = .next { s with
      stream := s.stream.writeBits s.sCur (s.codeBitsOf b)
      sCur := s.sCur + (s.codeAt b).len
      sWlen := max s.sWlen (s.sCur + (s.codeAt b).len)
      last := .ok
      result := BitVec.ofNat 32 (s.codeAt b).len } := by
  rw [execEnc, if_pos hcodes, if_pos hb, if_neg hfit.not_gt, State.streamWriteBits_eq s _ (.inr hcur),
    State.length_codeBitsOf, finish_eq]

theorem State.getElem_codeBitsOf (s : State) (b : Symbol) (j : Nat) (h : j < (s.codeBitsOf b).length) :
    (s.codeBitsOf b)[j] = s.codebuf.readBit ((s.codeAt b).off + j) :=
  Memory.getElem_readBits _ _ _ _ h

/-- Settles O41: the bits written are the code's, and every other position is outside them. -/
theorem encAppendsCode : Obligations.EncAppendsCode := by
  intro s b hcodes hb hwf hcur hfit
  refine ⟨_, execEnc_of_fits hcodes hb hcur hfit, fun j hj => ?_, fun p hp => ?_, rfl⟩
  · have hj : j < (s.codeBitsOf b).length := by rwa [State.length_codeBitsOf]
    exact (Memory.readBit_writeBits s.sCur j _ hwf hj).trans (s.getElem_codeBitsOf b j hj)
  · exact Memory.readBit_writeBits_of_outside s.sCur p _ hwf (by rwa [State.length_codeBitsOf])

/-- Settles O42: without codes the first check fails, and with codes but no entry the second does. -/
theorem encErrors : Obligations.EncErrors := by
  intro s b
  constructor
  · intro hcodes
    exact (execEnc_of_no_codes b hcodes).trans (raise_eq s .notReady 0)
  · intro hcodes hb
    exact (execEnc_of_no_entry hcodes hb).trans (raise_eq s .unknownSymbol 0)

end Sys2Proof.Machine
end

section
/-! The decoder: one symbol (O44), and the runs of DRUN (O45, O46) and DSENT (O47, O48). -/

namespace Sys2Proof.Machine

/-! ## One symbol (R200 to R202, R208) -/

theorem execDsym_of_endsInsideCode {s : State} (hv : s.treeValid = true) (h : s.endsInsideCode s.sCur = true) :
    exec .dsym s = raise s .overread 0 := by
  change execDsym s = _
  rw [execDsym, if_pos hv, State.decodeOne_overread h]

/-- Settles O44: DecodeOne answers the symbol whose bits are held, or OVERREAD where the bits left end inside a code. -/
theorem dsymDecodesOrRollsBack : Obligations.DsymDecodesOrRollsBack := by
  intro s hv
  constructor
  · intro b xs hleads hne hx hle
    exact (execDsym_of_symbol hv hleads hne hx hle).trans (finish_eq _ _)
  · intro hend
    exact (execDsym_of_endsInsideCode hv hend).trans (raise_eq s .overread 0)

/-! ## The state after some symbols -/

theorem holdsSymbols_append {s : State} {cs : List Symbol} {e : Nat} (bs : List Symbol) {cur : Nat} :
    s.holdsSymbols cur (bs ++ cs) e ↔ ∃ m, s.holdsSymbols cur bs m ∧ s.holdsSymbols m cs e := by
  induction bs generalizing cur with
  | nil => simp [State.holdsSymbols]
  | cons b bs ih =>
    simp only [List.cons_append, State.holdsSymbols, ih]
    constructor
    · rintro ⟨xs, hne, hleads, hx, hle, m, hbs, hcs⟩
      exact ⟨m, ⟨xs, hne, hleads, hx, hle, hbs⟩, hcs⟩
    · rintro ⟨m, ⟨xs, hne, hleads, hx, hle, hbs⟩, hcs⟩
      exact ⟨xs, hne, hleads, hx, hle, m, hbs, hcs⟩

/-- The symbols are no more than the bits left. -/
theorem length_le_of_holdsSymbols {s : State} {bs : List Symbol} {cur e : Nat} (h : s.holdsSymbols cur bs e) :
    bs.length ≤ s.sWlen - cur := by
  obtain ⟨hbits, hend⟩ := holdsSymbols_length bs h
  rcases eq_or_ne bs [] with rfl | hne
  · exact Nat.zero_le _
  · have := hend hne
    omega

theorem Memory.writeBytes_append (m : Memory) (k : Nat) (bs cs : List Symbol) :
    m.writeBytes k (bs ++ cs) = (m.writeBytes k bs).writeBytes (k + bs.length) cs := by
  induction bs generalizing m k with
  | nil => rfl
  | cons b bs ih =>
    rw [List.cons_append, Memory.writeBytes, Memory.writeBytes, ih, List.length_cons, Nat.add_right_comm, Nat.add_assoc]

/-- One more symbol at the end. -/
theorem State.emit_emitAll (s : State) (bs : List Symbol) (b : Symbol) (cur e : Nat) :
    (s.emitAll bs cur).emit b e = s.emitAll (bs ++ [b]) e := by
  simp only [State.emitAll, State.emit, Memory.writeBytes_append, Memory.writeBytes, List.length_append,
    List.length_singleton, Nat.add_assoc]

/-! ## What ends a loop before its next symbol (R203, R205, R208) -/

/-- A decode loop stops here with the code `c`, OUTBUF being tested before the stream (R238). -/
def State.StopsDecoding (s : State) (c : ResultCode) : Prop :=
  s.oCnt = s.params.outBytes ∧ c = .capacityExceeded ∨
    s.oCnt < s.params.outBytes ∧ s.endsInsideCode s.sCur = true ∧ c = .overread

namespace State.StopsDecoding
variable {s : State} {c : ResultCode} (h : s.StopsDecoding c)
include h

theorem drunLoop_succ (n cnt : Nat) : drunLoop (n + 1) cnt s = raise s c cnt := by
  rw [drunLoop]
  rcases h with ⟨hfull, rfl⟩ | ⟨hroom, hend, rfl⟩
  · rw [if_pos hfull]
  · rw [if_neg hroom.ne, State.decodeOne_overread hend]

theorem dsentLoop_succ (n cnt : Nat) : dsentLoop (n + 1) cnt s = raise s c cnt := by
  rw [dsentLoop]
  rcases h with ⟨hfull, rfl⟩ | ⟨hroom, hend, rfl⟩
  · rw [if_pos hfull]
  · rw [if_neg hroom.ne, State.decodeOne_overread hend]

theorem room : s.oCnt ≤ s.params.outBytes := by
  rcases h with ⟨hfull, _⟩ | ⟨hroom, _⟩
  · exact hfull.le
  · exact hroom.le

/-- The STICKY bit is that of one of the two codes. -/
theorem raise_eq (r : Nat) : raise s c r = .next { s with
    last := c
    result := BitVec.ofNat 32 r
    sticky := s.sticky ||| (if c = .overread then 0x10#32 else 0x02#32) } := by
  rcases h with ⟨_, rfl⟩ | ⟨_, _, rfl⟩
  · rfl
  · rfl

end State.StopsDecoding

/-! ## DRUN (R203) -/

section
variable {s : State} {bs : List Symbol} {e : Nat} (hv : s.treeValid = true) (h : s.holdsSymbols s.sCur bs e)
include hv h

/-- DRUN after the symbols `bs`, with `k` more to decode. -/
theorem execDrun_of_holdsSymbols (hroom : s.oCnt + bs.length ≤ s.params.outBytes) {n : BitVec 24} {k : Nat}
    (hn : n.toNat = bs.length + k) : execDrun n s = drunLoop k bs.length (s.emitAll bs e) := by
  rw [execDrun, if_pos hv, symbolCount, hn, drunLoop_emits bs h hroom, Nat.zero_add]

theorem execDrun_finishes (hroom : s.oCnt + bs.length ≤ s.params.outBytes) {n : BitVec 24}
    (hn : bs.length = n.toNat) : execDrun n s = finish (s.emitAll bs e) bs.length :=
  execDrun_of_holdsSymbols (k := 0) hv h hroom hn.symm

theorem execDrun_stops {n : BitVec 24} (hn : bs.length < n.toNat) {c : ResultCode}
    (hstop : (s.emitAll bs e).StopsDecoding c) : execDrun n s = raise (s.emitAll bs e) c bs.length := by
  obtain ⟨k, hk⟩ := Nat.exists_eq_add_of_lt hn
  exact (execDrun_of_holdsSymbols hv h hstop.room hk).trans (hstop.drunLoop_succ k _)

end

/-- Settles O45: DRUN's loop emits the `n` symbols and finishes. -/
theorem drunDecodes : Obligations.DrunDecodes := by
  intro s n bs e hv hwf h hn hroom
  obtain ⟨hnew, hold⟩ := Memory.read_writeBytes s.oCnt bs hwf
  exact ⟨_, (execDrun_finishes hv h hroom hn).trans (finish_eq _ _), hnew, hold, rfl⟩

/-- Settles O46: DRUN's loop emits the symbols held and stops before the next. -/
theorem drunStopsEarly : Obligations.DrunStopsEarly := by
  intro s n bs e c hv hwf h hn hstop
  have hstop : (s.emitAll bs e).StopsDecoding c := hstop
  obtain ⟨hnew, hold⟩ := Memory.read_writeBytes s.oCnt bs hwf
  exact ⟨_, (execDrun_stops hv h hn hstop).trans (hstop.raise_eq _), hnew, hold, rfl⟩

/-! ## DSENT (R205, R206) -/

section
variable {s : State} {bs : List Symbol} {e : Nat} (hv : s.treeValid = true) (h0 : 0#8 ∉ bs)
include hv h0

/-- DSENT after the symbols `bs`: its fuel is one more than the bits left, and each symbol has taken one or more of
them, so there is some for the next symbol (R209). -/
theorem execDsent_of_holdsSymbols (h : s.holdsSymbols s.sCur bs e)
    (hroom : s.oCnt + bs.length ≤ s.params.outBytes) :
    ∃ k, execDsent s = dsentLoop (k + 1) bs.length (s.emitAll bs e) := by
  obtain ⟨k, hk⟩ := Nat.exists_eq_add_of_lt (Nat.lt_add_one_of_le (length_le_of_holdsSymbols h))
  rw [Nat.add_assoc] at hk
  exact ⟨k, by rw [execDsent, if_pos hv, hk, dsentLoop_emits bs h h0 hroom, Nat.zero_add]⟩

theorem execDsent_finishes (h : s.holdsSymbols s.sCur (bs ++ [0#8]) e)
    (hroom : s.oCnt + bs.length + 1 ≤ s.params.outBytes) :
    execDsent s = finish (s.emitAll (bs ++ [0#8]) e) (bs.length + 1) := by
  obtain ⟨m, hbs, xs, hne, hleads, hx, hle, hend⟩ := (holdsSymbols_append bs).1 h
  obtain rfl : m + xs.length = e := hend
  obtain ⟨k, hk⟩ := execDsent_of_holdsSymbols hv h0 hbs (Nat.le_of_succ_le hroom)
  have hnotFull : (s.emitAll bs m).oCnt ≠ (s.emitAll bs m).params.outBytes := (Nat.lt_of_succ_le hroom).ne
  have hsentinel : (s.emitAll bs m).decodeOne = .symbol 0#8 (m + xs.length) :=
    State.decodeOne_symbol (s := s.emitAll bs m) hleads hne hx hle
  rw [hk, dsentLoop, if_neg hnotFull, hsentinel, ← State.emit_emitAll s bs 0#8 m]
  exact if_pos rfl

theorem execDsent_stops (h : s.holdsSymbols s.sCur bs e) {c : ResultCode}
    (hstop : (s.emitAll bs e).StopsDecoding c) : execDsent s = raise (s.emitAll bs e) c bs.length := by
  obtain ⟨k, hk⟩ := execDsent_of_holdsSymbols hv h0 h hstop.room
  exact hk.trans (hstop.dsentLoop_succ k _)

end

/-- Settles O47: DSENT's loop emits the symbols, and then the 0, which ends it. -/
theorem dsentDecodes : Obligations.DsentDecodes := by
  intro s bs e hv hwf h0 h hroom
  obtain ⟨hnew, hold⟩ := Memory.read_writeBytes s.oCnt (bs ++ [0#8]) hwf
  rw [List.length_append, List.length_singleton] at hold
  have hzero := hnew bs.length (by simp)
  rw [List.getElem_concat_length rfl] at hzero
  refine ⟨_, (execDsent_finishes hv h0 h hroom).trans (finish_eq _ _), fun j hj => ?_, hzero, hold, ?_⟩
  · exact (hnew j (by rw [List.length_append]; omega)).trans (List.getElem_append_left hj)
  · simp only [State.emitAll, List.length_append, List.length_singleton, Nat.add_assoc]

/-- Settles O48: DSENT's loop emits the symbols held and stops before the next. -/
theorem dsentStopsEarly : Obligations.DsentStopsEarly := by
  intro s bs e c hv hwf h0 h hstop
  have hstop : (s.emitAll bs e).StopsDecoding c := hstop
  obtain ⟨hnew, hold⟩ := Memory.read_writeBytes s.oCnt bs hwf
  exact ⟨_, (execDsent_stops hv h0 h hstop).trans (hstop.raise_eq _), hnew, hold, rfl⟩

end Sys2Proof.Machine
end

section
/-! In a state of the invariant every command completes (O58). -/

namespace Sys2Proof.Machine

/-- The command has a next state: no fault and no refusal (R233). -/
def Completes (o : Outcome) : Prop := ∃ t, o = .next t

theorem Completes.finish (s : State) (r : Nat) : Completes (finish s r) := ⟨_, rfl⟩

theorem Completes.raise (s : State) (c : ResultCode) (r : Nat) : Completes (raise s c r) := ⟨_, rfl⟩

/-! ## The commands that need no tree -/

section
variable (s : State)

theorem execFacc_completes (b : Symbol) : Completes (execFacc b s) := by
  unfold execFacc
  split
  · exact .raise ..
  · exact .finish ..

theorem execBuild_completes : Completes (execBuild s) :=
  (execBuild_treeData s).imp fun _ h => h.1

theorem execSwbits_completes (k : BitVec 5) (v : BitVec 16) : Completes (execSwbits k v s) := by
  unfold execSwbits
  split
  · exact .raise ..
  · exact .finish ..

theorem execSrbit_completes : Completes (execSrbit s) := by
  unfold execSrbit
  split
  · exact .raise ..
  · exact .finish ..

theorem execEnc_completes (b : Symbol) : Completes (execEnc b s) := by
  unfold execEnc
  split
  · split
    · split
      · exact .raise ..
      · exact .finish ..
    · exact .raise ..
  · exact .raise ..

end

/-! ## The walks on a tree (R209) -/

section
variable {s : State}

theorem execGen_completes (h : s.treeValid = true → s.TreeOk) : Completes (execGen s) := by
  by_cases hv : s.treeValid = true
  · obtain ⟨r, _, hg, _⟩ := (h hv).genWalk
    exact ⟨_, execGen_of_genWalk hv hg⟩
  · rw [execGen, if_neg hv]
    exact .raise ..

theorem execDsym_completes (h : s.treeValid = true → s.TreeOk) : Completes (execDsym s) := by
  unfold execDsym
  split
  · next hv =>
    rcases State.decodeOne_cases (h hv) with ⟨b, xs, hd, _⟩ | ⟨hd, _⟩
    · rw [hd]; exact .finish ..
    · rw [hd]; exact .raise ..
  · exact .raise ..

/-- A symbol emitted leaves the tree as it was. -/
theorem State.TreeOk.emit (h : s.TreeOk) (b : Symbol) (cur : Nat) : (s.emit b cur).TreeOk := h.of_treeData rfl

theorem drunLoop_completes (h : s.TreeOk) (n cnt : Nat) : Completes (drunLoop n cnt s) := by
  induction n generalizing s cnt with
  | zero => exact .finish ..
  | succ n ih =>
    rw [drunLoop]
    split
    · exact .raise ..
    · rcases State.decodeOne_cases h with ⟨b, xs, hd, _⟩ | ⟨hd, _⟩
      · rw [hd]; exact ih (h.emit b _) _
      · rw [hd]; exact .raise ..

/-- Each symbol of DSENT takes at least one of the bits left, so a fuel larger than their number lasts. -/
theorem dsentLoop_completes (h : s.TreeOk) {fuel : Nat} (hfuel : s.sWlen - s.sCur < fuel) (cnt : Nat) :
    Completes (dsentLoop fuel cnt s) := by
  induction fuel generalizing s cnt with
  | zero => exact absurd hfuel (Nat.not_lt_zero _)
  | succ fuel ih =>
    rw [dsentLoop]
    split
    · exact .raise ..
    · rcases State.decodeOne_cases h with ⟨b, xs, hd, hne, _, _, hle⟩ | ⟨hd, _⟩
      · rw [hd]
        dsimp only
        split
        · exact .finish ..
        · have hpos := List.length_pos_iff.2 hne
          refine ih (h.emit b _) ?_ _
          rw [State.emit_sWlen, State.emit_sCur]
          omega
      · rw [hd]; exact .raise ..

theorem execDrun_completes (h : s.treeValid = true → s.TreeOk) (n : BitVec 24) : Completes (execDrun n s) := by
  unfold execDrun
  split
  · next hv => exact drunLoop_completes (h hv) _ _
  · exact .raise ..

theorem execDsent_completes (h : s.treeValid = true → s.TreeOk) : Completes (execDsent s) := by
  unfold execDsent
  split
  · next hv => exact dsentLoop_completes (h hv) (Nat.lt_succ_self _) _
  · exact .raise ..

end

/-- Settles O58: of the commands only GEN, DSYM, DRUN and DSENT can stop, and none of them does on a tree. -/
theorem everyCommandCompletes : Obligations.EveryCommandCompletes := by
  intro s i hinv
  cases i with
  | nop => exact Completes.finish ..
  | freset => exact Completes.finish ..
  | facc b => exact execFacc_completes s b
  | build => exact execBuild_completes s
  | gen => exact execGen_completes hinv.tree
  | sreset => exact Completes.finish ..
  | sclear => exact Completes.finish ..
  | swbits k v => exact execSwbits_completes s k v
  | srbit => exact execSrbit_completes s
  | enc b => exact execEnc_completes s b
  | dsym => exact execDsym_completes hinv.tree
  | drun n => exact execDrun_completes hinv.tree n
  | dsent => exact execDsent_completes hinv.tree
  | oclear => exact Completes.finish ..
  | clrerr => exact Completes.finish ..
  | srst => exact ⟨_, rfl⟩

end Sys2Proof.Machine
end

section
/-! The round trip of a whole input (O60): the run of commands leaves a stream that holds the input, and both decode
runs read it back. -/

namespace Sys2Proof.Machine

/-! ## Runs of commands that all end with OK -/

theorem runOk_cons {i : Instr} {is : List Instr} {s t : State} (h : runOk (i :: is) s = some t) :
    ∃ u, exec i s = .next u ∧ u.last = .ok ∧ runOk is u = some t := by
  rw [runOk] at h
  split at h
  · next u hu =>
    split at h
    · next hok => exact ⟨u, hu, hok, h⟩
    · exact absurd h (by simp)
  · exact absurd h (by simp)
  · exact absurd h (by simp)

theorem runOk_append (is : List Instr) {js : List Instr} {s t : State} (h : runOk (is ++ js) s = some t) :
    ∃ u, runOk is s = some u ∧ runOk js u = some t := by
  induction is generalizing s with
  | nil => exact ⟨s, rfl, h⟩
  | cons i is ih =>
    obtain ⟨v, hv, hok, hrest⟩ := runOk_cons h
    obtain ⟨u, hu, hjs⟩ := ih hrest
    exact ⟨u, by simp only [runOk, hv, if_pos hok, hu], hjs⟩

/-! ## Up to the code table -/

/-- The canonical form of the three buffers (log 13). -/
structure State.BuffersWf (s : State) : Prop where
  codebuf : s.codebuf.wf = true
  stream : s.stream.wf = true
  outbuf : s.outbuf.wf = true

theorem State.BuffersOk.buffersWf {s : State} (h : s.BuffersOk) : s.BuffersWf := ⟨h.codebuf, h.stream, h.outbuf⟩

/-- Commands each of which keeps a predicate keep it together. -/
theorem runOk_keeps {p : State → Prop} {is : List Instr}
    (hp : ∀ i ∈ is, ∀ u v, exec i u = .next v → p u → p v) {s t : State} (h : runOk is s = some t) (hs : p s) :
    p t := by
  induction is generalizing s with
  | nil => exact Option.some.inj h ▸ hs
  | cons i is ih =>
    obtain ⟨hi, his⟩ := List.forall_mem_cons.1 hp
    obtain ⟨u, hu, _, hrest⟩ := runOk_cons h
    exact ih his hrest (hi s u hu hs)

section
variable {s t : State} (hs : s.BuffersWf)
include hs

theorem execFreset_buffersWf (h : execFreset s = .next t) : t.BuffersWf :=
  finish_next h ▸ ⟨hs.codebuf, hs.stream, hs.outbuf⟩

theorem execFacc_buffersWf {b : Symbol} (h : execFacc b s = .next t) : t.BuffersWf := by
  unfold execFacc at h
  split at h
  · exact raise_next h ▸ ⟨hs.codebuf, hs.stream, hs.outbuf⟩
  · exact finish_next h ▸ ⟨hs.codebuf, hs.stream, hs.outbuf⟩

theorem execBuild_buffersWf (h : execBuild s = .next t) : t.BuffersWf := by
  unfold execBuild at h
  split at h
  · exact raise_next h ▸ ⟨hs.codebuf, hs.stream, hs.outbuf⟩
  · exact finish_next h ▸ ⟨hs.codebuf, hs.stream, hs.outbuf⟩
  · exact finish_next h ▸ ⟨hs.codebuf, hs.stream, hs.outbuf⟩

theorem runOk_count_buffersWf {bs : List Symbol} (h : runOk (.freset :: bs.map .facc) s = some t) : t.BuffersWf := by
  refine runOk_keeps (p := State.BuffersWf) (fun i hi u v huv hu => ?_) h hs
  rcases List.mem_cons.1 hi with rfl | hi
  · exact execFreset_buffersWf hu huv
  · obtain ⟨b, _, rfl⟩ := List.mem_map.1 hi
    exact execFacc_buffersWf hu huv

end

/-- Ready for the first ENC: a tree with its codes, and an empty stream. -/
structure State.EncodeReady (s : State) : Prop where
  treeValid : s.treeValid = true
  tree : s.TreeOk
  codes : s.CodesOk
  buffers : s.BuffersWf
  cursor : s.sCur = 0
  written : s.sWlen = 0

/-- BUILD leaves the tree, GEN its codes, and SCLEAR the empty stream. -/
theorem encodeReady_of_runOk {s t : State} (hs : s.BuffersWf) (h : runOk [.build, .gen, .sclear] s = some t) :
    t.EncodeReady := by
  obtain ⟨u, hbuild, hbuildOk, h⟩ := runOk_cons h
  obtain ⟨v, hgen, hgenOk, h⟩ := runOk_cons h
  obtain ⟨w, hclear, _, h⟩ := runOk_cons h
  obtain rfl := Option.some.inj h
  have htree := execBuild_treeOk hbuild hbuildOk
  have hu := execBuild_buffersWf hs hbuild
  obtain ⟨g, hv, hg, rfl⟩ := genWalk_of_execGen hgen hgenOk
  have hcodes := htree.codesOk_of_genWalk (t := u.generated g) hu.codebuf hg rfl rfl
  rw [finish_next hclear]
  exact {
    treeValid := hv
    tree := htree.of_treeData rfl
    codes := hcodes.of_treeData_codeData rfl rfl
    buffers := ⟨genWalk_wf hu.codebuf hg, hu.stream, hu.outbuf⟩
    cursor := rfl
    written := rfl }

/-! ## The bits of the input (R192) -/

theorem Memory.readBits_append (m : Memory) (k a b : Nat) :
    m.readBits k (a + b) = m.readBits k a ++ m.readBits (k + a) b := by
  simp only [Memory.readBits, List.range_add, List.map_append, List.map_map, Function.comp_def, Nat.add_assoc]

/-- A written stream that holds the codes of symbols one after another holds the symbols. -/
theorem holdsSymbols_of_readBits {s : State} {code : Symbol → List Bool} (bs : List Symbol)
    (hcode : ∀ b ∈ bs, code b ≠ [] ∧ s.leadsTo (code b) b) {cur : Nat}
    (hread : s.stream.readBits cur (bs.flatMap code).length = bs.flatMap code)
    (hle : cur + (bs.flatMap code).length ≤ s.sWlen) :
    s.holdsSymbols cur bs (cur + (bs.flatMap code).length) := by
  induction bs generalizing cur with
  | nil => rfl
  | cons b bs ih =>
    obtain ⟨⟨hne, hleads⟩, hcode⟩ := List.forall_mem_cons.1 hcode
    rw [List.flatMap_cons, List.length_append, Memory.readBits_append] at hread
    rw [List.flatMap_cons, List.length_append, ← Nat.add_assoc] at hle ⊢
    obtain ⟨hfirst, hrest⟩ := List.append_inj hread (Memory.length_readBits ..)
    exact ⟨code b, hne, hleads, hfirst, by omega, ih hcode hrest hle⟩

/-! ## ENC of every symbol (R190) -/

theorem State.streamWriteBits_append (s : State) (xs ys : List Bool) :
    s.streamWriteBits (xs ++ ys) = (s.streamWriteBits xs).streamWriteBits ys := List.foldl_append

/-- Appending bits does not read LAST and RESULT, and keeps them. -/
theorem State.streamWriteBits_withResult (s : State) (c : ResultCode) (w : Word) (xs : List Bool) :
    State.streamWriteBits { s with last := c, result := w } xs =
      { s.streamWriteBits xs with last := c, result := w } := by
  induction xs generalizing s with
  | nil => rfl
  | cons x xs ih => exact ih (s.streamWrite x)

/-- Appending bits keeps every code, and so does writing LAST and RESULT. -/
theorem State.codes_streamWriteBits (s : State) (c : ResultCode) (w : Word) (xs : List Bool) :
    State.codeAt { s.streamWriteBits xs with last := c, result := w } = s.codeAt ∧
      State.codeBitsOf { s.streamWriteBits xs with last := c, result := w } = s.codeBitsOf := by
  obtain ⟨m, k, n, e⟩ := streamWriteBits_frame s xs
  rw [e]
  exact ⟨rfl, rfl⟩

/-- ENCs that all complete are of symbols with codes, and append their bits one after another. -/
theorem runOk_enc (bs : List Symbol) {s t : State} (h : runOk (bs.map .enc) s = some t) :
    (∀ b ∈ bs, (s.codeAt b).valid = true) ∧
      ∃ c w, t = { s.streamWriteBits (bs.flatMap s.codeBitsOf) with last := c, result := w } := by
  induction bs generalizing s with
  | nil =>
    obtain rfl := Option.some.inj h
    exact ⟨fun b hb => absurd hb List.not_mem_nil, s.last, s.result, rfl⟩
  | cons b bs ih =>
    obtain ⟨u, henc, hok, hrest⟩ := runOk_cons h
    obtain ⟨_, hb, hu⟩ := execEnc_ok henc hok
    have hu := hu.trans (Host.Outcome.next.inj (finish_eq _ _))
    obtain ⟨hvalid, c, w, ht⟩ := ih hrest
    obtain ⟨hcodeAt, hbits⟩ := s.codes_streamWriteBits .ok (BitVec.ofNat 32 (s.codeAt b).len) (s.codeBitsOf b)
    rw [← hu] at hcodeAt hbits
    rw [hcodeAt] at hvalid
    refine ⟨List.forall_mem_cons.2 ⟨hb, hvalid⟩, c, w, ?_⟩
    rw [ht, hbits, hu, State.streamWriteBits_withResult, ← State.streamWriteBits_append, List.flatMap_cons]

/-- Ready for decoding the input `bs` from the cursor. -/
structure State.DecodeReady (s : State) (bs : List Symbol) : Prop where
  treeValid : s.treeValid = true
  outbuf : s.outbuf.wf = true
  held : ∃ e, s.holdsSymbols s.sCur bs e

/-- The ENCs write the codes of the input into the empty stream, and SRESET rewinds it. -/
theorem State.EncodeReady.decodeReady {s t : State} {bs : List Symbol} (hs : s.EncodeReady)
    (h : runOk (bs.map .enc ++ [.sreset]) s = some t) : t.DecodeReady bs := by
  obtain ⟨u, henc, hlast⟩ := runOk_append _ h
  obtain ⟨v, hreset, _, hnil⟩ := runOk_cons hlast
  obtain rfl := Option.some.inj hnil
  obtain ⟨hvalid, c, w, rfl⟩ := runOk_enc bs henc
  have hempty : s.sCur ≤ s.sWlen := (hs.cursor.trans hs.written.symm).le
  rw [State.streamWriteBits_eq s _ (.inr hempty), hs.cursor, Nat.zero_add] at hreset
  rw [finish_next hreset]
  refine ⟨hs.treeValid, hs.buffers.outbuf, _, holdsSymbols_of_readBits bs (fun b hb => ?_)
    (Memory.readBits_writeBits 0 _ hs.buffers.stream) ((Nat.zero_add _).le.trans (le_max_right _ _))⟩
  have hleads := hs.codes.path b (hvalid b hb)
  exact ⟨List.ne_nil_of_length_pos (hs.tree.depth _ b hleads).1, hleads⟩

/-! ## The two decode runs (R210) -/

/-- A decode run that finishes has stored its symbols from O_CNT on. -/
theorem finish_emitAll_read {t : State} (hwf : t.outbuf.wf = true) (h0 : t.oCnt = 0) (bs : List Symbol) (e r : Nat) :
    ∃ u, finish (t.emitAll bs e) r = .next u ∧ u.last = .ok ∧
      ∀ j, (h : j < bs.length) → u.outbuf.read j = bs[j] := by
  refine ⟨_, rfl, rfl, fun j hj => ?_⟩
  have hread : (t.emitAll bs e).outbuf.read (t.oCnt + j) = bs[j] := (Memory.read_writeBytes t.oCnt bs hwf).1 j hj
  rw [h0, Nat.zero_add] at hread
  exact hread

/-- Settles O60: the run leaves a stream that holds the input, which DRUN and DSENT decode whole. -/
theorem roundTrip : Obligations.RoundTrip := by
  intro s t bs _ hlen hbuffers hrun h0 hfit
  rw [List.append_assoc] at hrun
  obtain ⟨u, hbuilt, hencoded⟩ := runOk_append _ hrun
  obtain ⟨v, hcounted, hbuilt⟩ := runOk_append _ hbuilt
  have hready := encodeReady_of_runOk (runOk_count_buffersWf hbuffers.buffersWf hcounted) hbuilt
  obtain ⟨hv, hwf, e, hheld⟩ := hready.decodeReady hencoded
  rw [← Nat.zero_add bs.length, ← h0] at hfit
  constructor
  · have hn : bs.length = (BitVec.ofNat 24 bs.length).toNat := by
      rw [BitVec.toNat_ofNat, Nat.mod_eq_of_lt hlen]
    have hdrun : exec (.drun (BitVec.ofNat 24 bs.length)) t = _ := execDrun_finishes hv hheld hfit hn
    rw [hdrun]
    exact finish_emitAll_read hwf h0 bs e _
  · rintro cs rfl hcs
    rw [List.length_append, List.length_singleton, ← Nat.add_assoc] at hfit
    have hdsent : exec .dsent t = _ := execDsent_finishes hv hcs hheld hfit
    rw [hdsent]
    exact finish_emitAll_read hwf h0 _ e _

end Sys2Proof.Machine
end

section
/-! The soft reset SRST and the hardware reset (O19). -/

namespace Sys2Proof.Machine

theorem encode_srst : encode .srst = 0x7F000000#32 := by decide

/-- SRST's next state, with the word it leaves in CMD written out (R224, R225; log 3). -/
theorem execSrst_eq (s : State) :
    execSrst s = .next { State.resetWith s.params with
      cmd := 0x7F000000#32
      pending := s.pending
      port := s.port } := by
  rw [execSrst, encode_srst]

/-- The hardware reset keeps the parameters, which taking an access from the host's list leaves alone (R239, R261,
R262; log 2). -/
theorem State.hardwareReset_take (s : State) (rest : List HostAccess) :
    (s.take rest).hardwareReset = { State.resetWith s.params with
      pending := true
      port := { s.port with requests := rest } } := by
  rw [State.hardwareReset, State.take]

/-- Settles O19: SRST is a command, and the hardware reset is the step `step_reset` gives, which asks nothing of
PENDING. -/
theorem resetsGiveResetState : Obligations.ResetsGiveResetState := by
  refine ⟨execSrst_eq, fun s rest hreset => ?_⟩
  rw [step_reset hreset, State.hardwareReset_take]

end Sys2Proof.Machine
end

section
/-! The result codes of each command (O50), no access and no change (O7), the BUSY hazard (O8), and the poll (O16). -/

namespace Sys2Proof.Machine

/-- Settles O50: SRST ends with the reset value OK, and `exec_next` limits the code of every other command. -/
theorem resultCodesOfCommands : Obligations.ResultCodesOfCommands := by
  intro i s t h
  by_cases hi : i = .srst
  · subst hi
    obtain rfl := Host.Outcome.next.inj ((execSrst_eq s).symm.trans h)
    rfl
  · obtain ⟨u, c, r, rfl, hc, _, _⟩ := exec_next hi h
    rwa [State.complete_last]

/-- Settles O7: a step with no access left is `step_nil`. -/
theorem noAccessNoChange : Obligations.NoAccessNoChange := fun _ h => step_nil h

/-! ## The BUSY hazard (R267) -/

section
variable {s : State} {a n : Nat} (hp : s.pending = true) (hw : s.inWindow a = true)
include hp hw

theorem State.readAction_hazard (h : ¬(a = s.params.base + 0x14 ∧ n = 4)) :
    s.readAction a n = .fault .busyHazard := by
  have hlo := (State.inWindow_iff.1 hw).1
  rw [State.readAction, if_pos hw, if_pos hp, if_neg]
  rintro ⟨ha, hn⟩
  exact h ⟨by rw [statusOffset] at ha; omega, hn⟩

theorem State.writeAction_hazard (d : Word) : s.writeAction a n d = .fault .busyHazard := by
  rw [State.writeAction, if_pos hw, if_pos hp]

end

/-- Settles O8: with a command pending the bus tests for the hazard before the map, and a write has no poll case. -/
theorem busyHazardFaults : Obligations.BusyHazardFaults := by
  constructor
  · intro s a n rest hp hlo hhi hstatus hr
    have hw : s.inWindow a = true := State.inWindow_iff.2 ⟨hlo, by omega⟩
    rw [step_cons hr, State.busAction, State.readAction_hazard hp hw hstatus, perform]
  · intro s a n d rest hp hlo hhi hr
    have hw : s.inWindow a = true := State.inWindow_iff.2 ⟨hlo, by omega⟩
    rw [step_cons hr, State.busAction, State.writeAction_hazard hp hw, perform]

/-! ## The poll (R266) -/

/-- Settles O16, by the value of the draw: 1 sets bit 0 of the word over the other bits, and 0 shows the STATUS word
of the completed command. -/
theorem pollDrawsBusy : Obligations.PollDrawsBusy := by
  intro s rest hp hr
  have hstep := step_poll hp hr
  cases hd : Config.busyDraw s.port.draws with
  | true =>
    rw [State.poll_of_busy (s := s.take rest) hd] at hstep
    exact ⟨_, by simp, hstep⟩
  | false =>
    rw [State.poll_of_ready (s := s.take rest) hd] at hstep
    exact ⟨_, s.statusShows_statusWord, hstep⟩

end Sys2Proof.Machine
end
